-- ==== Sys2Proof/Word.lean ====
section
/-! DEFINITION. The plain value types of DSSX: the 64-bit scalar word (00_scope.md R6), the 32-bit
command word (30_encoding.md R90), bit sequences (00_scope.md R9) and the data of the numeric type
`Num` (00_scope.md R12). -/

namespace Sys2Proof

/-- The content of a scalar register or of an integer control register: `XLEN = 64` bits (R6, R21, R30). -/
abbrev Word := BitVec 64

/-- One command word: `CMDLEN = 32` bits, a value and not a byte string (R67, R90). -/
abbrev CmdWord := BitVec 32

/-- A bit sequence, first element first (R9); `true` is the bit 1. -/
abbrev BitSeq := List Bool

/-- The IEEE 754 binary64 data, the executable instantiation Num-f64 of `Num` (R12, R243).
The form says what a datum is and not how its bits are laid out, since the spec fixes no
bit format for a `Num` (10_state.md R32). All not-a-numbers are one value: no operation of R12 tells
two of them apart. DESIGN CHOICE, logs 1 and 2. -/
inductive F64 where
  /-- not a number -/
  | nan
  /-- plus infinity, or minus infinity when `neg` -/
  | inf (neg : Bool)
  /-- a finite number: sign, biased exponent 0 to 2046, and the 52 fraction bits -/
  | fin (neg : Bool) (exp : Fin 2047) (frac : BitVec 52)
  deriving DecidableEq, Repr, Inhabited

/-- `Num`, the type of a sample, a sample rate and a real control register (R12). -/
abbrev Num := F64

end Sys2Proof
end

