-- ==== Sys2Proof/Config.lean ====
section
/-! DEFINITION. What an instance of DSSX fixes and the spec leaves open (00_scope.md R6, R12, 92_eei_decisions.md
section 4): the record of `Num`'s operations, the record of an instance's parameters that every rule takes as an
argument, and, for the one instance that the host's interface asks for (the core instance), each parameter as a constant
WITHOUT A BODY, so that no proof can learn more of it than its type says. -/

namespace Sys2Proof

/-- The operations of the numeric type `Num`, the configuration record of 00_scope.md R12. Every sample rule of
the model is written over such a record, so that it can be read in Num-f64 (Machine/Float.lean, what the machine
runs) and in Num-real (NumReal.lean, in which the spec states its laws). -/
structure NumOps (α : Type) where
  /-- the constant `0.0` -/
  zero : α
  /-- the constant `1.0` -/
  one : α
  /-- the constant `-1.0` -/
  negOne : α
  /-- conversion of a natural number -/
  ofNat : Nat → α
  add : α → α → α
  sub : α → α → α
  mul : α → α → α
  div : α → α → α
  sqrt : α → α
  cos : α → α
  pi : α
  /-- `a > 0.0` -/
  gt0 : α → Bool
  /-- `a <= 0.0`; in R12's list; read by no command's rule -/
  le0 : α → Bool
  /-- `a == 0.0` -/
  eq0 : α → Bool
  /-- `|a| > b` -/
  absGt : α → α → Bool
  min : α → α → α

/-- The parameters of an instance that the spec leaves open (R6, 10_state.md R25), the argument of every rule of the
machine: the numeric type with its operations, the capacities, the two seeded generators and the noise source. What
holds for every `Params` holds of every instance. -/
structure Params (α : Type) where
  /-- the operations of `Num` (R12) -/
  num : NumOps α
  /-- how far `BCAP` exceeds 24576, the least the spec allows (R6, R352) -/
  bcapExtra : Nat
  /-- `WCAP` (R6); the spec sets no limit -/
  wcap : Nat
  /-- `CHIPGEN` (42_prn.md R163): seed, length, index to the sign of that chip, `true` for `+1.0` -/
  chipSign : Word → Nat → Nat → Bool
  /-- `GAUSSGEN` (45_noise.md R212): seed, length, index to that sample -/
  gaussSample : Word → Nat → Nat → α
  /-- the noise source (10_state.md R47, 45_noise.md R211): its n-th unseeded draw since power-on; a FREE VALUE, log 8 -/
  noiseDraw : Nat → α

/-- The core instance: how far its `BCAP` exceeds the least one (R6, R352). Log 3. -/
opaque Config.bcapExtra : BitVec 63

/-- The core instance: how far its `WCAP` exceeds 1 (R6). Log 4. -/
opaque Config.wcapExtra : BitVec 63

/-- The platform's `cos` of Num-f64 (R12: "`cos` and `pi` as the platform provides them"). Log 5. -/
opaque Config.cosF64 : F64 → F64

/-- The fraction bits of the platform's `pi` of Num-f64 (R12). Log 5. -/
opaque Config.piFrac : BitVec 52

/-- The core instance's `CHIPGEN` (R163), as `Params.chipSign`. Log 6. -/
opaque Config.chipSign : Word → Nat → Nat → Bool

/-- The core instance's `GAUSSGEN` (R212), as `Params.gaussSample`. Log 7. -/
opaque Config.gaussSample : Word → Nat → Nat → F64

/-- The core instance's noise source (R47, R211), as `Params.noiseDraw`. A FREE VALUE, log 8. -/
opaque Config.noiseDraw : Nat → F64

end Sys2Proof
end

