-- ==== Sys2Proof/Machine/Float.lean ====
section
/-! DEFINITION. Num-f64, the executable instantiation of `Num` (00_scope.md R12): IEEE 754 binary64 with
round-to-nearest-even for `+ - * / sqrt`. Each operation computes exactly, on whole multiples of 2^-1074 (every
finite datum is one), and rounds once at the end. The standard is only named in the spec (93_implementation_defined.md
section 2, row 6): what is written here of it is PRESUMED, log 2. -/

namespace Sys2Proof

/-- The magnitude of a finite datum, in units of 2^-1074. -/
def F64.units (exp : Fin 2047) (frac : BitVec 52) : Nat :=
  if exp.val = 0 then frac.toNat else (2 ^ 52 + frac.toNat) * 2 ^ (exp.val - 1)

/-- The datum nearest to `± a/b` units of 2^-1074, ties to even; an overflow is an infinity (R243). `b > 0`. -/
def F64.round (neg : Bool) (a b : Nat) : F64 :=
  let shift := (a / b).log2 - 52
  let unit := b * 2 ^ shift
  let down := a / unit
  let rest := 2 * (a % unit)
  let near := if unit < rest ∨ (rest = unit ∧ down % 2 = 1) then down + 1 else down
  let code := shift * 2 ^ 52 + near
  if h : code / 2 ^ 52 < 2047 then .fin neg ⟨code / 2 ^ 52, h⟩ (BitVec.ofNat 52 code) else .inf neg

/-- The constant `0.0`. -/
def F64.zero : F64 := .fin false 0 0

/-- The constant `1.0`. -/
def F64.one : F64 := .fin false 1023 0

/-- The constant `-1.0`. -/
def F64.negOne : F64 := .fin true 1023 0

/-- The conversion of a natural number, to nearest even (PRESUMED, log 2). -/
def F64.ofNat (n : Nat) : F64 := F64.round false (n * 2 ^ 1074) 1

/-- The sign inverted. -/
def F64.neg : F64 → F64
  | .nan => .nan
  | .inf s => .inf !s
  | .fin s e f => .fin (!s) e f

/-- The sum of `± m` and `± m'` units, rounded; an exact zero is `+0` unless both terms are `-0` or negative. -/
def F64.addUnits (s : Bool) (m : Nat) (s' : Bool) (m' : Nat) : F64 :=
  if s = s' then F64.round s (m + m') 1
  else if m = m' then F64.zero
  else if m' < m then F64.round s (m - m') 1
  else F64.round s' (m' - m) 1

/-- `a + b`. -/
def F64.add (a b : F64) : F64 :=
  match a, b with
  | .nan, _ => .nan
  | .inf _, .nan => .nan
  | .inf s, .inf s' => if s = s' then .inf s else .nan
  | .inf s, .fin _ _ _ => .inf s
  | .fin _ _ _, .nan => .nan
  | .fin _ _ _, .inf s => .inf s
  | .fin s e f, .fin s' e' f' => F64.addUnits s (F64.units e f) s' (F64.units e' f')

/-- `a - b`. -/
def F64.sub (a b : F64) : F64 := F64.add a (F64.neg b)

/-- `a * b`. -/
def F64.mul (a b : F64) : F64 :=
  match a, b with
  | .nan, _ => .nan
  | .inf _, .nan => .nan
  | .inf s, .inf s' => .inf (s ^^ s')
  | .inf s, .fin s' e f => if F64.units e f = 0 then .nan else .inf (s ^^ s')
  | .fin _ _ _, .nan => .nan
  | .fin s e f, .inf s' => if F64.units e f = 0 then .nan else .inf (s ^^ s')
  | .fin s e f, .fin s' e' f' => F64.round (s ^^ s') (F64.units e f * F64.units e' f') (2 ^ 1074)

/-- `a / b`. -/
def F64.div (a b : F64) : F64 :=
  match a, b with
  | .nan, _ => .nan
  | .inf _, .nan => .nan
  | .inf _, .inf _ => .nan
  | .inf s, .fin s' _ _ => .inf (s ^^ s')
  | .fin _ _ _, .nan => .nan
  | .fin s _ _, .inf s' => .fin (s ^^ s') 0 0
  | .fin s e f, .fin s' e' f' =>
    if F64.units e' f' = 0 then (if F64.units e f = 0 then .nan else .inf (s ^^ s'))
    else F64.round (s ^^ s') (F64.units e f * 2 ^ 1074) (F64.units e' f')

/-- The bits of the whole square root of `n`, from bit `i - 1` down, added to `r`. -/
def isqrtFrom : Nat → Nat → Nat → Nat
  | 0, _, r => r
  | i + 1, n, r =>
    if (r + 2 ^ i) * (r + 2 ^ i) ≤ n then isqrtFrom i n (r + 2 ^ i) else isqrtFrom i n r

/-- The whole part of the square root of `n`, for `n < 2^3200`. -/
def isqrt (n : Nat) : Nat := isqrtFrom 1600 n 0

/-- `sqrt a`: the whole root in units, with one further bit that says whether the root is exact. -/
def F64.sqrt (a : F64) : F64 :=
  match a with
  | .nan => .nan
  | .inf s => if s then .nan else .inf false
  | .fin s e f =>
    let m := F64.units e f
    if m = 0 then .fin s e f
    else if s then .nan
    else
      let n := m * 2 ^ 1074
      let r := isqrt n
      F64.round false (2 * r + if r * r = n then 0 else 1) 2

/-- `a > 0.0`; false for not-a-number (R188). -/
def F64.gt0 (a : F64) : Bool :=
  match a with
  | .nan => false
  | .inf s => !s
  | .fin s e f => !s && F64.units e f != 0

/-- `a <= 0.0`; false for not-a-number. -/
def F64.le0 (a : F64) : Bool :=
  match a with
  | .nan => false
  | .inf s => s
  | .fin s e f => s || F64.units e f == 0

/-- `a == 0.0`; true for `-0.0` as well. -/
def F64.eq0 (a : F64) : Bool :=
  match a with
  | .nan => false
  | .inf _ => false
  | .fin _ e f => F64.units e f == 0

/-- `a < b`; false where either is not a number. -/
def F64.lt (a b : F64) : Bool :=
  match a, b with
  | .nan, _ => false
  | .inf _, .nan => false
  | .inf s, .inf s' => s && !s'
  | .inf s, .fin _ _ _ => s
  | .fin _ _ _, .nan => false
  | .fin _ _ _, .inf s' => !s'
  | .fin s e f, .fin s' e' f' =>
    match s, s' with
    | false, false => F64.units e f < F64.units e' f'
    | true, true => F64.units e' f' < F64.units e f
    | true, false => 0 < F64.units e f + F64.units e' f'
    | false, true => false

/-- `|a| > b`. -/
def F64.absGt (a b : F64) : Bool :=
  match a with
  | .nan => false
  | .inf _ => F64.lt b (.inf false)
  | .fin _ e f => F64.lt b (.fin false e f)

/-- The lesser of the two. The rules take it of two numbers above zero only (45_noise.md R215, R216). -/
def F64.min (a b : F64) : F64 := if F64.lt b a then b else a

/-- A finite datum. -/
def F64.isFinite (a : F64) : Bool :=
  match a with
  | .fin _ _ _ => true
  | .inf _ => false
  | .nan => false

/-- `cos`: 1.0 at zero (44_carrier.md R201), not-a-number for an argument that is no finite number (R243), and else
what the platform provides (R12, log 5). -/
def F64.cos (a : F64) : F64 :=
  match a with
  | .nan => .nan
  | .inf _ => .nan
  | .fin s e f => if F64.units e f = 0 then F64.one else Config.cosF64 (.fin s e f)

/-- `pi`: a datum from 2 up to 4, its fraction the platform's (R12, log 5). -/
def F64.pi : F64 := .fin false 1024 Config.piFrac

/-- The record of operations of Num-f64. -/
def f64Ops : NumOps F64 where
  zero := F64.zero
  one := F64.one
  negOne := F64.negOne
  ofNat := F64.ofNat
  add := F64.add
  sub := F64.sub
  mul := F64.mul
  div := F64.div
  sqrt := F64.sqrt
  cos := F64.cos
  pi := F64.pi
  gt0 := F64.gt0
  le0 := F64.le0
  eq0 := F64.eq0
  absGt := F64.absGt
  min := F64.min

end Sys2Proof
end

