-- ==== Sys2Proof/Machine/State.lean ====
section
/-! DEFINITION. The state of DSSX (10_state.md R20: "Nothing else is state") as plain data, the ways a step can have no
next state, and the state after reset (R48). The redundant bits `FAULT` and `EXEC` of `STATUS` are not stored: they say
`mode` again and are computed from it (R31, Machine/Flags.lean). -/

namespace Sys2Proof.Machine

/-- The run state of the sequencer (R24). -/
inductive Mode where
  /-- the sequencer executes nothing; the host has the state -/
  | idle
  /-- the sequencer executes the command stream -/
  | exec
  /-- the sequencer has stopped on a fault -/
  | fault
  deriving DecidableEq, Repr

/-- A waveform: samples and their sample rate in Hz, the content of a sample buffer (R42) or of a tap (R44). -/
structure Wave.Of (α : Type) where
  data : List α
  rate : α
  deriving DecidableEq, Repr

/-- A waveform of the core instance. -/
abbrev Wave : Type := Wave.Of Num

/-- Why the sequencer has no step. These are no faults of the spec: a fault of DSSX (60_exceptions.md R300) is a next
state, with the fault record written. -/
inductive Fault where
  /-- Raised by `step` in `IDLE` mode: "the sequencer executes nothing" (R24). Safe: the model stops. -/
  | sequencerIdle
  /-- Raised by `step` in `FAULT` mode: the sequencer "executes nothing until the host clears it" (R24). Safe. -/
  | sequencerFaulted
  /-- Raised by `step` in `EXEC` mode when `pc` has reached the end of the stream: "it has no step" (R24,
  47_system_run.md R263). Safe. -/
  | streamEnded
  deriving DecidableEq, Repr

/-- Why a command has no meaning. -/
inductive Refusal where
  /-- Raised by `exec` for a command not yet modelled; no arm of this model raises it. Safe: the model stops. -/
  | notModelled (mnemonic : String)
  deriving DecidableEq, Repr

/-- The whole state of DSSX, over any numeric type `Num` (00_scope.md R12). The last two fields are the model's own. -/
structure State.Of (α : Type) where
  /-- the scalar registers `x0` to `x7` (R21) -/
  x : Vector Word 8
  /-- the command index (R23) -/
  pc : BitVec 32
  /-- the run state (R24) -/
  mode : Mode
  /-- `STATUS.DONE`: a `HALT` has executed since the last `HostStart` (R31) -/
  done : Bool
  /-- `STATUS.TAPV`: the taps hold the stages of one completed `RUN` (R31) -/
  tapv : Bool
  /-- `STATUS.MISMATCH`: the last completed `RUN` decoded other bits than were sent (R31) -/
  mismatch : Bool
  /-- `CAUSE`, 0x001: the code of the last fault, 0 when none (R30, R35) -/
  cause : Word
  /-- `FPC`, 0x002: the index of the last faulting command (R30, R35) -/
  fpc : Word
  /-- `FINFO`, 0x003: the value the last fault recorded (R30, R35) -/
  finfo : Word
  /-- `RUNID`, 0x004: the count of completed `RUN` commands (R30, R36) -/
  runid : Word
  /-- `SCHEME`, 0x010: the coding scheme (R30) -/
  scheme : Word
  /-- `CPB`, 0x011: chips per bit (R30) -/
  cpb : Word
  /-- `OVS`, 0x012: the oversampling factor (R30) -/
  ovs : Word
  /-- `NMODE`, 0x013: the noise mode (R30) -/
  nmode : Word
  /-- `PAYLOAD`, 0x014: metadata, the payload bit count (R30, R34) -/
  payload : Word
  /-- `PADLEN`, 0x015: metadata, the Hamming zero-padding length (R30, R34) -/
  padlen : Word
  /-- `REPEAT`, 0x016: metadata, the Repeat3 repeat factor (R30, R34) -/
  repeatFactor : Word
  /-- `SEEDTX`, 0x017: the transmitter's seed (R30) -/
  seedtx : Word
  /-- `SEEDRX`, 0x018: the receiver's seed (R30) -/
  seedrx : Word
  /-- `NSEEDEN`, 0x019, whose one stored bit is bit 0 (R30, R33) -/
  nseeden : Bool
  /-- `NSEED`, 0x01A: the injected noise seed (R30, R37) -/
  nseed : Word
  /-- `CHIPRATE`, 0x020: the chip rate in Hz (R32) -/
  chiprate : α
  /-- `FC`, 0x021: the carrier frequency in Hz (R32) -/
  fc : α
  /-- `NPOW`, 0x022: the noise power (R32) -/
  npow : α
  /-- `NBW`, 0x023: the noise bandwidth in Hz (R32) -/
  nbw : α
  /-- the bit buffers `B0` to `B7` (R40); a buffer is its element sequence and has no storage beyond it -/
  b : Vector BitSeq 8
  /-- the sample buffers `W0` to `W7` (R42) -/
  w : Vector (Wave.Of α) 8
  /-- the taps `T0` to `T5` (R44) -/
  t : Vector (Wave.Of α) 6
  /-- the model's own: the command stream `P` of the latest `HostStart`, a parameter of the run (R25, R92), log 9 -/
  stream : List CmdWord
  /-- the model's own: how many draws the noise source has supplied (R47), log 8 -/
  draws : Nat
  deriving DecidableEq, Repr

/-- The whole state of DSSX with the numeric type the core instance runs. -/
abbrev State : Type := State.Of Num

/-- The empty waveform with rate `0.0` (R48). -/
def Wave.empty {α : Type} (N : NumOps α) : Wave.Of α := ⟨[], N.zero⟩

/-- The machine after power-on, over any numeric type: every register zero, every buffer and tap empty with rate `0.0`,
`IDLE`, every status flag clear (10_state.md R48, 70_reset_and_hazards.md R340). The two fields of the model's own start
empty and at 0 (logs 8 and 9). -/
def State.resetOf {α : Type} (N : NumOps α) : State.Of α where
  x := Vector.replicate 8 0
  pc := 0
  mode := .idle
  done := false
  tapv := false
  mismatch := false
  cause := 0
  fpc := 0
  finfo := 0
  runid := 0
  scheme := 0
  cpb := 0
  ovs := 0
  nmode := 0
  payload := 0
  padlen := 0
  repeatFactor := 0
  seedtx := 0
  seedrx := 0
  nseeden := false
  nseed := 0
  chiprate := N.zero
  fc := N.zero
  npow := N.zero
  nbw := N.zero
  b := Vector.replicate 8 []
  w := Vector.replicate 8 (Wave.empty N)
  t := Vector.replicate 6 (Wave.empty N)
  stream := []
  draws := 0

/-- The core instance after power-on (R48, R340). -/
def State.reset : State := State.resetOf f64Ops

end Sys2Proof.Machine
end

