-- ==== Sys2Proof/Machine/Flags.lean ====
section
/-! DEFINITION. The status register (10_state.md R31): every flag DSSX has. Arithmetic and coding commands write no
flag; there is no carry, overflow, zero or sign flag anywhere (46_scalar_buffer.md R242). -/

namespace Sys2Proof.Machine

variable {α : Type}

/-- `STATUS.FAULT`: `mode = FAULT` (R31). -/
def faultFlag (s : State.Of α) : Bool := s.mode == .fault

/-- `STATUS.EXEC`: `mode = EXEC` (R31). -/
def execFlag (s : State.Of α) : Bool := s.mode == .exec

/-- The register `STATUS`, 0x000: `DONE` bit 0, `FAULT` bit 1, `TAPV` bit 2, `MISMATCH` bit 3, `EXEC` bit 4, bits
63:5 zero (R31). -/
def statusWord (s : State.Of α) : Word :=
  BitVec.ofNat 64
    (s.done.toNat + 2 * (faultFlag s).toNat + 4 * s.tapv.toNat + 8 * s.mismatch.toNat + 16 * (execFlag s).toNat)

/-- Whether two bit sequences differ, in length or in any element: `STATUS.MISMATCH` after `RUN` (47_system_run.md
R258) and the result of `BCMP` (46_scalar_buffer.md R241). -/
def bitsDiffer (p q : BitSeq) : Bool := p != q

end Sys2Proof.Machine
end

