-- ==== Sys2Proof/Syntax.lean ====
section
/-! DEFINITION. The commands of DSSX, one constructor per row of spec/opcode_table.json (30_encoding.md R95), with
the operands a legal word can name. An operand number is 0 to 7 (R94, R98), so a field of 8 to 15 has no term here
and is refused by the decoder. -/

namespace Sys2Proof

/-- A scalar register number, `x0` to `x7` (R21). -/
abbrev XReg := Fin 8

/-- A bit buffer number, `B0` to `B7` (R40). -/
abbrev BBuf := Fin 8

/-- A sample buffer number, `W0` to `W7` (R42). -/
abbrev WBuf := Fin 8

/-- A DSSX command. Operands stand in field order `a`, `b`, `c`, `k`, so the destination is first, but for `csrw`,
which has none (R95, R103). -/
inductive Instr where
  | nop
  | halt
  | run
  | li (xd : XReg) (imm : BitVec 16)
  | lih (xd : XReg) (imm : BitVec 16)
  | csrr (xd : XReg) (csr : BitVec 12)
  | csrw (xs : XReg) (csr : BitVec 12)
  | bclr (bd : BBuf)
  | blen (xd : XReg) (bs : BBuf)
  | bget (xd : XReg) (bs : BBuf) (xi : XReg) (nm1 : BitVec 6)
  | bpush (bd : BBuf) (xs : XReg) (nm1 : BitVec 6)
  | bflip (bd : BBuf) (xi : XReg)
  | wlen (xd : XReg) (ws : WBuf)
  | bcmp (xd : XReg) (bs bt : BBuf)
  | nrzenc (bd bs : BBuf)
  | nrzdec (bd bs : BBuf)
  | manenc (bd bs : BBuf)
  | mandec (bd bs : BBuf)
  | repenc (bd bs : BBuf)
  | repdec (bd bs : BBuf)
  | fecenc (bd bs : BBuf)
  | fecdec (bd bs : BBuf)
  | henc4 (xd xs : XReg)
  | hsyn7 (xd xs : XReg)
  | hcor7 (xd xs : XReg)
  | hdec7 (xd xs : XReg)
  | hamenc (bd bs : BBuf)
  | hamdec (bd bs : BBuf)
  | dseed (xd : XReg) (bs : BBuf)
  | prngen (wd : WBuf) (xs : XReg)
  | spread (wd : WBuf) (bs : BBuf) (wp : WBuf)
  | ovsamp (wd ws : WBuf)
  | chmean (wd ws : WBuf) (xw : XReg)
  | desprd (wd ws wp : WBuf)
  | slice (bd : BBuf) (ws : WBuf)
  | modul (wd ws : WBuf)
  | demod (wd ws : WBuf)
  | noisew (wd ws : WBuf)
  | noiseb (wd ws : WBuf)
  | addnoise (wd ws : WBuf)
  deriving DecidableEq, Repr

end Sys2Proof
end

