-- ==== Sys2Proof/Machine/Operands.lean ====
section
/-! DEFINITION. The operands of a command: immediates and bit counts (30_encoding.md R96), scalar registers (10_state.md
R21, R22) and control registers by number (R30, R32). -/

namespace Sys2Proof.Machine

variable {α : Type}

/-- `sext_64(imm16)` (R96). -/
def immSigned (imm : BitVec 16) : Word := imm.signExtend 64

/-- `zext_64(imm16)` (R96). -/
def immUnsigned (imm : BitVec 16) : Word := imm.setWidth 64

/-- The bit count `n = nm1 + 1` of `BGET` and `BPUSH`, 1 to 64 (R96). -/
def bitCount (nm1 : BitVec 6) : Nat := nm1.toNat + 1

/-- `x[r]` (R21); no register is hard-wired. -/
def readX (r : XReg) (s : State.Of α) : Word := s.x[r]

/-- `x[r] <- v` (R21). -/
def writeX (r : XReg) (v : Word) (s : State.Of α) : State.Of α := { s with x := s.x.set r v }

/-- `x[r] <- v mod 2^64` for a natural number `v` (00_scope.md R11). -/
def writeXNat (r : XReg) (v : Nat) (s : State.Of α) : State.Of α := writeX r (BitVec.ofNat 64 v) s

/-- The integer control registers, by name (R30). -/
inductive IntCsr where
  | status
  | cause
  | fpc
  | finfo
  | runid
  | scheme
  | cpb
  | ovs
  | nmode
  | payload
  | padlen
  | repeatFactor
  | seedtx
  | seedrx
  | nseeden
  | nseed
  deriving DecidableEq, Repr

/-- The register's number (R30). -/
def IntCsr.number : IntCsr → BitVec 12
  | .status => 0x000
  | .cause => 0x001
  | .fpc => 0x002
  | .finfo => 0x003
  | .runid => 0x004
  | .scheme => 0x010
  | .cpb => 0x011
  | .ovs => 0x012
  | .nmode => 0x013
  | .payload => 0x014
  | .padlen => 0x015
  | .repeatFactor => 0x016
  | .seedtx => 0x017
  | .seedrx => 0x018
  | .nseeden => 0x019
  | .nseed => 0x01A

/-- The integer control register with the given number, if any (R30). -/
def IntCsr.ofNumber (n : BitVec 12) : Option IntCsr :=
  match n.toNat with
  | 0x000 => some .status
  | 0x001 => some .cause
  | 0x002 => some .fpc
  | 0x003 => some .finfo
  | 0x004 => some .runid
  | 0x010 => some .scheme
  | 0x011 => some .cpb
  | 0x012 => some .ovs
  | 0x013 => some .nmode
  | 0x014 => some .payload
  | 0x015 => some .padlen
  | 0x016 => some .repeatFactor
  | 0x017 => some .seedtx
  | 0x018 => some .seedrx
  | 0x019 => some .nseeden
  | 0x01A => some .nseed
  | _ => none

/-- The command access "read, write" of R30; the other registers are read only. -/
def IntCsr.writable : IntCsr → Bool
  | .status => false
  | .cause => false
  | .fpc => false
  | .finfo => false
  | .runid => false
  | .scheme => true
  | .cpb => true
  | .ovs => true
  | .nmode => true
  | .payload => true
  | .padlen => true
  | .repeatFactor => true
  | .seedtx => true
  | .seedrx => true
  | .nseeden => true
  | .nseed => true

/-- The value of a control register; a read changes nothing (R33, R71). -/
def readCsr (r : IntCsr) (s : State.Of α) : Word :=
  match r with
  | .status => statusWord s
  | .cause => s.cause
  | .fpc => s.fpc
  | .finfo => s.finfo
  | .runid => s.runid
  | .scheme => s.scheme
  | .cpb => s.cpb
  | .ovs => s.ovs
  | .nmode => s.nmode
  | .payload => s.payload
  | .padlen => s.padlen
  | .repeatFactor => s.repeatFactor
  | .seedtx => s.seedtx
  | .seedrx => s.seedrx
  | .nseeden => BitVec.ofNat 64 s.nseeden.toNat
  | .nseed => s.nseed

/-- A write to a control register: the whole value is stored, unchecked, but for `NSEEDEN`, which stores bit 0 (R33).
A read-only register is never written this way (R234) and keeps its value. -/
def writeCsr (r : IntCsr) (v : Word) (s : State.Of α) : State.Of α :=
  match r with
  | .status => s
  | .cause => s
  | .fpc => s
  | .finfo => s
  | .runid => s
  | .scheme => { s with scheme := v }
  | .cpb => { s with cpb := v }
  | .ovs => { s with ovs := v }
  | .nmode => { s with nmode := v }
  | .payload => { s with payload := v }
  | .padlen => { s with padlen := v }
  | .repeatFactor => { s with repeatFactor := v }
  | .seedtx => { s with seedtx := v }
  | .seedrx => { s with seedrx := v }
  | .nseeden => { s with nseeden := v.getLsbD 0 }
  | .nseed => { s with nseed := v }

/-- The real control registers, by name (R32); only the host port reaches them. -/
inductive RealCsr where
  | chiprate
  | fc
  | npow
  | nbw
  deriving DecidableEq, Repr

/-- The real control register with the given number, if any (R32). -/
def RealCsr.ofNumber (n : BitVec 12) : Option RealCsr :=
  match n.toNat with
  | 0x020 => some .chiprate
  | 0x021 => some .fc
  | 0x022 => some .npow
  | 0x023 => some .nbw
  | _ => none

/-- The value of a real control register (R32). -/
def readReal (r : RealCsr) (s : State.Of α) : α :=
  match r with
  | .chiprate => s.chiprate
  | .fc => s.fc
  | .npow => s.npow
  | .nbw => s.nbw

/-- A write to a real control register: the whole `Num`, unchecked (R33). -/
def writeReal (r : RealCsr) (v : α) (s : State.Of α) : State.Of α :=
  match r with
  | .chiprate => { s with chiprate := v }
  | .fc => { s with fc := v }
  | .npow => { s with npow := v }
  | .nbw => { s with nbw := v }

end Sys2Proof.Machine
end

