-- ==== Sys2Proof/Machine/Params.lean ====
section
/-! DEFINITION. The open parameters of an instance (00_scope.md R6) as the rules use them, and the core instance, the
one the host runs. -/

namespace Sys2Proof.Machine

variable {α : Type}

/-- `BCAP`, the capacity of a bit buffer: "at least 24576" (R6, R352). Log 3. -/
def bcapOf (P : Params α) : Nat := 24576 + P.bcapExtra

/-- `n <= BCAP`. The first comparison is implied by the second; it lets a small length be decided by evaluation. -/
def fitsB (P : Params α) (n : Nat) : Bool := decide (n ≤ 24576) || decide (n ≤ bcapOf P)

/-- `n <= WCAP`. The first comparison is implied by the second; it lets the length 0 be decided by evaluation. -/
def fitsW (P : Params α) (n : Nat) : Bool := decide (n = 0) || decide (n ≤ P.wcap)

/-- A chip sequence of `n` chips, each `+1.0` or `-1.0`, from a generator that says the sign of each (42_prn.md R163).
The sign may depend on the seed, on `n` and on the index, so no prefix property is granted. -/
def chipsOf (N : NumOps α) (sign : Word → Nat → Nat → Bool) (seed : Word) (n : Nat) : List α :=
  (List.range n).map fun j => if sign seed n j then N.one else N.negOne

/-- `CHIPGEN(seed, n)` of the instance (R163). -/
def chipGenOf (P : Params α) (seed : Word) (n : Nat) : List α := chipsOf P.num P.chipSign seed n

/-- `GAUSSGEN(seed, n)` of the instance (45_noise.md R212). -/
def gaussGenOf (P : Params α) (seed : Word) (n : Nat) : List α := (List.range n).map fun i => P.gaussSample seed n i

/-- `n` draws of the noise source in index order, the first one its `first`-th (R211). -/
def drawsOf (P : Params α) (first n : Nat) : List α := (List.range n).map fun i => P.noiseDraw (first + i)

/-! ### The core instance -/

/-- The core instance's `i`-th draw: any finite number (R211); a FREE VALUE, log 8. -/
def noiseDraw (i : Nat) : Num := if (Config.noiseDraw i).isFinite then Config.noiseDraw i else F64.zero

/-- The core instance: Num-f64 (R12, log 1) with unknown capacities, generators and draws (logs 3, 4, 6, 7, 8). -/
def machine : Params Num where
  num := f64Ops
  bcapExtra := Config.bcapExtra.toNat
  wcap := 1 + Config.wcapExtra.toNat
  chipSign := Config.chipSign
  gaussSample := Config.gaussSample
  noiseDraw := noiseDraw

/-- The core instance's operations of `Num`. -/
abbrev num : NumOps Num := machine.num

/-- The core instance's `BCAP`. -/
abbrev bcap : Nat := bcapOf machine

/-- The core instance's `WCAP`. -/
abbrev wcap : Nat := machine.wcap

/-- The core instance's `CHIPGEN`. -/
abbrev chipGen (seed : Word) (n : Nat) : List Num := chipGenOf machine seed n

/-- The core instance's `GAUSSGEN`. -/
abbrev gaussGen (seed : Word) (n : Nat) : List Num := gaussGenOf machine seed n

/-- The core instance's draws. -/
abbrev drawsFrom (first n : Nat) : List Num := drawsOf machine first n

/-! ### The reference chip generator -/

/-- One step of the xorshift64* state (42_prn.md R165). -/
def xs64Step (s : Word) : Word :=
  let s1 := s ^^^ (s >>> 12)
  let s2 := s1 ^^^ (s1 <<< 25)
  s2 ^^^ (s2 >>> 27)

/-- The state of xorshift64* after `n` steps from `s`. -/
def xs64State (s : Word) : Nat → Word
  | 0 => s
  | n + 1 => xs64Step (xs64State s n)

/-- The sign of chip `j` of the reference generator `CHIPGEN_XS64STAR`: the top bit of the output word (R165). -/
def xs64Sign (seed : Word) (_n j : Nat) : Bool :=
  let start := if seed = 0 then 0x9E3779B97F4A7C15 else seed
  (xs64State start (j + 1) * 0x2545F4914F6CDD1D).msb

/-- `CHIPGEN_XS64STAR(seed, n)`, the reference instantiation of `CHIPGEN` (R165). The core instance does not fix
it: the spec leaves `CHIPGEN` open. `xs64Sign` is one value of `Params.chipSign`. -/
def chipGenXs64Star (N : NumOps α) (seed : Word) (n : Nat) : List α := chipsOf N xs64Sign seed n

/-- The number of positions of `n` in which two chip sequences agree, less those in which they differ: the sum of the
products of their chips (R169). -/
def chipAgreement (sign : Word → Nat → Nat → Bool) (seed seed' : Word) (n : Nat) : Int :=
  ((List.range n).map fun j => if sign seed n j = sign seed' n j then (1 : Int) else -1).sum

/-- `ImpostorProperty(CHIPGEN)` (R169): the named property a claim may assume of a generator. -/
def ImpostorProperty (sign : Word → Nat → Nat → Bool) : Prop :=
  chipAgreement sign 0x8ED3F6AD685B959E 0x6D4A29A6DA82457C 20 ≤ 0

end Sys2Proof.Machine
end

