-- ==== Sys2Proof/Machine/Ops.lean ====
section
/-! DEFINITION. The shared operations of the commands: packing bits (00_scope.md R10), access to buffers (20_memory.md
R62 to R64), and taking a fault (60_exceptions.md R310) with its clearing by the host (R313) beside it. -/

namespace Sys2Proof.Machine

variable {α : Type}

/-- The causes of a fault (R301). -/
inductive Cause where
  | invalidArgumentScheme
  | invalidArgumentWindow
  | illegalCommand
  | capacity
  | indexRange
  | operand
  deriving DecidableEq, Repr

/-- The code of a cause in `CAUSE` (R301). -/
def Cause.code : Cause → Word
  | .invalidArgumentScheme => 1
  | .invalidArgumentWindow => 2
  | .illegalCommand => 3
  | .capacity => 4
  | .indexRange => 5
  | .operand => 6

/-- `raise <Cause>(info)`: the cause and the value it records, not yet saturated (R11, R301). -/
structure Raise where
  cause : Cause
  info : Nat
  deriving DecidableEq, Repr

/-- What a rule answers: what it computes (for a command, the state with its writes made), or the fault it raises
(30_encoding.md R93). -/
abbrev Rule : Type → Type := Except Raise

/-- `pack(s)`: the first element is the most significant bit (R10). -/
def pack (s : BitSeq) : Nat := s.foldl (fun acc bit => 2 * acc + bit.toNat) 0

/-- `unpack_n(v)`: the low `n` bits of `v`, bit `n-1` first (R10). -/
def unpack (n : Nat) (v : Word) : BitSeq := (List.range n).map fun i => v.getLsbD (n - 1 - i)

/-- The consecutive whole groups of `g` elements; a trailing part of a group is discarded (20_memory.md R68). -/
def groups (g : Nat) (s : List α) : List (List α) :=
  (List.range (s.length / g)).map fun k => (s.drop (k * g)).take g

/-- Each element `h` times in succession (43_spread_despread.md R183, 47_system_run.md R257). -/
def hold (h : Nat) (s : List α) : List α := s.flatMap fun a => List.replicate h a

/-- `trunc(s, n)`: the first `n` elements, never lengthening (40_fec_bitcoding.md R121). -/
def trunc (s : BitSeq) (n : Nat) : BitSeq := s.take n

/-- `MemRead(Z@k, n)` on the elements of a buffer (R62). -/
def memRead (z : List α) (k n : Nat) : Rule (List α) :=
  if k + n ≤ z.length then .ok ((z.drop k).take n) else .error ⟨.indexRange, k + n⟩

/-- `MemWrite(Z@k, n, v)` on the elements of a buffer, `n = len(v)`; the length is kept (R63). -/
def memWrite (z : List α) (k : Nat) (v : List α) : Rule (List α) :=
  if k + v.length ≤ z.length then .ok (z.take k ++ v ++ z.drop (k + v.length))
  else .error ⟨.indexRange, k + v.length⟩

/-- The bits of `B[i]`. -/
def readB (i : BBuf) (s : State.Of α) : BitSeq := s.b[i]

/-- The waveform in `W[i]`. -/
def readW (i : WBuf) (s : State.Of α) : Wave.Of α := s.w[i]

/-- `SetB(d, v)` (R64). -/
def setB (P : Params α) (d : BBuf) (v : BitSeq) (s : State.Of α) : Rule (State.Of α) :=
  if fitsB P v.length then .ok { s with b := s.b.set d v } else .error ⟨.capacity, v.length⟩

/-- `SetW(d, v, r)` (R64). -/
def setW (P : Params α) (d : WBuf) (v : List α) (r : α) (s : State.Of α) : Rule (State.Of α) :=
  if fitsW P v.length then .ok { s with w := s.w.set d ⟨v, r⟩ } else .error ⟨.capacity, v.length⟩

/-- `SetT(i, v, r)` (R64). -/
def setT (P : Params α) (i : Fin 6) (v : List α) (r : α) (s : State.Of α) : Rule (State.Of α) :=
  if fitsW P v.length then .ok { s with t := s.t.set i ⟨v, r⟩ } else .error ⟨.capacity, v.length⟩

/-- The capacity check of `SetW` made on a result's length before the result is built, for the results longer than
their sources (43_spread_despread.md R181, R183). -/
def checkW (P : Params α) (len : Nat) : Rule Unit := if fitsW P len then .ok () else .error ⟨.capacity, len⟩

/-- The form of the buffers that every operation keeps: no bit buffer is longer than `BCAP`, no sample buffer and no tap
longer than `WCAP` (10_state.md R40, R42, R44). -/
def Memory.wf (P : Params α) (s : State.Of α) : Bool :=
  s.b.toList.all (fun v => fitsB P v.length)
    && s.w.toList.all (fun v => fitsW P v.data.length)
    && s.t.toList.all (fun v => fitsW P v.data.length)

/-- A value recorded in `FINFO`: saturated at 2^64 - 1 (R301, R310). -/
def saturate (v : Nat) : Word := if v < 2 ^ 64 then BitVec.ofNat 64 v else BitVec.allOnes 64

/-- TAKING A FAULT: the command at `pc` raises `r` (R310). The fault record is written, the mode becomes `FAULT` (so
`STATUS.FAULT` reads 1 and `STATUS.EXEC` reads 0), and nothing else changes: `pc` keeps the faulting index. -/
def takeFault (r : Raise) (s : State.Of α) : State.Of α :=
  { s with cause := r.cause.code, fpc := s.pc.setWidth 64, finfo := saturate r.info, mode := .fault }

/-- CLEARING A FAULT, the only way out of `FAULT` but reset: the host's `HostFclr` (R313). `FPC` and `FINFO` keep their
values and no command is resumed. -/
def clearFault (s : State.Of α) : State.Of α := { s with cause := 0, mode := .idle }

/-- The end of a command (30_encoding.md R93): its writes are committed and `pc` advances by 1 mod 2^32, or the fault is
taken in the state before the command. -/
def finish (s : State.Of α) (r : Rule (State.Of α)) : Host.Outcome (State.Of α) Fault Refusal :=
  match r with
  | .ok s' => .next { s' with pc := s.pc + 1 }
  | .error e => .next (takeFault e s)

/-- What an illegal word does: `IllegalCommand(word)` (R93, R305). -/
def illegalWord (w : CmdWord) (s : State.Of α) : Host.Outcome (State.Of α) Fault Refusal :=
  finish s (.error ⟨.illegalCommand, w.toNat⟩)

/-- The word the sequencer executes next, `P[pc]`, or why there is none (10_state.md R24, R93). -/
def fetch (s : State.Of α) : Except Fault CmdWord :=
  match s.mode with
  | .idle => .error .sequencerIdle
  | .fault => .error .sequencerFaulted
  | .exec =>
    match s.stream[s.pc.toNat]? with
    | some w => .ok w
    | none => .error .streamEnded

/-- A stream with `w` at position `n`; positions before it that the stream lacks are filled with the illegal word 0. -/
def placeWord : Nat → CmdWord → List CmdWord → List CmdWord
  | 0, w, [] => [w]
  | 0, w, _ :: rest => w :: rest
  | n + 1, w, [] => 0 :: placeWord n w []
  | n + 1, w, v :: rest => v :: placeWord n w rest

end Sys2Proof.Machine
end

