-- ==== Sys2Proof/Machine/Carrier.lean ====
section
/-! DEFINITION. The carrier modulator and the coherent demodulator (44_carrier.md). -/

namespace Sys2Proof.Machine

variable {α : Type}

/-- Sample `i` of the carrier: `cos(((2.0 * pi) * fc) * t)`, `t = i / rate` (R200). -/
def carrierAt (N : NumOps α) (fc rate : α) (i : Nat) : α :=
  N.cos (N.mul (N.mul (N.mul (N.ofNat 2) N.pi) fc) (N.div (N.ofNat i) rate))

/-- `carrier(fc, rate, n)` (R200). -/
def carrier (N : NumOps α) (fc rate : α) (n : Nat) : List α :=
  (List.range n).map (carrierAt N fc rate)

/-- The product of a waveform with the carrier of its length (R201, R202). -/
def carrierMul (N : NumOps α) (fc rate : α) (v : List α) : List α :=
  List.zipWith N.mul v (carrier N fc rate v.length)

/-- The one transition of `MODUL` and `DEMOD` (R202: "The transition is the same as `MODUL`'s"). -/
def mixCarrier (P : Params α) (wd ws : WBuf) (s : State.Of α) : Rule (State.Of α) :=
  let v := readW ws s
  if P.num.gt0 v.rate then setW P wd (carrierMul P.num s.fc v.rate v.data) v.rate s
  else .error ⟨.operand, 0⟩

/-- `MODUL Wd, Ws` (R201). -/
def ruleModul (P : Params α) (wd ws : WBuf) (s : State.Of α) : Rule (State.Of α) := mixCarrier P wd ws s

/-- `MODUL` as a command. -/
def execModul (wd ws : WBuf) (s : State) : Host.Outcome State Fault Refusal := finish s (ruleModul machine wd ws s)

/-- `DEMOD Wd, Ws` (R202). -/
def ruleDemod (P : Params α) (wd ws : WBuf) (s : State.Of α) : Rule (State.Of α) := mixCarrier P wd ws s

/-- `DEMOD` as a command. -/
def execDemod (wd ws : WBuf) (s : State) : Host.Outcome State Fault Refusal := finish s (ruleDemod machine wd ws s)

end Sys2Proof.Machine
end

