-- ==== Sys2Proof/Machine/Hamming.lean ====
section
/-! DEFINITION. The Hamming(7,4) code: encoder, syndrome, single-error correction and decoder (41_hamming74.md). -/

namespace Sys2Proof.Machine

variable {α : Type}

/-- The codeword of a block: `(p1,p2,d1,p3,d2,d3,d4)` (R140). -/
def enc4 (d1 d2 d3 d4 : Bool) : BitSeq :=
  [d1 ^^ d2 ^^ d4, d1 ^^ d3 ^^ d4, d1, d2 ^^ d3 ^^ d4, d2, d3, d4]

/-- The codeword of a four-element block; a block is always given whole. -/
def encBlock (d : BitSeq) : BitSeq :=
  match d with
  | [d1, d2, d3, d4] => enc4 d1 d2 d3 d4
  | _ => []

/-- The syndrome `s1 + 2*s2 + 4*s3` of a seven-element block, 0 to 7 (R142). -/
def syn7 (c : BitSeq) : Nat :=
  match c with
  | [c1, c2, c3, c4, c5, c6, c7] =>
    (c1 ^^ c3 ^^ c5 ^^ c7).toNat + 2 * (c2 ^^ c3 ^^ c6 ^^ c7).toNat + 4 * (c4 ^^ c5 ^^ c6 ^^ c7).toNat
  | _ => 0

/-- The correction: a non-zero syndrome inverts the element at position syndrome - 1 (R143). -/
def cor7 (c : BitSeq) : BitSeq := if syn7 c = 0 then c else c.modify (syn7 c - 1) fun bit => !bit

/-- The data bits of a block, positions 2, 4, 5, 6 (R144). -/
def dat7 (c : BitSeq) : BitSeq :=
  match c with
  | [_, _, d1, _, d2, d3, d4] => [d1, d2, d3, d4]
  | _ => []

/-- One block decoded: corrected, then its data bits (R144). -/
def dec7 (c : BitSeq) : BitSeq := dat7 (cor7 c)

/-- The zero padding up to a multiple of 4: 0 to 3 bits (R150). -/
def hamPad (n : Nat) : Nat := (4 - n % 4) % 4

/-- The code bits of a payload, padded at the tail (R150). -/
def hamEncode (s : BitSeq) : BitSeq :=
  (groups 4 (s ++ List.replicate (hamPad s.length) false)).flatMap encBlock

/-- The decoded data bits before the pad is dropped; a trailing partial block is discarded (R151, R153). -/
def hamBlocks (r : BitSeq) : BitSeq := (groups 7 r).flatMap dec7

/-- The decoded bits: the pad dropped from the tail, all bits where the pad is longer than they are (R152), then the
truncation (R151). -/
def hamDecode (r : BitSeq) (padlen payload : Nat) : BitSeq :=
  let o := hamBlocks r
  trunc (o.take (o.length - padlen)) payload

/-- `HENC4 xd, xs` (R146): the block in bits 3:0, the codeword in bits 6:0 (R145). -/
def ruleHenc4 (xd xs : XReg) (s : State.Of α) : Rule (State.Of α) :=
  .ok (writeXNat xd (pack (encBlock (unpack 4 (readX xs s)))) s)

/-- `HENC4` as a command. -/
def execHenc4 (xd xs : XReg) (s : State) : Host.Outcome State Fault Refusal := finish s (ruleHenc4 xd xs s)

/-- `HSYN7 xd, xs` (R147). -/
def ruleHsyn7 (xd xs : XReg) (s : State.Of α) : Rule (State.Of α) := .ok (writeXNat xd (syn7 (unpack 7 (readX xs s))) s)

/-- `HSYN7` as a command. -/
def execHsyn7 (xd xs : XReg) (s : State) : Host.Outcome State Fault Refusal := finish s (ruleHsyn7 xd xs s)

/-- `HCOR7 xd, xs` (R148). -/
def ruleHcor7 (xd xs : XReg) (s : State.Of α) : Rule (State.Of α) :=
  .ok (writeXNat xd (pack (cor7 (unpack 7 (readX xs s)))) s)

/-- `HCOR7` as a command. -/
def execHcor7 (xd xs : XReg) (s : State) : Host.Outcome State Fault Refusal := finish s (ruleHcor7 xd xs s)

/-- `HDEC7 xd, xs` (R149). -/
def ruleHdec7 (xd xs : XReg) (s : State.Of α) : Rule (State.Of α) :=
  .ok (writeXNat xd (pack (dec7 (unpack 7 (readX xs s)))) s)

/-- `HDEC7` as a command. -/
def execHdec7 (xd xs : XReg) (s : State) : Host.Outcome State Fault Refusal := finish s (ruleHdec7 xd xs s)

/-- `HAMENC Bd, Bs` (R150): `PAYLOAD` and `PADLEN` are written, `REPEAT` is not (10_state.md R34). -/
def ruleHamenc (P : Params α) (bd bs : BBuf) (s : State.Of α) : Rule (State.Of α) := do
  let v := readB bs s
  let s' ← setB P bd (hamEncode v) s
  return { s' with payload := BitVec.ofNat 64 v.length, padlen := BitVec.ofNat 64 (hamPad v.length) }

/-- `HAMENC` as a command. -/
def execHamenc (bd bs : BBuf) (s : State) : Host.Outcome State Fault Refusal := finish s (ruleHamenc machine bd bs s)

/-- `HAMDEC Bd, Bs` (R151): reads `PADLEN` and `PAYLOAD`. -/
def ruleHamdec (P : Params α) (bd bs : BBuf) (s : State.Of α) : Rule (State.Of α) :=
  setB P bd (hamDecode (readB bs s) s.padlen.toNat s.payload.toNat) s

/-- `HAMDEC` as a command. -/
def execHamdec (bd bs : BBuf) (s : State) : Host.Outcome State Fault Refusal := finish s (ruleHamdec machine bd bs s)

end Sys2Proof.Machine
end

