-- ==== Sys2Proof/Machine/Fec.lean ====
section
/-! DEFINITION. The NRZ, Manchester and Repeat3 codings and the dispatch on the scheme (40_fec_bitcoding.md). An encoder
writes `PAYLOAD` and its own scheme's metadata register only (10_state.md R34). -/

namespace Sys2Proof.Machine

variable {α : Type}

/-- Manchester coding: 1 to (1,0), 0 to (0,1) (R124). -/
def manEncode (s : BitSeq) : BitSeq := s.flatMap fun bit => [bit, !bit]

/-- One received pair: 1 when first > second (R125). -/
def manPair (p : BitSeq) : Bool :=
  match p with
  | [first, second] => first && !second
  | _ => false

/-- Manchester decoding before truncation (R125). -/
def manDecode (r : BitSeq) : BitSeq := (groups 2 r).map manPair

/-- Repeat3 coding: each bit three times (R126). -/
def repEncode (s : BitSeq) : BitSeq := hold 3 s

/-- The vote of one group of `g` bits: 1 when the ones reach `ceil(g/2)`, so a tie gives 1 (R127). -/
def majority (g : Nat) (p : BitSeq) : Bool := decide ((g + 1) / 2 ≤ p.count true)

/-- Repeat decoding in groups of `g` before truncation (R127). -/
def repDecode (g : Nat) (r : BitSeq) : BitSeq := (groups g r).map (majority g)

/-- `NRZENC Bd, Bs` (R122). -/
def ruleNrzenc (P : Params α) (bd bs : BBuf) (s : State.Of α) : Rule (State.Of α) := do
  let v := readB bs s
  let s' ← setB P bd v s
  return { s' with payload := BitVec.ofNat 64 v.length }

/-- `NRZENC` as a command. -/
def execNrzenc (bd bs : BBuf) (s : State) : Host.Outcome State Fault Refusal := finish s (ruleNrzenc machine bd bs s)

/-- `NRZDEC Bd, Bs` (R123). -/
def ruleNrzdec (P : Params α) (bd bs : BBuf) (s : State.Of α) : Rule (State.Of α) :=
  setB P bd (trunc (readB bs s) s.payload.toNat) s

/-- `NRZDEC` as a command. -/
def execNrzdec (bd bs : BBuf) (s : State) : Host.Outcome State Fault Refusal := finish s (ruleNrzdec machine bd bs s)

/-- `MANENC Bd, Bs` (R124). -/
def ruleManenc (P : Params α) (bd bs : BBuf) (s : State.Of α) : Rule (State.Of α) := do
  let v := readB bs s
  let s' ← setB P bd (manEncode v) s
  return { s' with payload := BitVec.ofNat 64 v.length }

/-- `MANENC` as a command. -/
def execManenc (bd bs : BBuf) (s : State) : Host.Outcome State Fault Refusal := finish s (ruleManenc machine bd bs s)

/-- `MANDEC Bd, Bs` (R125). -/
def ruleMandec (P : Params α) (bd bs : BBuf) (s : State.Of α) : Rule (State.Of α) :=
  setB P bd (trunc (manDecode (readB bs s)) s.payload.toNat) s

/-- `MANDEC` as a command. -/
def execMandec (bd bs : BBuf) (s : State) : Host.Outcome State Fault Refusal := finish s (ruleMandec machine bd bs s)

/-- `REPENC Bd, Bs` (R126). -/
def ruleRepenc (P : Params α) (bd bs : BBuf) (s : State.Of α) : Rule (State.Of α) := do
  let v := readB bs s
  let s' ← setB P bd (repEncode v) s
  return { s' with payload := BitVec.ofNat 64 v.length, repeatFactor := 3 }

/-- `REPENC` as a command. -/
def execRepenc (bd bs : BBuf) (s : State) : Host.Outcome State Fault Refusal := finish s (ruleRepenc machine bd bs s)

/-- `REPDEC Bd, Bs` (R127): the group size is `REPEAT`, which must not be 0. -/
def ruleRepdec (P : Params α) (bd bs : BBuf) (s : State.Of α) : Rule (State.Of α) :=
  if s.repeatFactor = 0 then .error ⟨.operand, 0⟩
  else setB P bd (trunc (repDecode s.repeatFactor.toNat (readB bs s)) s.payload.toNat) s

/-- `REPDEC` as a command. -/
def execRepdec (bd bs : BBuf) (s : State) : Host.Outcome State Fault Refusal := finish s (ruleRepdec machine bd bs s)

/-- `FECENC Bd, Bs` (R128): all 64 bits of `SCHEME` are compared, before any buffer is read. -/
def ruleFecenc (P : Params α) (bd bs : BBuf) (s : State.Of α) : Rule (State.Of α) :=
  match s.scheme.toNat with
  | 0 => ruleNrzenc P bd bs s
  | 1 => ruleManenc P bd bs s
  | 2 => ruleRepenc P bd bs s
  | 3 => ruleHamenc P bd bs s
  | v => .error ⟨.invalidArgumentScheme, v⟩

/-- `FECENC` as a command. -/
def execFecenc (bd bs : BBuf) (s : State) : Host.Outcome State Fault Refusal := finish s (ruleFecenc machine bd bs s)

/-- `FECDEC Bd, Bs` (R129). -/
def ruleFecdec (P : Params α) (bd bs : BBuf) (s : State.Of α) : Rule (State.Of α) :=
  match s.scheme.toNat with
  | 0 => ruleNrzdec P bd bs s
  | 1 => ruleMandec P bd bs s
  | 2 => ruleRepdec P bd bs s
  | 3 => ruleHamdec P bd bs s
  | v => .error ⟨.invalidArgumentScheme, v⟩

/-- `FECDEC` as a command. -/
def execFecdec (bd bs : BBuf) (s : State) : Host.Outcome State Fault Refusal := finish s (ruleFecdec machine bd bs s)

end Sys2Proof.Machine
end

