-- ==== Sys2Proof/Machine/Spread.lean ====
section
/-! DEFINITION. The spreader, the oversampler, the windowed mean, the despreading correlator and the hard decision
(43_spread_despread.md). The sample functions are written over any `Num` (00_scope.md R12). -/

namespace Sys2Proof.Machine

variable {α : Type}

/-- The level of a bit: `+1.0` for 1, `-1.0` for 0 (R182). -/
def lvl (N : NumOps α) (bit : Bool) : α := if bit then N.one else N.negOne

/-- The spread chips of a bit sequence by a chip sequence of `n` chips; `n` zeros for no bits (R181). -/
def spreadBits (N : NumOps α) (n : Nat) (s : BitSeq) (p : List α) : List α :=
  if s = [] then List.replicate n N.zero else s.flatMap fun bit => p.map fun chip => N.mul (lvl N bit) chip

/-- The length of that result (R181, R190). -/
def spreadLength (n : Nat) (s : BitSeq) : Nat := if s = [] then n else s.length * n

/-- The sum of a sequence in index order, starting from `0.0` (R184, 45_noise.md R218). -/
def sumOf (N : NumOps α) (v : List α) : α := v.foldl N.add N.zero

/-- The mean of one window of `w` samples (R184). -/
def meanOf (N : NumOps α) (w : Nat) (v : List α) : α := N.div (sumOf N v) (N.ofNat w)

/-- `chunkMean(v, w)` for a positive window: a trailing partial window is dropped (R184). -/
def chunkMean (N : NumOps α) (v : List α) (w : Nat) : List α := (groups w v).map (meanOf N w)

/-- The product of a sequence with a chip sequence of `n` chips tiled to its length (R187). -/
def tileMul (N : NumOps α) (a q : List α) (n : Nat) : List α :=
  a.zipIdx.map fun e => N.mul e.1 (q.getD (e.2 % n) N.zero)

/-- The soft metrics of received samples: mean over `f`, product with the tiled chips, mean over `n` (R187). -/
def despread (N : NumOps α) (r q : List α) (f n : Nat) : List α :=
  chunkMean N (tileMul N (chunkMean N r f) q n) n

/-- The hard decisions: 1 for a metric above `0.0`, else 0 (R188). -/
def sliceBits (N : NumOps α) (m : List α) : BitSeq := m.map N.gt0

/-- `SPREAD Wd, Bs, Wp` (R181). -/
def ruleSpread (P : Params α) (wd : WBuf) (bs : BBuf) (wp : WBuf) (s : State.Of α) : Rule (State.Of α) := do
  let v := readB bs s
  let p := (readW wp s).data
  let n := s.cpb.toNat
  if p.length ≠ n then throw ⟨.operand, p.length⟩
  checkW P (spreadLength n v)
  setW P wd (spreadBits P.num n v p) s.chiprate s

/-- `SPREAD` as a command. -/
def execSpread (wd : WBuf) (bs : BBuf) (wp : WBuf) (s : State) : Host.Outcome State Fault Refusal :=
  finish s (ruleSpread machine wd bs wp s)

/-- `OVSAMP Wd, Ws` (R183). -/
def ruleOvsamp (P : Params α) (wd ws : WBuf) (s : State.Of α) : Rule (State.Of α) := do
  let v := readW ws s
  let f := s.ovs.toNat
  checkW P (v.data.length * f)
  setW P wd (hold f v.data) (P.num.mul v.rate (P.num.ofNat f)) s

/-- `OVSAMP` as a command. -/
def execOvsamp (wd ws : WBuf) (s : State) : Host.Outcome State Fault Refusal := finish s (ruleOvsamp machine wd ws s)

/-- `CHMEAN Wd, Ws, xw` (R186): the window is signed, the recorded value its 64-bit pattern (R301). -/
def ruleChmean (P : Params α) (wd ws : WBuf) (xw : XReg) (s : State.Of α) : Rule (State.Of α) :=
  let window := readX xw s
  let v := readW ws s
  if window.toInt ≤ 0 then .error ⟨.invalidArgumentWindow, window.toNat⟩
  else setW P wd (chunkMean P.num v.data window.toNat) (P.num.div v.rate (P.num.ofNat window.toNat)) s

/-- `CHMEAN` as a command. -/
def execChmean (wd ws : WBuf) (xw : XReg) (s : State) : Host.Outcome State Fault Refusal :=
  finish s (ruleChmean machine wd ws xw s)

/-- `DESPRD Wd, Ws, Wp` (R187): the three checks in the order shown there. -/
def ruleDesprd (P : Params α) (wd ws wp : WBuf) (s : State.Of α) : Rule (State.Of α) :=
  let r := readW ws s
  let q := (readW wp s).data
  let f := s.ovs.toNat
  let n := s.cpb.toNat
  if f = 0 then .error ⟨.invalidArgumentWindow, 0⟩
  else if q.length ≠ n then .error ⟨.operand, q.length⟩
  else if n = 0 then .error ⟨.invalidArgumentWindow, 0⟩
  else setW P wd (despread P.num r.data q f n) (P.num.div r.rate (P.num.mul (P.num.ofNat f) (P.num.ofNat n))) s

/-- `DESPRD` as a command. -/
def execDesprd (wd ws wp : WBuf) (s : State) : Host.Outcome State Fault Refusal :=
  finish s (ruleDesprd machine wd ws wp s)

/-- `SLICE Bd, Ws` (R188). -/
def ruleSlice (P : Params α) (bd : BBuf) (ws : WBuf) (s : State.Of α) : Rule (State.Of α) :=
  setB P bd (sliceBits P.num (readW ws s).data) s

/-- `SLICE` as a command. -/
def execSlice (bd : BBuf) (ws : WBuf) (s : State) : Host.Outcome State Fault Refusal :=
  finish s (ruleSlice machine bd ws s)

end Sys2Proof.Machine
end

