-- ==== Sys2Proof/Machine/Noise.lean ====
section
/-! DEFINITION. The noise generator: white noise, band-limited noise by spectral shaping, and their dispatch
(45_noise.md). -/

namespace Sys2Proof.Machine

variable {α : Type}

/-- `gauss(n)`: `n` fresh draws of the noise source when `NSEEDEN = 0`, which the source then has supplied (R211);
`GAUSSGEN(NSEED, n)` when `NSEEDEN = 1`, and the source is bypassed (R212). -/
def gauss (P : Params α) (n : Nat) (s : State.Of α) : List α × State.Of α :=
  if s.nseeden then (gaussGenOf P s.nseed n, s) else (drawsOf P s.draws n, { s with draws := s.draws + n })

/-- White noise of power `pow` added: `v[i] + sqrt(pow) * g[i]` (R213). -/
def whiteNoise (N : NumOps α) (pow : α) (v g : List α) : List α :=
  List.zipWith (fun x y => N.add x (N.mul (N.sqrt pow) y)) v g

/-- The cut-off frequency `min(bw / 2.0, fs / 2.0)` (R215). -/
def cutOff (N : NumOps α) (fs bw : α) : α := N.min (N.div bw (N.ofNat 2)) (N.div fs (N.ofNat 2))

/-- The frequency bin `k` of `n` stands for (R215). -/
def binFreq (N : NumOps α) (n : Nat) (fs : α) (k : Nat) : α :=
  if 2 * k < n then N.div (N.mul (N.ofNat k) fs) (N.ofNat n)
  else N.mul N.negOne (N.div (N.mul (N.ofNat (n - k)) fs) (N.ofNat n))

/-- Whether bin `k` is kept: not when its frequency is above the cut-off (R215). -/
def keepBin (N : NumOps α) (n : Nat) (fs bw : α) (k : Nat) : Bool :=
  !N.absGt (binFreq N n fs k) (cutOff N fs bw)

/-- The distance of two indices. -/
def indexDistance (t u : Nat) : Nat := if t ≤ u then u - t else t - u

/-- One term of the shaping sum (R214). -/
def shapeTerm (N : NumOps α) (n t k : Nat) (u : Nat) (gu : α) : α :=
  N.mul gu (N.cos (N.div (N.mul (N.mul (N.ofNat 2) N.pi) (N.ofNat (k * indexDistance t u % n))) (N.ofNat n)))

/-- The terms of the shaping sum for sample `t`, bins in index order and in each the samples in index order (R214). -/
def shapeTerms (N : NumOps α) (g : List α) (keep : Nat → Bool) (t : Nat) : List α :=
  ((List.range g.length).filter keep).flatMap fun k =>
    g.zipIdx.map fun e => shapeTerm N g.length t k e.2 e.1

/-- `shape(g, keep)`: the inverse transform of the masked spectrum (R214). The order of the additions is the model's,
log 10. -/
def shape (N : NumOps α) (g : List α) (keep : Nat → Bool) : List α :=
  (List.range g.length).map fun t =>
    N.mul (N.div N.one (N.ofNat g.length)) (sumOf N (shapeTerms N g keep t))

/-- The empirical standard deviation, divisor `n`, mean removed (R218). -/
def stdOf (N : NumOps α) (y : List α) : α :=
  let n := N.ofNat y.length
  let mu := N.div (sumOf N y) n
  N.sqrt (N.div (sumOf N (y.map fun a => N.mul (N.sub a mu) (N.sub a mu))) n)

/-- The noise term of the band-limited mode: shaped, then scaled to the power `pow`; all zero when the deviation is
zero (R216). -/
def bandNoise (N : NumOps α) (fs pow bw : α) (g : List α) : List α :=
  let y := shape N g (keepBin N g.length fs bw)
  let sd := stdOf N y
  if N.eq0 sd then List.replicate g.length N.zero
  else y.map fun a => N.mul (N.div a sd) (N.sqrt pow)

/-- `NOISEW Wd, Ws` (R213): draws are taken only when noise is added. -/
def ruleNoisew (P : Params α) (wd ws : WBuf) (s : State.Of α) : Rule (State.Of α) :=
  let v := readW ws s
  if P.num.gt0 s.npow ∧ v.data ≠ [] then
    let g := gauss P v.data.length s
    setW P wd (whiteNoise P.num s.npow v.data g.1) v.rate g.2
  else setW P wd v.data v.rate s

/-- `NOISEW` as a command. -/
def execNoisew (wd ws : WBuf) (s : State) : Host.Outcome State Fault Refusal := finish s (ruleNoisew machine wd ws s)

/-- `NOISEB Wd, Ws` (R216). -/
def ruleNoiseb (P : Params α) (wd ws : WBuf) (s : State.Of α) : Rule (State.Of α) :=
  let v := readW ws s
  if P.num.gt0 s.npow ∧ P.num.gt0 s.nbw then
    if P.num.gt0 v.rate then
      if v.data = [] then setW P wd v.data v.rate s
      else
        let g := gauss P v.data.length s
        setW P wd (List.zipWith P.num.add v.data (bandNoise P.num v.rate s.npow s.nbw g.1)) v.rate g.2
    else .error ⟨.operand, 0⟩
  else setW P wd v.data v.rate s

/-- `NOISEB` as a command. -/
def execNoiseb (wd ws : WBuf) (s : State) : Host.Outcome State Fault Refusal := finish s (ruleNoiseb machine wd ws s)

/-- `ADDNOISE Wd, Ws` (R217): all 64 bits of `NMODE` are compared, before any buffer is read. -/
def ruleAddnoise (P : Params α) (wd ws : WBuf) (s : State.Of α) : Rule (State.Of α) :=
  match s.nmode.toNat with
  | 0 => ruleNoisew P wd ws s
  | 1 => ruleNoiseb P wd ws s
  | v => .error ⟨.operand, v⟩

/-- `ADDNOISE` as a command. -/
def execAddnoise (wd ws : WBuf) (s : State) : Host.Outcome State Fault Refusal :=
  finish s (ruleAddnoise machine wd ws s)

end Sys2Proof.Machine
end

