-- ==== Sys2Proof/Machine/Sha256.lean ====
section
/-! DEFINITION. SHA-256 as the spec transcribes it (42_prn.md R167, from general knowledge, 93_implementation_defined.md
section 2, row 1), and the seed derived from it (R161). -/

namespace Sys2Proof.Machine

/-- The lines of the table `K` of R167, each line's eight constants read as one numeral. -/
def shaTable : List Nat := [
  0x428a2f98_71374491_b5c0fbcf_e9b5dba5_3956c25b_59f111f1_923f82a4_ab1c5ed5,
  0xd807aa98_12835b01_243185be_550c7dc3_72be5d74_80deb1fe_9bdc06a7_c19bf174,
  0xe49b69c1_efbe4786_0fc19dc6_240ca1cc_2de92c6f_4a7484aa_5cb0a9dc_76f988da,
  0x983e5152_a831c66d_b00327c8_bf597fc7_c6e00bf3_d5a79147_06ca6351_14292967,
  0x27b70a85_2e1b2138_4d2c6dfc_53380d13_650a7354_766a0abb_81c2c92e_92722c85,
  0xa2bfe8a1_a81a664b_c24b8b70_c76c51a3_d192e819_d6990624_f40e3585_106aa070,
  0x19a4c116_1e376c08_2748774c_34b0bcb5_391c0cb3_4ed8aa4a_5b9cca4f_682e6ff3,
  0x748f82ee_78a5636f_84c87814_8cc70208_90befffa_a4506ceb_bef9a3f7_c67178f2]

/-- The eight 32-bit words of a line, the leftmost the most significant. -/
def lineWords (line : Nat) : List (BitVec 32) := (List.range 8).map fun i => BitVec.ofNat 32 (line / 2 ^ (32 * (7 - i)))

/-- The round constants `K[0..63]` in order (R167). -/
def shaConstants : List (BitVec 32) := shaTable.flatMap lineWords

/-- The eight working words `a` to `h`, and the hash state `H` (R167). -/
structure ShaState where
  a : BitVec 32
  b : BitVec 32
  c : BitVec 32
  d : BitVec 32
  e : BitVec 32
  f : BitVec 32
  g : BitVec 32
  h : BitVec 32
  deriving DecidableEq, Repr

/-- A hash state from its eight words in order. -/
def ShaState.ofWords (v : List (BitVec 32)) : ShaState :=
  ⟨v.getD 0 0, v.getD 1 0, v.getD 2 0, v.getD 3 0, v.getD 4 0, v.getD 5 0, v.getD 6 0, v.getD 7 0⟩

/-- The initial hash state, the line `init` of R167. -/
def shaInit : ShaState :=
  .ofWords (lineWords 0x6a09e667_bb67ae85_3c6ef372_a54ff53a_510e527f_9b05688c_1f83d9ab_5be0cd19)

/-- The bytes of a natural number in `n` bytes, most significant first. -/
def bigEndian : Nat → Nat → List (BitVec 8)
  | 0, _ => []
  | n + 1, v => BitVec.ofNat 8 (v / 256 ^ n) :: bigEndian n v

/-- The number whose bytes are given, most significant first. -/
def ofBigEndian (m : List (BitVec 8)) : Nat := m.foldl (fun acc byte => 256 * acc + byte.toNat) 0

/-- The padded message: 0x80, zero bytes until the length is 56 mod 64, and the bit length in 8 bytes (R167). -/
def shaPad (m : List (BitVec 8)) : List (BitVec 8) :=
  m ++ [0x80] ++ List.replicate ((119 - m.length % 64) % 64) 0 ++ bigEndian 8 (8 * m.length)

/-- The consecutive pieces of `g` elements, at most `n` of them. -/
def pieces {α : Type} (n g : Nat) (s : List α) : List (List α) :=
  (List.range n).map fun k => (s.drop (k * g)).take g

/-- The next message schedule word, from the latest words, the newest first (R167). -/
def shaNext (w : List (BitVec 32)) : BitVec 32 :=
  let w2 := w.getD 1 0
  let w15 := w.getD 14 0
  w.getD 15 0 + (w15.rotateRight 7 ^^^ w15.rotateRight 18 ^^^ w15 >>> 3)
    + w.getD 6 0 + (w2.rotateRight 17 ^^^ w2.rotateRight 19 ^^^ w2 >>> 10)

/-- The message schedule extended by `n` words, the newest first (R167). -/
def shaExtend : Nat → List (BitVec 32) → List (BitVec 32)
  | 0, w => w
  | n + 1, w => shaExtend n (shaNext w :: w)

/-- The 64 words of the message schedule of a 64-byte block, in order (R167). -/
def shaSchedule (block : List (BitVec 8)) : List (BitVec 32) :=
  (shaExtend 48 ((pieces 16 4 block).map fun p => BitVec.ofNat 32 (ofBigEndian p)).reverse).reverse

/-- One round with the constant and the schedule word of its index (R167). -/
def shaRound (v : ShaState) (k w : BitVec 32) : ShaState :=
  let t1 := v.h + (v.e.rotateRight 6 ^^^ v.e.rotateRight 11 ^^^ v.e.rotateRight 25)
    + ((v.e &&& v.f) ^^^ (~~~v.e &&& v.g)) + k + w
  let t2 := (v.a.rotateRight 2 ^^^ v.a.rotateRight 13 ^^^ v.a.rotateRight 22)
    + ((v.a &&& v.b) ^^^ (v.a &&& v.c) ^^^ (v.b &&& v.c))
  ⟨t1 + t2, v.a, v.b, v.c, v.d + t1, v.e, v.f, v.g⟩

/-- The rounds over a list of constants and schedule words. -/
def shaRounds : List (BitVec 32) → List (BitVec 32) → ShaState → ShaState
  | k :: ks, w :: ws, v => shaRounds ks ws (shaRound v k w)
  | [], _, v => v
  | _ :: _, [], v => v

/-- The compression of one block into the hash state (R167). -/
def shaBlock (v : ShaState) (block : List (BitVec 8)) : ShaState :=
  let u := shaRounds shaConstants (shaSchedule block) v
  ⟨v.a + u.a, v.b + u.b, v.c + u.c, v.d + u.d, v.e + u.e, v.f + u.f, v.g + u.g, v.h + u.h⟩

/-- The final hash state of a message. -/
def shaHash (m : List (BitVec 8)) : ShaState :=
  let p := shaPad m
  (pieces (p.length / 64) 64 p).foldl shaBlock shaInit

/-- `SHA256(m)`: the 32 digest bytes (R167). -/
def sha256 (m : List (BitVec 8)) : List (BitVec 8) :=
  let v := shaHash m
  [v.a, v.b, v.c, v.d, v.e, v.f, v.g, v.h].flatMap fun w => bigEndian 4 w.toNat

/-- `deriveSeed`: the first 8 digest bytes as a big-endian number (R161, 20_memory.md R66). -/
def deriveSeed (m : List (BitVec 8)) : Word := BitVec.ofNat 64 (ofBigEndian ((sha256 m).take 8))

end Sys2Proof.Machine
end

