-- ==== Sys2Proof/Machine/Prng.lean ====
section
/-! DEFINITION. Seed derivation and chip generation (42_prn.md). -/

namespace Sys2Proof.Machine

variable {α : Type}

/-- The bytes of a bit buffer, the first bit of each the most significant (R162, R168, 20_memory.md R65). -/
def bitsToBytes (s : BitSeq) : List (BitVec 8) := (groups 8 s).map fun p => BitVec.ofNat 8 (pack p)

/-- `DSEED xd, Bs` (R162). -/
def ruleDseed (xd : XReg) (bs : BBuf) (s : State.Of α) : Rule (State.Of α) :=
  let v := readB bs s
  if v.length % 8 ≠ 0 then .error ⟨.operand, v.length⟩
  else .ok (writeX xd (deriveSeed (bitsToBytes v)) s)

/-- `DSEED` as a command. -/
def execDseed (xd : XReg) (bs : BBuf) (s : State) : Host.Outcome State Fault Refusal :=
  finish s (ruleDseed xd bs s)

/-- The chips of a seed into a sample buffer, `CPB` of them, at the chip rate: `PRNGEN` and steps 2a and 2b of `RUN`
(R164, 47_system_run.md R252). -/
def genChips (P : Params α) (wd : WBuf) (seed : Word) (s : State.Of α) : Rule (State.Of α) := do
  checkW P s.cpb.toNat
  setW P wd (chipGenOf P seed s.cpb.toNat) s.chiprate s

/-- `PRNGEN Wd, xs` (R164). -/
def rulePrngen (P : Params α) (wd : WBuf) (xs : XReg) (s : State.Of α) : Rule (State.Of α) :=
  genChips P wd (readX xs s) s

/-- `PRNGEN` as a command. -/
def execPrngen (wd : WBuf) (xs : XReg) (s : State) : Host.Outcome State Fault Refusal :=
  finish s (rulePrngen machine wd xs s)

end Sys2Proof.Machine
end

