-- ==== Sys2Proof/WellFormed.lean ====
section
/-! DEFINITION. Which commands are legal as written. The operand numbers are legal by their types; what is left of
30_encoding.md R97 to R100 is the check by value of the control register number (R100). A command that fails it is
still decoded and still executed: its execution raises `IllegalCommand` (R233, R234). -/

namespace Sys2Proof

/-- The numbers of the integer control registers (10_state.md R30), all of which `CSRR` may read (R233). -/
def csrReadNumbers : List Nat :=
  [0x000, 0x001, 0x002, 0x003, 0x004,
   0x010, 0x011, 0x012, 0x013, 0x014, 0x015, 0x016, 0x017, 0x018, 0x019, 0x01A]

/-- The numbers of the integer control registers whose command access is "read, write" (R30, R234). -/
def csrWriteNumbers : List Nat :=
  [0x010, 0x011, 0x012, 0x013, 0x014, 0x015, 0x016, 0x017, 0x018, 0x019, 0x01A]

/-- The checks by value of R100: the register number of `CSRR` and of `CSRW`. -/
def Instr.wf : Instr → Bool
  | .csrr _ csr => csrReadNumbers.contains csr.toNat
  | .csrw _ csr => csrWriteNumbers.contains csr.toNat
  | .nop => true
  | .halt => true
  | .run => true
  | .li _ _ => true
  | .lih _ _ => true
  | .bclr _ => true
  | .blen _ _ => true
  | .bget _ _ _ _ => true
  | .bpush _ _ _ => true
  | .bflip _ _ => true
  | .wlen _ _ => true
  | .bcmp _ _ _ => true
  | .nrzenc _ _ => true
  | .nrzdec _ _ => true
  | .manenc _ _ => true
  | .mandec _ _ => true
  | .repenc _ _ => true
  | .repdec _ _ => true
  | .fecenc _ _ => true
  | .fecdec _ _ => true
  | .henc4 _ _ => true
  | .hsyn7 _ _ => true
  | .hcor7 _ _ => true
  | .hdec7 _ _ => true
  | .hamenc _ _ => true
  | .hamdec _ _ => true
  | .dseed _ _ => true
  | .prngen _ _ => true
  | .spread _ _ _ => true
  | .ovsamp _ _ => true
  | .chmean _ _ _ => true
  | .desprd _ _ _ => true
  | .slice _ _ => true
  | .modul _ _ => true
  | .demod _ _ => true
  | .noisew _ _ => true
  | .noiseb _ _ => true
  | .addnoise _ _ => true

end Sys2Proof
end

