-- ==== Sys2Proof/Decode.lean ====
section
/-! DEFINITION. The command word: its fields (30_encoding.md R91), the decoder, total on every 32-bit word and
refusing by name (R95 to R99), and after it the encoder, written from the same table. -/

namespace Sys2Proof

/-- Why a word is no command (30_encoding.md R97 to R99). Executing such a word raises `IllegalCommand` whatever
the reason (60_exceptions.md R305, R312). -/
inductive DecodeError where
  /-- the opcode is not in the table of R95 (R99) -/
  | reservedOpcode
  /-- a must-be-zero field is not zero (R97) -/
  | nonzeroField
  /-- an operand field holds 8 to 15 (R98) -/
  | noSuchOperand
  deriving DecidableEq, Repr

/-- The word with the given fields: `op * 2^24 + a * 2^20 + b * 2^16 + c * 2^12 + k` (R91). -/
def packFields (op : BitVec 8) (a b c : BitVec 4) (k : BitVec 12) : CmdWord :=
  op ++ a ++ b ++ c ++ k

/-- Field `op`, bits 31:24. -/
def fieldOp (w : CmdWord) : BitVec 8 := w.extractLsb' 24 8

/-- Field `a`, bits 23:20. -/
def fieldA (w : CmdWord) : BitVec 4 := w.extractLsb' 20 4

/-- Field `b`, bits 19:16. -/
def fieldB (w : CmdWord) : BitVec 4 := w.extractLsb' 16 4

/-- Field `c`, bits 15:12. -/
def fieldC (w : CmdWord) : BitVec 4 := w.extractLsb' 12 4

/-- Field `k`, bits 11:0. -/
def fieldK (w : CmdWord) : BitVec 12 := w.extractLsb' 0 12

/-- A must-be-zero field (R97). -/
def mustBeZero {n : Nat} (f : BitVec n) : Except DecodeError Unit :=
  if f = 0 then .ok () else .error .nonzeroField

/-- The register or buffer number an operand field names: its low 3 bits, its top bit clear (R96, R98). -/
def operandOf (f : BitVec 4) : Except DecodeError (Fin 8) :=
  if h : f.toNat < 8 then .ok ⟨f.toNat, h⟩ else .error .noSuchOperand

/-- The operand field that names a register or buffer. -/
def operandField (r : Fin 8) : BitVec 4 := BitVec.ofNat 4 r.val

/-- Format R with no operand. -/
def decodeNone (i : Instr) (w : CmdWord) : Except DecodeError Instr := do
  mustBeZero (fieldA w); mustBeZero (fieldB w); mustBeZero (fieldC w); mustBeZero (fieldK w)
  return i

/-- Format R with the operand `a`. -/
def decodeA (i : Fin 8 → Instr) (w : CmdWord) : Except DecodeError Instr := do
  mustBeZero (fieldB w); mustBeZero (fieldC w); mustBeZero (fieldK w)
  return i (← operandOf (fieldA w))

/-- Format R with the operands `a` and `b`. -/
def decodeAB (i : Fin 8 → Fin 8 → Instr) (w : CmdWord) : Except DecodeError Instr := do
  mustBeZero (fieldC w); mustBeZero (fieldK w)
  return i (← operandOf (fieldA w)) (← operandOf (fieldB w))

/-- Format R with the operands `a` and `c`. -/
def decodeAC (i : Fin 8 → Fin 8 → Instr) (w : CmdWord) : Except DecodeError Instr := do
  mustBeZero (fieldB w); mustBeZero (fieldK w)
  return i (← operandOf (fieldA w)) (← operandOf (fieldC w))

/-- Format R with the operands `a`, `b` and `c`. -/
def decodeABC (i : Fin 8 → Fin 8 → Fin 8 → Instr) (w : CmdWord) : Except DecodeError Instr := do
  mustBeZero (fieldK w)
  return i (← operandOf (fieldA w)) (← operandOf (fieldB w)) (← operandOf (fieldC w))

/-- Format I: the operand `a` and `imm16 = {c, k}` (R96). -/
def decodeImm (i : Fin 8 → BitVec 16 → Instr) (w : CmdWord) : Except DecodeError Instr := do
  mustBeZero (fieldB w)
  return i (← operandOf (fieldA w)) (fieldC w ++ fieldK w)

/-- Format C of `CSRR`: the operand `a` and the register number `k`. -/
def decodeCsrRead (w : CmdWord) : Except DecodeError Instr := do
  mustBeZero (fieldB w); mustBeZero (fieldC w)
  return .csrr (← operandOf (fieldA w)) (fieldK w)

/-- Format C of `CSRW`: the operand `b` and the register number `k`. -/
def decodeCsrWrite (w : CmdWord) : Except DecodeError Instr := do
  mustBeZero (fieldA w); mustBeZero (fieldC w)
  return .csrw (← operandOf (fieldB w)) (fieldK w)

/-- The bit count field `nm1` of format N, bits 5:0 (R96). -/
def fieldCount (w : CmdWord) : BitVec 6 := w.extractLsb' 0 6

/-- Bits 11:6 of a word of format N, which must be zero (R91, R97). -/
def fieldCountPad (w : CmdWord) : BitVec 6 := w.extractLsb' 6 6

/-- Format N of `BGET`: the operands `a`, `b`, `c` and `nm1`. -/
def decodeGet (w : CmdWord) : Except DecodeError Instr := do
  mustBeZero (fieldCountPad w)
  return .bget (← operandOf (fieldA w)) (← operandOf (fieldB w)) (← operandOf (fieldC w)) (fieldCount w)

/-- Format N of `BPUSH`: the operands `a`, `b` and `nm1`. -/
def decodePush (w : CmdWord) : Except DecodeError Instr := do
  mustBeZero (fieldC w); mustBeZero (fieldCountPad w)
  return .bpush (← operandOf (fieldA w)) (← operandOf (fieldB w)) (fieldCount w)

/-- The decoder: the opcode map of R95, the checks of R97 to R99. The check by value of a control register number
(R100) is made by the command (R233, R234). -/
def decode (w : CmdWord) : Except DecodeError Instr :=
  match (fieldOp w).toNat with
  | 0x01 => decodeNone .nop w
  | 0x02 => decodeNone .halt w
  | 0x03 => decodeNone .run w
  | 0x10 => decodeImm .li w
  | 0x11 => decodeImm .lih w
  | 0x12 => decodeCsrRead w
  | 0x13 => decodeCsrWrite w
  | 0x14 => decodeA .bclr w
  | 0x15 => decodeAB .blen w
  | 0x16 => decodeGet w
  | 0x17 => decodePush w
  | 0x18 => decodeAC .bflip w
  | 0x19 => decodeAB .wlen w
  | 0x1A => decodeABC .bcmp w
  | 0x20 => decodeAB .nrzenc w
  | 0x21 => decodeAB .nrzdec w
  | 0x22 => decodeAB .manenc w
  | 0x23 => decodeAB .mandec w
  | 0x24 => decodeAB .repenc w
  | 0x25 => decodeAB .repdec w
  | 0x2E => decodeAB .fecenc w
  | 0x2F => decodeAB .fecdec w
  | 0x30 => decodeAB .henc4 w
  | 0x31 => decodeAB .hsyn7 w
  | 0x32 => decodeAB .hcor7 w
  | 0x33 => decodeAB .hdec7 w
  | 0x34 => decodeAB .hamenc w
  | 0x35 => decodeAB .hamdec w
  | 0x40 => decodeAB .dseed w
  | 0x41 => decodeAB .prngen w
  | 0x50 => decodeABC .spread w
  | 0x51 => decodeAB .ovsamp w
  | 0x52 => decodeABC .chmean w
  | 0x53 => decodeABC .desprd w
  | 0x54 => decodeAB .slice w
  | 0x60 => decodeAB .modul w
  | 0x61 => decodeAB .demod w
  | 0x70 => decodeAB .noisew w
  | 0x71 => decodeAB .noiseb w
  | 0x72 => decodeAB .addnoise w
  | _ => .error .reservedOpcode

/-- The word of format R with operands in `a`, `b`, `c`; an unused field is zero (R91, R97). -/
def encodeR (op : BitVec 8) (a b c : BitVec 4) : CmdWord := packFields op a b c 0

/-- The word of format I: `imm16` split into `c` and `k` (R91, R96). -/
def encodeImm (op : BitVec 8) (r : Fin 8) (imm : BitVec 16) : CmdWord :=
  packFields op (operandField r) 0 (imm.extractLsb' 12 4) (imm.extractLsb' 0 12)

/-- The encoder, from the same table (R95). -/
def encode : Instr → CmdWord
  | .nop => encodeR 0x01 0 0 0
  | .halt => encodeR 0x02 0 0 0
  | .run => encodeR 0x03 0 0 0
  | .li xd imm => encodeImm 0x10 xd imm
  | .lih xd imm => encodeImm 0x11 xd imm
  | .csrr xd csr => packFields 0x12 (operandField xd) 0 0 csr
  | .csrw xs csr => packFields 0x13 0 (operandField xs) 0 csr
  | .bclr bd => encodeR 0x14 (operandField bd) 0 0
  | .blen xd bs => encodeR 0x15 (operandField xd) (operandField bs) 0
  | .bget xd bs xi nm1 =>
    packFields 0x16 (operandField xd) (operandField bs) (operandField xi) (nm1.setWidth 12)
  | .bpush bd xs nm1 => packFields 0x17 (operandField bd) (operandField xs) 0 (nm1.setWidth 12)
  | .bflip bd xi => encodeR 0x18 (operandField bd) 0 (operandField xi)
  | .wlen xd ws => encodeR 0x19 (operandField xd) (operandField ws) 0
  | .bcmp xd bs bt => encodeR 0x1A (operandField xd) (operandField bs) (operandField bt)
  | .nrzenc bd bs => encodeR 0x20 (operandField bd) (operandField bs) 0
  | .nrzdec bd bs => encodeR 0x21 (operandField bd) (operandField bs) 0
  | .manenc bd bs => encodeR 0x22 (operandField bd) (operandField bs) 0
  | .mandec bd bs => encodeR 0x23 (operandField bd) (operandField bs) 0
  | .repenc bd bs => encodeR 0x24 (operandField bd) (operandField bs) 0
  | .repdec bd bs => encodeR 0x25 (operandField bd) (operandField bs) 0
  | .fecenc bd bs => encodeR 0x2E (operandField bd) (operandField bs) 0
  | .fecdec bd bs => encodeR 0x2F (operandField bd) (operandField bs) 0
  | .henc4 xd xs => encodeR 0x30 (operandField xd) (operandField xs) 0
  | .hsyn7 xd xs => encodeR 0x31 (operandField xd) (operandField xs) 0
  | .hcor7 xd xs => encodeR 0x32 (operandField xd) (operandField xs) 0
  | .hdec7 xd xs => encodeR 0x33 (operandField xd) (operandField xs) 0
  | .hamenc bd bs => encodeR 0x34 (operandField bd) (operandField bs) 0
  | .hamdec bd bs => encodeR 0x35 (operandField bd) (operandField bs) 0
  | .dseed xd bs => encodeR 0x40 (operandField xd) (operandField bs) 0
  | .prngen wd xs => encodeR 0x41 (operandField wd) (operandField xs) 0
  | .spread wd bs wp => encodeR 0x50 (operandField wd) (operandField bs) (operandField wp)
  | .ovsamp wd ws => encodeR 0x51 (operandField wd) (operandField ws) 0
  | .chmean wd ws xw => encodeR 0x52 (operandField wd) (operandField ws) (operandField xw)
  | .desprd wd ws wp => encodeR 0x53 (operandField wd) (operandField ws) (operandField wp)
  | .slice bd ws => encodeR 0x54 (operandField bd) (operandField ws) 0
  | .modul wd ws => encodeR 0x60 (operandField wd) (operandField ws) 0
  | .demod wd ws => encodeR 0x61 (operandField wd) (operandField ws) 0
  | .noisew wd ws => encodeR 0x70 (operandField wd) (operandField ws) 0
  | .noiseb wd ws => encodeR 0x71 (operandField wd) (operandField ws) 0
  | .addnoise wd ws => encodeR 0x72 (operandField wd) (operandField ws) 0

/-- One row of spec/opcode_table.json: a word is the command exactly when `word & mask = pattern` (R99). -/
structure OpcodeRow where
  mnemonic : String
  pattern : CmdWord
  mask : CmdWord
  deriving DecidableEq, Repr

/-- The rows of spec/opcode_table.json with opcodes below 0x30, as the table has them. -/
def opcodeRowsLow : List OpcodeRow :=
  [⟨"NOP", 0x01000000, 0xFFFFFFFF⟩, ⟨"HALT", 0x02000000, 0xFFFFFFFF⟩,
   ⟨"RUN", 0x03000000, 0xFFFFFFFF⟩, ⟨"LI", 0x10000000, 0xFF8F0000⟩,
   ⟨"LIH", 0x11000000, 0xFF8F0000⟩, ⟨"CSRR", 0x12000000, 0xFF8FF000⟩,
   ⟨"CSRW", 0x13000000, 0xFFF8F000⟩, ⟨"BCLR", 0x14000000, 0xFF8FFFFF⟩,
   ⟨"BLEN", 0x15000000, 0xFF88FFFF⟩, ⟨"BGET", 0x16000000, 0xFF888FC0⟩,
   ⟨"BPUSH", 0x17000000, 0xFF88FFC0⟩, ⟨"BFLIP", 0x18000000, 0xFF8F8FFF⟩,
   ⟨"WLEN", 0x19000000, 0xFF88FFFF⟩, ⟨"BCMP", 0x1A000000, 0xFF888FFF⟩,
   ⟨"NRZENC", 0x20000000, 0xFF88FFFF⟩, ⟨"NRZDEC", 0x21000000, 0xFF88FFFF⟩,
   ⟨"MANENC", 0x22000000, 0xFF88FFFF⟩, ⟨"MANDEC", 0x23000000, 0xFF88FFFF⟩,
   ⟨"REPENC", 0x24000000, 0xFF88FFFF⟩, ⟨"REPDEC", 0x25000000, 0xFF88FFFF⟩,
   ⟨"FECENC", 0x2E000000, 0xFF88FFFF⟩, ⟨"FECDEC", 0x2F000000, 0xFF88FFFF⟩]

/-- The rows of spec/opcode_table.json with opcodes from 0x30 up, as the table has them. -/
def opcodeRowsHigh : List OpcodeRow :=
  [⟨"HENC4", 0x30000000, 0xFF88FFFF⟩, ⟨"HSYN7", 0x31000000, 0xFF88FFFF⟩,
   ⟨"HCOR7", 0x32000000, 0xFF88FFFF⟩, ⟨"HDEC7", 0x33000000, 0xFF88FFFF⟩,
   ⟨"HAMENC", 0x34000000, 0xFF88FFFF⟩, ⟨"HAMDEC", 0x35000000, 0xFF88FFFF⟩,
   ⟨"DSEED", 0x40000000, 0xFF88FFFF⟩, ⟨"PRNGEN", 0x41000000, 0xFF88FFFF⟩,
   ⟨"SPREAD", 0x50000000, 0xFF888FFF⟩, ⟨"OVSAMP", 0x51000000, 0xFF88FFFF⟩,
   ⟨"CHMEAN", 0x52000000, 0xFF888FFF⟩, ⟨"DESPRD", 0x53000000, 0xFF888FFF⟩,
   ⟨"SLICE", 0x54000000, 0xFF88FFFF⟩, ⟨"MODUL", 0x60000000, 0xFF88FFFF⟩,
   ⟨"DEMOD", 0x61000000, 0xFF88FFFF⟩, ⟨"NOISEW", 0x70000000, 0xFF88FFFF⟩,
   ⟨"NOISEB", 0x71000000, 0xFF88FFFF⟩, ⟨"ADDNOISE", 0x72000000, 0xFF88FFFF⟩]

/-- The 40 rows of spec/opcode_table.json. The decoder is not written from them: that the two agree is stated and proved
apart. -/
def opcodeTable : List OpcodeRow := opcodeRowsLow ++ opcodeRowsHigh

/-- The command this decoder reads from a table row's bits `w`, numbered from the least significant bit of the one
32-bit word (30_encoding.md R90: there is one length, so no bit stands above the word). -/
def decodeTableWord (_nbits w : Nat) : Option Instr :=
  if w < 2 ^ 32 then
    match decode (BitVec.ofNat 32 w) with
    | .ok i => some i
    | .error _ => none
  else none

end Sys2Proof
end

