-- ==== Sys2Proof/Machine/Scalar.lean ====
section
/-! DEFINITION. The scalar, control-register and bit-buffer support commands (46_scalar_buffer.md). -/

namespace Sys2Proof.Machine

variable {α : Type}

/-- `LI xd, imm16` (R231). -/
def ruleLi (xd : XReg) (imm : BitVec 16) (s : State.Of α) : Rule (State.Of α) := .ok (writeX xd (immSigned imm) s)

/-- `LI` as a command. -/
def execLi (xd : XReg) (imm : BitVec 16) (s : State) : Host.Outcome State Fault Refusal :=
  finish s (ruleLi xd imm s)

/-- `LIH xd, imm16` (R232): the old value moves up by 16 bits and the immediate fills the low 16. -/
def ruleLih (xd : XReg) (imm : BitVec 16) (s : State.Of α) : Rule (State.Of α) :=
  .ok (writeX xd (readX xd s <<< 16 + immUnsigned imm) s)

/-- `LIH` as a command. -/
def execLih (xd : XReg) (imm : BitVec 16) (s : State) : Host.Outcome State Fault Refusal :=
  finish s (ruleLih xd imm s)

/-- `CSRR xd, csr` (R233). The word recorded by the fault is this command's one encoding. -/
def ruleCsrr (xd : XReg) (csr : BitVec 12) (s : State.Of α) : Rule (State.Of α) :=
  match IntCsr.ofNumber csr with
  | some r => .ok (writeX xd (readCsr r s) s)
  | none => .error ⟨.illegalCommand, (encode (.csrr xd csr)).toNat⟩

/-- `CSRR` as a command. -/
def execCsrr (xd : XReg) (csr : BitVec 12) (s : State) : Host.Outcome State Fault Refusal :=
  finish s (ruleCsrr xd csr s)

/-- `CSRW csr, xs` (R234). -/
def ruleCsrw (xs : XReg) (csr : BitVec 12) (s : State.Of α) : Rule (State.Of α) :=
  match IntCsr.ofNumber csr with
  | some r =>
    if r.writable then .ok (writeCsr r (readX xs s) s)
    else .error ⟨.illegalCommand, (encode (.csrw xs csr)).toNat⟩
  | none => .error ⟨.illegalCommand, (encode (.csrw xs csr)).toNat⟩

/-- `CSRW` as a command. -/
def execCsrw (xs : XReg) (csr : BitVec 12) (s : State) : Host.Outcome State Fault Refusal :=
  finish s (ruleCsrw xs csr s)

/-- `BCLR Bd` (R235). -/
def ruleBclr (P : Params α) (bd : BBuf) (s : State.Of α) : Rule (State.Of α) := setB P bd [] s

/-- `BCLR` as a command. -/
def execBclr (bd : BBuf) (s : State) : Host.Outcome State Fault Refusal := finish s (ruleBclr machine bd s)

/-- `BLEN xd, Bs` (R236). -/
def ruleBlen (xd : XReg) (bs : BBuf) (s : State.Of α) : Rule (State.Of α) := .ok (writeXNat xd (readB bs s).length s)

/-- `BLEN` as a command. -/
def execBlen (xd : XReg) (bs : BBuf) (s : State) : Host.Outcome State Fault Refusal :=
  finish s (ruleBlen xd bs s)

/-- `BGET xd, Bs, xi, n` (R237). The position after the access is an exact sum. -/
def ruleBget (xd : XReg) (bs : BBuf) (xi : XReg) (nm1 : BitVec 6) (s : State.Of α) : Rule (State.Of α) := do
  let v ← memRead (readB bs s) (readX xi s).toNat (bitCount nm1)
  return writeXNat xd (pack v) s

/-- `BGET` as a command. -/
def execBget (xd : XReg) (bs : BBuf) (xi : XReg) (nm1 : BitVec 6) (s : State) : Host.Outcome State Fault Refusal :=
  finish s (ruleBget xd bs xi nm1 s)

/-- `BPUSH Bd, xs, n` (R238). -/
def ruleBpush (P : Params α) (bd : BBuf) (xs : XReg) (nm1 : BitVec 6) (s : State.Of α) : Rule (State.Of α) :=
  setB P bd (readB bd s ++ unpack (bitCount nm1) (readX xs s)) s

/-- `BPUSH` as a command. -/
def execBpush (bd : BBuf) (xs : XReg) (nm1 : BitVec 6) (s : State) : Host.Outcome State Fault Refusal :=
  finish s (ruleBpush machine bd xs nm1 s)

/-- `BFLIP Bd, xi` (R239). -/
def ruleBflip (bd : BBuf) (xi : XReg) (s : State.Of α) : Rule (State.Of α) := do
  let k := (readX xi s).toNat
  let v ← memRead (readB bd s) k 1
  let z ← memWrite (readB bd s) k (v.map fun bit => !bit)
  return { s with b := s.b.set bd z }

/-- `BFLIP` as a command. -/
def execBflip (bd : BBuf) (xi : XReg) (s : State) : Host.Outcome State Fault Refusal :=
  finish s (ruleBflip bd xi s)

/-- `WLEN xd, Ws` (R240). -/
def ruleWlen (xd : XReg) (ws : WBuf) (s : State.Of α) : Rule (State.Of α) :=
  .ok (writeXNat xd (readW ws s).data.length s)

/-- `WLEN` as a command. -/
def execWlen (xd : XReg) (ws : WBuf) (s : State) : Host.Outcome State Fault Refusal :=
  finish s (ruleWlen xd ws s)

/-- `BCMP xd, Bs, Bt` (R241): 0 for equal buffers, 1 for buffers that differ. -/
def ruleBcmp (xd : XReg) (bs bt : BBuf) (s : State.Of α) : Rule (State.Of α) :=
  .ok (writeXNat xd (bitsDiffer (readB bs s) (readB bt s)).toNat s)

/-- `BCMP` as a command. -/
def execBcmp (xd : XReg) (bs bt : BBuf) (s : State) : Host.Outcome State Fault Refusal :=
  finish s (ruleBcmp xd bs bt s)

end Sys2Proof.Machine
end

