-- ==== Sys2Proof/Machine/System.lean ====
section
/-! DEFINITION. The system commands `NOP` and `HALT` and the whole-pipeline command `RUN` (47_system_run.md). -/

namespace Sys2Proof.Machine

variable {α : Type}

/-- `NOP` (R250). -/
def ruleNop (s : State.Of α) : Rule (State.Of α) := .ok s

/-- `NOP` as a command. -/
def execNop (s : State) : Host.Outcome State Fault Refusal := finish s (ruleNop s)

/-- `HALT` (R251): `STATUS.DONE` is set and the sequencer idles, so `STATUS.EXEC` reads 0. -/
def ruleHalt (s : State.Of α) : Rule (State.Of α) := .ok { s with done := true, mode := .idle }

/-- `HALT` as a command. -/
def execHalt (s : State) : Host.Outcome State Fault Refusal := finish s (ruleHalt s)

/-- A bit shown as the sample `0.0` or `1.0` (R257). -/
def bitSample (N : NumOps α) (bit : Bool) : α := N.ofNat bit.toNat

/-- Steps 1 to 10 of `RUN` on the scratch state, each the named command's rule (R252). -/
def runPipeline (P : Params α) (s : State.Of α) : Rule (State.Of α) := do
  let s ← ruleFecenc P 1 0 s
  let s ← genChips P 0 s.seedtx s
  let s ← genChips P 1 s.seedrx s
  let s ← ruleSpread P 2 1 0 s
  let s ← ruleOvsamp P 3 2 s
  let s ← ruleModul P 4 3 s
  let s ← ruleAddnoise P 5 4 s
  let s ← ruleDemod P 6 5 s
  let s ← ruleDesprd P 7 6 1 s
  let s ← ruleSlice P 2 7 s
  ruleFecdec P 3 2 s

/-- Step 12 of `RUN`: the six taps, at the sample rate, the rate of `W3` (R257). -/
def writeTaps (P : Params α) (s : State.Of α) : Rule (State.Of α) := do
  let h := s.cpb.toNat * s.ovs.toNat
  let rate := (readW 3 s).rate
  let s ← setT P 0 (hold h ((readB 0 s).map (bitSample P.num))) rate s
  let s ← setT P 1 (readW 3 s).data rate s
  let s ← setT P 2 (readW 4 s).data rate s
  let s ← setT P 3 (readW 5 s).data rate s
  let s ← setT P 4 (hold h (readW 7 s).data) rate s
  setT P 5 (hold h ((readB 2 s).map (bitSample P.num))) rate s

/-- `RUN` (R252): an empty payload is refused (R253), then the steps on a scratch copy; a step that raises discards the
copy (R254). -/
def ruleRun (P : Params α) (s : State.Of α) : Rule (State.Of α) := do
  if readB 0 s = [] then throw ⟨.operand, 0⟩
  let s ← runPipeline P s
  let s := { s with mismatch := bitsDiffer (readB 3 s) (readB 0 s) }
  let s ← writeTaps P s
  return { s with tapv := true, runid := s.runid + 1 }

/-- `RUN` as a command. -/
def execRun (s : State) : Host.Outcome State Fault Refusal := finish s (ruleRun machine s)

end Sys2Proof.Machine
end

