-- ==== Sys2Proof/Machine/Dispatch.lean ====
section
/-! DEFINITION. One arm per command, each a direct call of its meaning. -/

namespace Sys2Proof.Machine

def exec (i : Instr) (s : State) : Host.Outcome State Fault Refusal :=
  match i with
  | .nop => Sys2Proof.Machine.execNop s
  | .halt => Sys2Proof.Machine.execHalt s
  | .run => Sys2Proof.Machine.execRun s
  | .li xd imm => Sys2Proof.Machine.execLi xd imm s
  | .lih xd imm => Sys2Proof.Machine.execLih xd imm s
  | .csrr xd csr => Sys2Proof.Machine.execCsrr xd csr s
  | .csrw xs csr => Sys2Proof.Machine.execCsrw xs csr s
  | .bclr bd => Sys2Proof.Machine.execBclr bd s
  | .blen xd bs => Sys2Proof.Machine.execBlen xd bs s
  | .bget xd bs xi nm1 => Sys2Proof.Machine.execBget xd bs xi nm1 s
  | .bpush bd xs nm1 => Sys2Proof.Machine.execBpush bd xs nm1 s
  | .bflip bd xi => Sys2Proof.Machine.execBflip bd xi s
  | .wlen xd ws => Sys2Proof.Machine.execWlen xd ws s
  | .bcmp xd bs bt => Sys2Proof.Machine.execBcmp xd bs bt s
  | .nrzenc bd bs => Sys2Proof.Machine.execNrzenc bd bs s
  | .nrzdec bd bs => Sys2Proof.Machine.execNrzdec bd bs s
  | .manenc bd bs => Sys2Proof.Machine.execManenc bd bs s
  | .mandec bd bs => Sys2Proof.Machine.execMandec bd bs s
  | .repenc bd bs => Sys2Proof.Machine.execRepenc bd bs s
  | .repdec bd bs => Sys2Proof.Machine.execRepdec bd bs s
  | .fecenc bd bs => Sys2Proof.Machine.execFecenc bd bs s
  | .fecdec bd bs => Sys2Proof.Machine.execFecdec bd bs s
  | .henc4 xd xs => Sys2Proof.Machine.execHenc4 xd xs s
  | .hsyn7 xd xs => Sys2Proof.Machine.execHsyn7 xd xs s
  | .hcor7 xd xs => Sys2Proof.Machine.execHcor7 xd xs s
  | .hdec7 xd xs => Sys2Proof.Machine.execHdec7 xd xs s
  | .hamenc bd bs => Sys2Proof.Machine.execHamenc bd bs s
  | .hamdec bd bs => Sys2Proof.Machine.execHamdec bd bs s
  | .dseed xd bs => Sys2Proof.Machine.execDseed xd bs s
  | .prngen wd xs => Sys2Proof.Machine.execPrngen wd xs s
  | .spread wd bs wp => Sys2Proof.Machine.execSpread wd bs wp s
  | .ovsamp wd ws => Sys2Proof.Machine.execOvsamp wd ws s
  | .chmean wd ws xw => Sys2Proof.Machine.execChmean wd ws xw s
  | .desprd wd ws wp => Sys2Proof.Machine.execDesprd wd ws wp s
  | .slice bd ws => Sys2Proof.Machine.execSlice bd ws s
  | .modul wd ws => Sys2Proof.Machine.execModul wd ws s
  | .demod wd ws => Sys2Proof.Machine.execDemod wd ws s
  | .noisew wd ws => Sys2Proof.Machine.execNoisew wd ws s
  | .noiseb wd ws => Sys2Proof.Machine.execNoiseb wd ws s
  | .addnoise wd ws => Sys2Proof.Machine.execAddnoise wd ws s

end Sys2Proof.Machine
end

