-- ==== Sys2Proof/Machine/Step.lean ====
section
/-! DEFINITION. The sequencer's one step (30_encoding.md R93), and how a word is put where it fetches. -/

namespace Sys2Proof.Machine

/-- One step of the sequencer: fetch `P[pc]`, decode, execute; an illegal word raises `IllegalCommand` (R93). There is
no step in `IDLE`, in `FAULT`, or at the end of the stream (10_state.md R24). -/
def step (s : State) : Host.Outcome State Fault Refusal :=
  match fetch s with
  | .error f => .fault f
  | .ok w =>
    match decode w with
    | .ok i => exec i s
    | .error _ => illegalWord w s

/-- `s` with the command `w` at `P[pc]` and the sequencer executing: what the host's `HostStart` of a stream brings
about (20_memory.md R75, log 9), with `pc` and `DONE` as `s` has them. -/
def State.withFetchWord (s : State) (_nbits w : Nat) : State :=
  { s with stream := placeWord s.pc.toNat (BitVec.ofNat 32 w) s.stream, mode := .exec }

end Sys2Proof.Machine
end

