-- ==== Sys2Proof/Machine/Generic.lean ====
section
/-! DEFINITION. DSSX over any instance: the rules of the 40 commands, executed with the parameters `P` (00_scope.md R6,
R12, 10_state.md R25). The core instance's `exec` and `step` are these at `machine`. -/

namespace Sys2Proof.Machine

variable {α : Type}

/-- The rule of a command. -/
def ruleIn (P : Params α) (i : Instr) (s : State.Of α) : Rule (State.Of α) :=
  match i with
  | .nop => ruleNop s
  | .halt => ruleHalt s
  | .run => ruleRun P s
  | .li xd imm => ruleLi xd imm s
  | .lih xd imm => ruleLih xd imm s
  | .csrr xd csr => ruleCsrr xd csr s
  | .csrw xs csr => ruleCsrw xs csr s
  | .bclr bd => ruleBclr P bd s
  | .blen xd bs => ruleBlen xd bs s
  | .bget xd bs xi nm1 => ruleBget xd bs xi nm1 s
  | .bpush bd xs nm1 => ruleBpush P bd xs nm1 s
  | .bflip bd xi => ruleBflip bd xi s
  | .wlen xd ws => ruleWlen xd ws s
  | .bcmp xd bs bt => ruleBcmp xd bs bt s
  | .nrzenc bd bs => ruleNrzenc P bd bs s
  | .nrzdec bd bs => ruleNrzdec P bd bs s
  | .manenc bd bs => ruleManenc P bd bs s
  | .mandec bd bs => ruleMandec P bd bs s
  | .repenc bd bs => ruleRepenc P bd bs s
  | .repdec bd bs => ruleRepdec P bd bs s
  | .fecenc bd bs => ruleFecenc P bd bs s
  | .fecdec bd bs => ruleFecdec P bd bs s
  | .henc4 xd xs => ruleHenc4 xd xs s
  | .hsyn7 xd xs => ruleHsyn7 xd xs s
  | .hcor7 xd xs => ruleHcor7 xd xs s
  | .hdec7 xd xs => ruleHdec7 xd xs s
  | .hamenc bd bs => ruleHamenc P bd bs s
  | .hamdec bd bs => ruleHamdec P bd bs s
  | .dseed xd bs => ruleDseed xd bs s
  | .prngen wd xs => rulePrngen P wd xs s
  | .spread wd bs wp => ruleSpread P wd bs wp s
  | .ovsamp wd ws => ruleOvsamp P wd ws s
  | .chmean wd ws xw => ruleChmean P wd ws xw s
  | .desprd wd ws wp => ruleDesprd P wd ws wp s
  | .slice bd ws => ruleSlice P bd ws s
  | .modul wd ws => ruleModul P wd ws s
  | .demod wd ws => ruleDemod P wd ws s
  | .noisew wd ws => ruleNoisew P wd ws s
  | .noiseb wd ws => ruleNoiseb P wd ws s
  | .addnoise wd ws => ruleAddnoise P wd ws s

/-- A command executed in the instance `P` (30_encoding.md R93). -/
def execIn (P : Params α) (i : Instr) (s : State.Of α) : Host.Outcome (State.Of α) Fault Refusal :=
  finish s (ruleIn P i s)

/-- One step of the sequencer of the instance `P`, as `step` (30_encoding.md R93, 10_state.md R24). -/
def stepIn (P : Params α) (s : State.Of α) : Host.Outcome (State.Of α) Fault Refusal :=
  match fetch s with
  | .error f => .fault f
  | .ok w =>
    match decode w with
    | .ok i => execIn P i s
    | .error _ => illegalWord w s

end Sys2Proof.Machine
end

