-- ==== Sys2Proof/Machine/HostPort.lean ====
section
/-! DEFINITION. The host port: what the world outside can do to DSSX (20_memory.md R75 to R77). The sequencer's `step`
and these operations are all the transitions there are. They are written over any instance; `hostStep` is the core
instance's. -/

namespace Sys2Proof.Machine

variable {α : Type}

/-- A value of a control register: an integer register holds a word, a real register a `Num` (10_state.md R30, R32). -/
inductive CsrValue.Of (α : Type) where
  | int (v : Word)
  | real (v : α)
  deriving DecidableEq, Repr

/-- The operations of the host port (R75). -/
inductive HostOp.Of (α : Type) where
  | reset
  | readX (i : XReg)
  | writeX (i : XReg) (v : Word)
  | readCsr (n : BitVec 12)
  | writeCsr (n : BitVec 12) (v : CsrValue.Of α)
  | readB (i : BBuf)
  | writeB (i : BBuf) (v : BitSeq)
  | readW (i : WBuf)
  | writeW (i : WBuf) (v : List α) (rate : α)
  | readT (id : Word) (i : Nat)
  | start (stream : List CmdWord)
  | fclr
  deriving DecidableEq, Repr

/-- What the host port answers. -/
inductive HostAnswer.Of (α : Type) where
  /-- the operation was done and has no result -/
  | done
  /-- the operation was refused and changed nothing (R75) -/
  | refused
  /-- no completed run has that id, or there is no such tap (R77, 60_exceptions.md R308) -/
  | notFound
  | word (v : Word)
  | real (v : α)
  | bits (v : BitSeq)
  | wave (v : Wave.Of α)
  deriving DecidableEq, Repr

/-- What an operation leads to. -/
inductive HostResult.Of (α : Type) where
  | answer (a : HostAnswer.Of α) (s : State.Of α)
  /-- The host has no such move in this mode or with these arguments (R75, R76). Safe: the model has no transition. -/
  | noMove
  deriving DecidableEq, Repr

/-- `HostReset` and power-on (70_reset_and_hazards.md R340, R342). The noise source is no architectural state and is not
reset (10_state.md R47, R341): later draws are fresh ones, log 8. -/
def hostReset (N : NumOps α) (s : State.Of α) : State.Of α := { State.resetOf N with draws := s.draws }

/-- An operation allowed in `IDLE` and in `FAULT` (R75, R76). -/
def whenStopped (s : State.Of α) (r : HostResult.Of α) : HostResult.Of α := if s.mode = .exec then .noMove else r

/-- A rule's writes as a host operation: refused, changing nothing, where the rule raises (R75). -/
def hostWrite (s : State.Of α) (r : Rule (State.Of α)) : HostResult.Of α :=
  match r with
  | .ok s' => .answer .done s'
  | .error _ => .answer .refused s

/-- `HostReadCSR(n)`: any register of R30 and R32 (R75). -/
def hostReadCsr (n : BitVec 12) (s : State.Of α) : HostResult.Of α :=
  match IntCsr.ofNumber n, RealCsr.ofNumber n with
  | some r, _ => .answer (.word (readCsr r s)) s
  | none, some r => .answer (.real (readReal r s)) s
  | none, none => .noMove

/-- `HostWriteCSR(n, v)`: a register with command access "read, write", or a real register; any other number is refused
(R75). A value of the other kind than the register's is refused. -/
def hostWriteCsr (n : BitVec 12) (v : CsrValue.Of α) (s : State.Of α) : HostResult.Of α :=
  match v with
  | .int u =>
    match IntCsr.ofNumber n with
    | some r => if r.writable then .answer .done (writeCsr r u s) else .answer .refused s
    | none => .answer .refused s
  | .real u =>
    match RealCsr.ofNumber n with
    | some r => .answer .done (writeReal r u s)
    | none => .answer .refused s

/-- `HostReadT(id, i)` (R77). -/
def hostReadT (id : Word) (i : Nat) (s : State.Of α) : HostResult.Of α :=
  if h : i < 6 then
    if s.tapv ∧ id = s.runid then .answer (.wave s.t[i]) s else .answer .notFound s
  else .answer .notFound s

/-- `HostStart(P)`: the stream is presented, `pc <- 0`, `STATUS.DONE <- 0`, `mode <- EXEC` (R75). It is not defined for
a stream of 2^32 words or more (10_state.md R23). -/
def hostStart (stream : List CmdWord) (s : State.Of α) : HostResult.Of α :=
  if s.mode = .idle ∧ stream.length < 2 ^ 32 then
    .answer .done { s with stream := stream, pc := 0, done := false, mode := .exec }
  else .noMove

/-- `HostFclr` (R75, 60_exceptions.md R313). -/
def hostFclr (s : State.Of α) : HostResult.Of α := if s.mode = .fault then .answer .done (clearFault s) else .noMove

/-- One operation of the host port of the instance `P` (R75). -/
def hostStepIn (P : Params α) (op : HostOp.Of α) (s : State.Of α) : HostResult.Of α :=
  match op with
  | .reset => .answer .done (hostReset P.num s)
  | .readX i => whenStopped s (.answer (.word (readX i s)) s)
  | .writeX i v => whenStopped s (.answer .done (writeX i v s))
  | .readCsr n => whenStopped s (hostReadCsr n s)
  | .writeCsr n v => whenStopped s (hostWriteCsr n v s)
  | .readB i => whenStopped s (.answer (.bits (readB i s)) s)
  | .writeB i v => whenStopped s (hostWrite s (setB P i v s))
  | .readW i => whenStopped s (.answer (.wave (readW i s)) s)
  | .writeW i v rate => whenStopped s (hostWrite s (setW P i v rate s))
  | .readT id i => whenStopped s (hostReadT id i s)
  | .start stream => hostStart stream s
  | .fclr => hostFclr s

/-- A value of a control register of the core instance. -/
abbrev CsrValue : Type := CsrValue.Of Num

/-- The operations of the core instance's host port. -/
abbrev HostOp : Type := HostOp.Of Num

/-- What the core instance's host port answers. -/
abbrev HostAnswer : Type := HostAnswer.Of Num

/-- What an operation of the core instance's host port leads to. -/
abbrev HostResult : Type := HostResult.Of Num

/-- One operation of the core instance's host port (R75). -/
def hostStep (op : HostOp) (s : State) : HostResult := hostStepIn machine op s

end Sys2Proof.Machine
end

