-- ==== Sys2Proof/Machine/HostReference.lean ====
section
/-! DEFINITION. The host-side reference functions (48_host_reference.md): software around DSSX, not hardware
(00_scope.md R5 (b)). They add no state to the machine and no step calls them; they are here because the spec states the
end-to-end properties through them. They reach DSSX through its host port and its step only, over any instance. -/

namespace Sys2Proof.Machine

variable {α : Type}

/-- The bits of a byte, the most significant first (00_scope.md R10). -/
def byteBits (m : BitVec 8) : BitSeq := (List.range 8).map fun i => m.getLsbD (7 - i)

/-- `textToBits` of a byte string (R271). -/
def textToBits (m : List (BitVec 8)) : BitSeq := m.flatMap byteBits

/-- `bitsToText` up to its bytes, `count` the expected byte count: truncated, zero-padded to whole bytes, packed (R272).
The decoding of the bytes as UTF-8 is the host's. -/
def bitsToTextBytes (s : BitSeq) (count : Nat) : List (BitVec 8) :=
  let t := s.take (8 * count)
  bitsToBytes (t ++ List.replicate ((8 - t.length % 8) % 8) false)

/-- The chips per bit for a transmitter's secret of `len` characters (R276). -/
def hostChipsPerBit (len : Nat) : Nat := max 8 (4 * len)

/-! ### "Run simulation" (R274, R275) -/

/-- The inputs (R274), texts as UTF-8 bytes, and the length of the transmitter's secret in characters. -/
structure SimRequest (α : Type) where
  message : List (BitVec 8)
  txSecret : List (BitVec 8)
  txSecretLength : Nat
  rxSecret : List (BitVec 8)
  chipRate : α
  carrierFreq : α
  noisePower : α
  noiseBandwidth : α
  noiseMode : Word
  oversampling : Word
  scheme : Word
  deriving DecidableEq, Repr

/-- The host's moves, up to the start of `RUN; HALT` (R274, R275). -/
def simulationMoves (q : SimRequest α) : List (HostOp.Of α) :=
  [.writeB 0 (textToBits q.message),
   .writeCsr 0x017 (.int (deriveSeed q.txSecret)),
   .writeCsr 0x018 (.int (deriveSeed q.rxSecret)),
   .writeCsr 0x011 (.int (BitVec.ofNat 64 (hostChipsPerBit q.txSecretLength))),
   .writeCsr 0x020 (.real q.chipRate),
   .writeCsr 0x021 (.real q.carrierFreq),
   .writeCsr 0x022 (.real q.noisePower),
   .writeCsr 0x023 (.real q.noiseBandwidth),
   .writeCsr 0x012 (.int q.oversampling),
   .writeCsr 0x010 (.int q.scheme),
   .writeCsr 0x013 (.int q.noiseMode),
   .start [0x03000000, 0x02000000]]

/-- A sequence of host moves. It stops, in the state reached, at a move that is refused or that the host does not
have. -/
def hostMoves (P : Params α) : List (HostOp.Of α) → State.Of α → Except (State.Of α) (State.Of α)
  | [], s => .ok s
  | op :: rest, s =>
    match hostStepIn P op s with
    | .answer .done t => hostMoves P rest t
    | .answer _ t => .error t
    | .noMove => .error s

/-- The sequencer left to run for at most `k` steps, to where it has no step (R275: "waits for `STATUS.DONE` or
`STATUS.FAULT`"). -/
def awaitStop (P : Params α) : Nat → State.Of α → State.Of α
  | 0, s => s
  | k + 1, s =>
    match stepIn P s with
    | .next t => awaitStop P k t
    | .fault _ => s
    | .refused _ => s

/-- The document's SimulationResult (R275). The decoded message is its bytes before they are read as UTF-8, log 16. -/
structure SimResult (α : Type) where
  /-- the id, `RUNID` -/
  id : Word
  /-- `bitsToText(B3, E)` -/
  decoded : List (BitVec 8)
  /-- `STATUS.MISMATCH`; it compares bits, not texts (R277) -/
  mismatch : Bool
  /-- the stages: the six taps with their rates -/
  stages : List (Wave.Of α)
  deriving DecidableEq, Repr

/-- How "Run simulation" ends (R275). -/
inductive SimOutcome (α : Type) where
  /-- `DONE` -/
  | result (r : SimResult α)
  /-- `FAULT` with `CAUSE` 1 or 2: the document's InvalidArgument, with the code and `FINFO` -/
  | invalidArgument (cause finfo : Word)
  /-- `FAULT` with another cause, which "the host maps ... as it sees fit" (R275) -/
  | otherFault (cause finfo : Word)
  /-- a move was refused, or the sequencer was not idle: the run was not started -/
  | notStarted
  deriving DecidableEq, Repr

/-- "Run simulation" on DSSX, with the state it leaves (R275). Two steps run `RUN; HALT`. After InvalidArgument the host
has issued `HostFclr`; after another fault it has issued nothing, DESIGN CHOICE, log 16. -/
def runSimulation (P : Params α) (q : SimRequest α) (s : State.Of α) : SimOutcome α × State.Of α :=
  match hostMoves P (simulationMoves q) s with
  | .error t => (.notStarted, t)
  | .ok started =>
    let t := awaitStop P 2 started
    if t.done then
      (.result { id := t.runid, decoded := bitsToTextBytes (readB 3 t) q.message.length, mismatch := t.mismatch,
                 stages := t.t.toList }, t)
    else if t.cause = 1 ∨ t.cause = 2 then (.invalidArgument t.cause t.finfo, clearFault t)
    else (.otherFault t.cause t.finfo, t)

/-! ### The StageCache (R280 to R282) -/

/-- The StageCache: pairs of a simulation id and its stages, oldest insertion first (R280). -/
abbrev StageCache (α : Type) := List (Word × List (Wave.Of α))

/-- `store(id, stages)` in a cache of capacity `size` (R281). The spec does not say "what a capacity of zero or less does"
(R280): here a capacity is a natural number, and a capacity of 0 evicts at once the entry that is stored, the oldest of
a cache that was empty. DESIGN CHOICE, log 16. -/
def cacheStore (size : Nat) (cache : StageCache α) (id : Word) (stages : List (Wave.Of α)) : StageCache α :=
  let c := cache.filter (fun e => e.1 != id) ++ [(id, stages)]
  if size < c.length then c.drop 1 else c

/-- `get(id, stage)`: `none` is NotFound; the cache is not changed (R282). -/
def cacheGet (cache : StageCache α) (id : Word) (stage : Nat) : Option (Wave.Of α) :=
  (cache.find? fun e => e.1 == id).bind fun e => e.2[stage]?

/-- "Run simulation" of a host with a StageCache: after a completed `RUN` the six taps are copied into it (R288). -/
def runSimulationCached (P : Params α) (size : Nat) (q : SimRequest α) (cache : StageCache α) (s : State.Of α) :
    SimOutcome α × StageCache α × State.Of α :=
  match runSimulation P q s with
  | (.result r, t) => (.result r, cacheStore size cache r.id r.stages, t)
  | (o, t) => (o, cache, t)

/-! ### SpectrumAnalyzer (R285, R286) -/

/-- `decimate(sequence, maxPoints)`: every `stride`-th element from the first, `stride = ceil(length / maxPoints)`
(R285). The spec does not cover a `maxPoints` of 0: here it gives no element, DESIGN CHOICE, log 16. -/
def decimate (s : List α) (maxPoints : Nat) : List α :=
  if s.length ≤ maxPoints then s
  else
    let stride := (s.length + maxPoints - 1) / maxPoints
    (List.range ((s.length + stride - 1) / stride)).flatMap fun k => (s.drop (k * stride)).take 1

/-- The squared magnitude of bin `k` of the transform of `x`, written without complex numbers (45_noise.md R214):
the sum over `u`, `v` of `x[u] * x[v] * cos(2*pi*k*(u-v)/n)`, DEDUCED. The spec gives no computation of it: that each term is
`x[u]` times the shaping term of `x[v]`, and that the terms are added from `0.0`, for each `u` in index order every `v` in
index order, is a DESIGN CHOICE, which Num-f64 shows in the last bits; both log 16. -/
def binPower (N : NumOps α) (x : List α) (k : Nat) : α :=
  sumOf N (x.zipIdx.flatMap fun e => x.zipIdx.map fun d =>
    N.mul e.1 (shapeTerm N x.length e.2 k d.2 d.1))

/-- The magnitude of bin `k`, the square root of `binPower`. In Num-real that is never below zero; where the rounding of
Num-f64 makes it negative, which the spec does not cover, the magnitude is `0.0`, DESIGN CHOICE, log 16. -/
def binMagnitude (N : NumOps α) (x : List α) (k : Nat) : α :=
  let power := binPower N x k
  if N.le0 power then N.zero else N.sqrt power

/-- `spectrum(waveform)`: one zero point for an empty waveform, else the one-sided magnitude spectrum divided by the
sample count (R286). The frequency is `(k * fs) / n` as R286 writes it. -/
def spectrum (N : NumOps α) (x : List α) (fs : α) : List (α × α) :=
  if x = [] then [(N.zero, N.zero)]
  else (List.range (x.length / 2 + 1)).map fun k =>
    (N.div (N.mul (N.ofNat k) fs) (N.ofNat x.length),
      N.div (binMagnitude N x k) (N.ofNat x.length))

/-! ### "Query stage" (R288) -/

/-- The stage names (00_scope.md R6, 47_system_run.md R257). -/
inductive Stage where
  | source
  | spreader
  | modulator
  | channel
  | correlator
  | decoder
  deriving DecidableEq, Repr

/-- The tap that holds a stage (47_system_run.md R257). -/
def Stage.tap : Stage → Nat
  | .source => 0
  | .spreader => 1
  | .modulator => 2
  | .channel => 3
  | .correlator => 4
  | .decoder => 5

/-- The output of "Query stage": the decimated waveform, its samples with their rate (10_state.md R42), and the decimated
arrays of its spectrum (R288). -/
structure StageView (α : Type) where
  waveform : Wave.Of α
  frequency : List α
  magnitude : List α
  deriving DecidableEq, Repr

/-- A waveform as "Query stage" gives it (R288). `decimate` is of a sequence (R285), so the samples are decimated and the
rate stays the one `HostReadT` returns, DEDUCED; the spectrum is that of the whole waveform, then decimated, DEDUCED; the
spec does not give `maxPoints`, which is an argument, DESIGN CHOICE; all log 16. -/
def viewStage (N : NumOps α) (maxPoints : Nat) (v : Wave.Of α) : StageView α :=
  let points := decimate (spectrum N v.data v.rate) maxPoints
  { waveform := { v with data := decimate v.data maxPoints }, frequency := points.map Prod.fst, magnitude := points.map Prod.snd }

/-- "Query stage" on DSSX alone, by `HostReadT` (R288): `none` is NotFound. While the sequencer executes the host has no
such move (20_memory.md R76) and gets nothing, log 15. -/
def queryStage (P : Params α) (maxPoints : Nat) (id : Word) (stage : Stage) (s : State.Of α) : Option (StageView α) :=
  match hostStepIn P (.readT id stage.tap) s with
  | .answer (.wave v) _ => some (viewStage P.num maxPoints v)
  | .answer _ _ => none
  | .noMove => none

/-- "Query stage" served from a StageCache (R288): `none` is NotFound (R282). -/
def queryCache (N : NumOps α) (maxPoints : Nat) (cache : StageCache α) (id : Word) (stage : Stage) :
    Option (StageView α) :=
  (cacheGet cache id stage.tap).map (viewStage N maxPoints)

end Sys2Proof.Machine
end

