-- ==== Sys2Proof/NumReal.lean ====
section
/-! DEFINITION. Num-real (00_scope.md R12): the mathematical reals with exact operations, in which the spec states its
laws about samples. The machine runs the same sample functions with Num-f64. -/

namespace Sys2Proof

open Classical in
/-- The record of operations of Num-real (R12). -/
noncomputable def realOps : NumOps ℝ where
  zero := 0
  one := 1
  negOne := -1
  ofNat := fun n => (n : ℝ)
  add := fun a b => a + b
  sub := fun a b => a - b
  mul := fun a b => a * b
  div := fun a b => a / b
  sqrt := Real.sqrt
  cos := Real.cos
  pi := Real.pi
  gt0 := fun a => decide (0 < a)
  le0 := fun a => decide (a ≤ 0)
  eq0 := fun a => decide (a = 0)
  absGt := fun a b => decide (b < |a|)
  min := fun a b => if b < a then b else a

end Sys2Proof
end

