-- ==== Sys2Proof/Safety.lean ====
section
/-! DEFINITION. What counts as a good state and a good run, in the terms the statements use. -/

namespace Sys2Proof.Machine

/-- What the rules of 10_state.md and 60_exceptions.md keep true of the state of the instance `P`, between any two
transitions. -/
structure InvIn {α : Type} (P : Params α) (s : State.Of α) : Prop where
  /-- no buffer is over its capacity (R40, R42, R44) -/
  buffers : Memory.wf P s = true
  /-- the stream is shorter than 2^32 words (R23) -/
  streamShort : s.stream.length < 2 ^ 32
  /-- `pc` is not beyond the end of the stream (R23, R24) -/
  pcInStream : s.pc.toNat ≤ s.stream.length
  /-- a stopped fault's command is a word of the stream (R310) -/
  pcAtFault : s.mode = .fault → s.pc.toNat < s.stream.length
  /-- `DONE` is set in `IDLE` only (R24, R31, R310) -/
  doneIsIdle : s.done = true → s.mode = .idle
  /-- `CAUSE` is 0 exactly when no fault is pending (R301, R310, R313) -/
  causeOfFault : s.mode = .fault ↔ s.cause ≠ 0
  /-- cause codes 7 and up are never written (R301) -/
  causeCode : s.cause.toNat ≤ 6
  /-- in `FAULT`, `pc` and `FPC` both name the faulting command (R23) -/
  faultIndex : s.mode = .fault → s.fpc = s.pc.setWidth 64
  /-- `FPC` is a zero-extended index (R30) -/
  fpcIndex : s.fpc.toNat < 2 ^ 32
  /-- before the first completed `RUN`: no mismatch, no id, empty taps (R31, R36, R48, R341) -/
  beforeFirstRun : s.tapv = false → s.mismatch = false ∧ s.runid = 0 ∧ ∀ i : Fin 6, s.t[i] = Wave.empty P.num
  /-- every tap has the one sample rate (R257) -/
  tapRates : ∀ i : Fin 6, s.t[i].rate = s.t[0].rate
  /-- the five non-source taps have one length (R257) -/
  tapLengths : ∀ i : Fin 6, i ≠ 0 → s.t[i].data.length = s.t[1].data.length

/-- The invariant of the core instance. -/
abbrev Inv (s : State) : Prop := InvIn machine s

/-- "The program ran to completion": `mode = IDLE` and `STATUS.DONE = 1` (47_system_run.md R263). -/
def Completed (s : State) : Prop := s.mode = .idle ∧ s.done = true

/-- A safe state: the sequencer is not stopped on a fault (R300). -/
def Safe (s : State) : Prop := s.mode ≠ .fault

/-- `k` steps of the sequencer, stopping where there is no step (30_encoding.md R93). -/
def stepMany : Nat → State → Host.Outcome State Fault Refusal
  | 0, s => .next s
  | k + 1, s =>
    match step s with
    | .next t => stepMany k t
    | .fault f => .fault f
    | .refused r => .refused r

/-- The commands of a list executed one after another, stopping where the sequencer leaves `EXEC` (30_encoding.md R93). -/
def execAll : List Instr → State → Host.Outcome State Fault Refusal
  | [], s => .next s
  | i :: rest, s =>
    match exec i s with
    | .next t => if t.mode = .exec then execAll rest t else .next t
    | .fault f => .fault f
    | .refused r => .refused r

/-- The program of 47_system_run.md R266: `RUN` written out. -/
def runProgram : List Instr :=
  [.fecenc 1 0, .prngen 0 1, .prngen 1 2, .spread 2 1 0, .ovsamp 3 2, .modul 4 3, .addnoise 5 4, .demod 6 5,
   .desprd 7 6 1, .slice 2 7, .fecdec 3 2, .bcmp 3 3 0]

/-- The length of the code of `n` payload bits under a scheme (40_fec_bitcoding.md R130). -/
def codeLength (scheme n : Nat) : Nat :=
  match scheme with
  | 0 => n
  | 1 => 2 * n
  | 2 => 3 * n
  | _ => 7 * ((n + 3) / 4)

end Sys2Proof.Machine
end

