-- ==== Sys2Proof/Certificates/Slice0/Obligations.lean ====
section
/-! DEFINITION. The statements for the provers, each from a numbered rule of the spec. A statement of what a command does
gives its whole next state, so it is the command's frame as well. -/

section

open Sys2Proof Sys2Proof.Machine

/-! ### Reset and the word format -/

/-- 70_reset_and_hazards.md R340, 10_state.md R48: after power-on and after `HostReset` in any state, every element has
its reset value, and the idle sequencer has no step. -/
def Obligations.ResetPutsEveryElementToItsResetValue : Prop :=
  step State.reset = .fault .sequencerIdle ∧
  (∀ s, ∃ t, hostStep .reset s = .answer .done t) ∧
  ∀ t, (t = State.reset ∨ ∃ s, hostStep .reset s = .answer .done t) →
    (∀ r : XReg, readX r t = 0) ∧ t.pc = 0 ∧ t.mode = .idle ∧
    (∀ r : IntCsr, readCsr r t = 0) ∧ (∀ r : RealCsr, readReal r t = num.zero) ∧
    (∀ i : BBuf, readB i t = []) ∧
    (∀ i : WBuf, (readW i t).data = [] ∧ (readW i t).rate = num.zero) ∧
    (∀ i : Fin 6, t.t[i].data = [] ∧ t.t[i].rate = num.zero)

/-- 30_encoding.md R91, R95, R96: decoding the word of any command, with any operands, gives that command. -/
def Obligations.DecodeOfEncode : Prop :=
  ∀ i : Instr, decode (encode i) = .ok i

/-- 30_encoding.md R97, R98: a word that decodes is the word of the command it decodes to, so no bit of it is ignored. -/
def Obligations.EncodeOfDecode : Prop :=
  ∀ (w : CmdWord) (i : Instr), decode w = .ok i → encode i = w

/-- 30_encoding.md R99: a word is legal exactly when it matches a row of the opcode table, and then exactly one; with an
opcode that no row has, it is refused as reserved. -/
def Obligations.LegalWordsMatchExactlyOneRow : Prop :=
  (∀ w : CmdWord, (∃ i, decode w = .ok i) ↔ ∃ r ∈ opcodeTable, w &&& r.mask = r.pattern) ∧
  (∀ (w : CmdWord) (r r' : OpcodeRow), r ∈ opcodeTable → r' ∈ opcodeTable →
    w &&& r.mask = r.pattern → w &&& r'.mask = r'.pattern → r = r') ∧
  (∀ w : CmdWord, (∀ r ∈ opcodeTable, fieldOp w ≠ fieldOp r.pattern) → decode w = .error .reservedOpcode)

/-- 30_encoding.md R103: the nine words written out there, and the all-zero and all-one words of R99. -/
def Obligations.DecodeOfWrittenWords : Prop :=
  decode 0x1010FFFF = .ok (.li 1 0xFFFF) ∧ decode 0x1110BEEF = .ok (.lih 1 0xBEEF) ∧
  decode 0x13010010 = .ok (.csrw 1 0x010) ∧ decode 0x12200000 = .ok (.csrr 2 0x000) ∧
  decode 0x16213006 = .ok (.bget 2 1 3 6) ∧ decode 0x17010007 = .ok (.bpush 0 1 7) ∧
  decode 0x50210000 = .ok (.spread 2 1 0) ∧ decode 0x03000000 = .ok .run ∧ decode 0x02000000 = .ok .halt ∧
  decode 0x00000000 = .error .reservedOpcode ∧ decode 0xFFFFFFFF = .error .reservedOpcode

/-! ### Steps, faults and modes -/

/-- 30_encoding.md R93: in `EXEC`, where the word at `pc` decodes to a command, the step is that command's execution and
nothing more (the advance of `pc` is part of it). 10_state.md R25: the core instance's execution and step are those over
any instance, at its parameters. -/
def Obligations.StepRunsDecodedCommand : Prop :=
  (∀ (s : State) (w : CmdWord) (i : Instr),
    s.mode = .exec → s.stream[s.pc.toNat]? = some w → decode w = .ok i → step s = exec i s) ∧
  (∀ (i : Instr) (s : State), exec i s = execIn machine i s) ∧
  ∀ s : State, step s = stepIn machine s

/-- 60_exceptions.md R305: a word that is no legal encoding, or whose control register number the command may not
access, raises `IllegalCommand` with the word recorded. -/
def Obligations.IllegalWordFaults : Prop :=
  ∀ (s : State) (w : CmdWord), s.mode = .exec → s.stream[s.pc.toNat]? = some w →
    (∀ i, decode w = .ok i → i.wf = false) →
    step s = .next { s with cause := 3, fpc := s.pc.setWidth 64, finfo := w.setWidth 64, mode := .fault }

/-- 60_exceptions.md R310, R311 and 10_state.md R23, for every command: either its rule completes, `pc` advances by 1 mod
2^32 and the fault record is untouched, or its rule raises and that fault is taken; and for every raise, taking the fault
writes the code of its cause (R301), the index, the value raised, saturated at 2^64 - 1, and the mode `FAULT`, and nothing
else. -/
def Obligations.EveryCommandAdvancesOrFaults : Prop :=
  (∀ (i : Instr) (s : State), ∃ t, exec i s = .next t ∧
    ((∃ u, ruleIn machine i s = .ok u ∧ t = { u with pc := s.pc + 1 } ∧
        u.cause = s.cause ∧ u.fpc = s.fpc ∧ u.finfo = s.finfo ∧ (u.mode = s.mode ∨ i = .halt)) ∨
     ∃ r, ruleIn machine i s = .error r ∧ t = takeFault r s ∧ faultFlag t = true ∧ execFlag t = false)) ∧
  ∀ (r : Raise) (s : State), takeFault r s =
    { s with
        cause := match r.cause with
          | .invalidArgumentScheme => 1
          | .invalidArgumentWindow => 2
          | .illegalCommand => 3
          | .capacity => 4
          | .indexRange => 5
          | .operand => 6,
        fpc := s.pc.setWidth 64, finfo := BitVec.ofNat 64 (min r.info (2 ^ 64 - 1)), mode := .fault }

/-- 10_state.md R24: the sequencer has a step in `EXEC` before the end of the stream and nowhere else; it leaves `EXEC`
for `IDLE` by `HALT`, with `DONE` set, and for `FAULT` by a fault; the host takes `IDLE` to `EXEC` by `HostStart`, with
`pc` and `DONE` cleared, `FAULT` to `IDLE` by `HostFclr`, and anything to `IDLE` by reset; there is no other transition. -/
def Obligations.ModeChangesAreExactlyThese : Prop :=
  (∀ s, (∃ t, step s = .next t) ↔ s.mode = .exec ∧ s.pc.toNat < s.stream.length) ∧
  (∀ s t, step s = .next t →
    (t.mode = .idle ↔ s.stream[s.pc.toNat]? = some 0x02000000) ∧ (t.mode = .idle → t.done = true) ∧
    (t.mode = .fault → t.pc = s.pc ∧ t.cause ≠ 0) ∧ (t.mode ≠ .fault → t.pc = s.pc + 1)) ∧
  (∀ op s t a, hostStep op s = .answer a t → t.mode ≠ s.mode →
    (op = .reset ∧ t.mode = .idle) ∨
    ((∃ P, op = .start P) ∧ s.mode = .idle ∧ t.mode = .exec ∧ t.pc = 0 ∧ t.done = false) ∨
    (op = .fclr ∧ s.mode = .fault ∧ t.mode = .idle))

/-! ### The invariant, whole-machine frames and termination -/

/-- The invariant `Inv` of Safety.lean (10_state.md R23, R24, R31, R40, R42, R44, 60_exceptions.md R301, R310,
47_system_run.md R257) holds after reset. -/
def Obligations.InvHoldsAtReset : Prop :=
  Inv State.reset

/-- From every state in which `Inv` holds, every step of the sequencer keeps it; and so in every instance. -/
def Obligations.StepKeepsInv : Prop :=
  (∀ s t : State, Inv s → step s = .next t → Inv t) ∧
  ∀ (α : Type) (P : Params α) (s t : State.Of α), InvIn P s → stepIn P s = .next t → InvIn P t

/-- From every state in which `Inv` holds, every operation of the host port keeps it (20_memory.md R75). -/
def Obligations.HostPortKeepsInv : Prop :=
  ∀ (op : HostOp) (s t : State) (a : HostAnswer), Inv s → hostStep op s = .answer a t → Inv t

/-- The writers of each element, by opcode (10_state.md R21, R30, R32, R34, R41, R42, R44, 20_memory.md R83): no command
writes a real control register or the stream; only `RUN` (0x03) writes a tap, `TAPV`, `MISMATCH` or `RUNID`; only `HALT`
(0x02) writes `DONE`; only the commands named there write a scalar register, a bit buffer, a sample buffer or a
metadata register; only `CSRW` (0x13) writes another control register; only `NOISEW`, `NOISEB`, `ADDNOISE` and `RUN` take draws. -/
def Obligations.OnlyNamedCommandsWrite : Prop :=
  ∀ (i : Instr) (s t : State), exec i s = .next t →
    t.chiprate = s.chiprate ∧ t.fc = s.fc ∧ t.npow = s.npow ∧ t.nbw = s.nbw ∧ t.stream = s.stream ∧
    (fieldOp (encode i) ≠ 0x03 → t.t = s.t ∧ t.tapv = s.tapv ∧ t.mismatch = s.mismatch ∧ t.runid = s.runid) ∧
    (fieldOp (encode i) ≠ 0x02 → t.done = s.done) ∧
    (fieldOp (encode i) ∉ [0x10, 0x11, 0x12, 0x15, 0x19, 0x16, 0x1A, 0x30, 0x31, 0x32, 0x33, 0x40] → t.x = s.x) ∧
    (fieldOp (encode i) ∉ [0x14, 0x17, 0x18, 0x20, 0x21, 0x22, 0x23, 0x24, 0x25, 0x2E, 0x2F, 0x34, 0x35, 0x54, 0x03] →
      t.b = s.b) ∧
    (fieldOp (encode i) ∉ [0x41, 0x50, 0x51, 0x52, 0x53, 0x60, 0x61, 0x70, 0x71, 0x72, 0x03] → t.w = s.w) ∧
    (fieldOp (encode i) ∉ [0x20, 0x22, 0x24, 0x34, 0x2E, 0x03, 0x13] → t.payload = s.payload) ∧
    (fieldOp (encode i) ∉ [0x34, 0x2E, 0x03, 0x13] → t.padlen = s.padlen) ∧
    (fieldOp (encode i) ∉ [0x24, 0x2E, 0x03, 0x13] → t.repeatFactor = s.repeatFactor) ∧
    (fieldOp (encode i) ≠ 0x13 →
      t.scheme = s.scheme ∧ t.cpb = s.cpb ∧ t.ovs = s.ovs ∧ t.nmode = s.nmode ∧ t.seedtx = s.seedtx ∧
      t.seedrx = s.seedrx ∧ t.nseeden = s.nseeden ∧ t.nseed = s.nseed) ∧
    (fieldOp (encode i) ∉ [0x70, 0x71, 0x72, 0x03] ∨ s.nseeden = true ∨ num.gt0 s.npow = false → t.draws = s.draws)

/-- 70_reset_and_hazards.md R355: a run of the sequencer reaches `HALT`, a fault or the end of the stream after at most
as many commands as the stream has. -/
def Obligations.RunsTerminate : Prop :=
  ∀ s : State, s.mode = .exec → s.pc = 0 → s.stream.length < 2 ^ 32 →
    ∃ k ≤ s.stream.length, ∃ t : State, stepMany k s = .next t ∧
      ((t.mode = .idle ∧ t.done = true) ∨ t.mode = .fault ∨ (t.mode = .exec ∧ t.pc.toNat = t.stream.length))

/-! ### System, scalar and control-register commands -/

/-- 47_system_run.md R250, R251: `NOP` and `HALT`. -/
def Obligations.NopAndHalt : Prop :=
  ∀ s : State,
    exec .nop s = .next { s with pc := s.pc + 1 } ∧
    exec .halt s = .next { s with done := true, mode := .idle, pc := s.pc + 1 }

/-- 46_scalar_buffer.md R231, R232: `LI` sign-extends; `LIH` shifts its register and fills the low 16 bits. 30_encoding.md
R104: the four commands of `LI64` leave any 64-bit value in the register. -/
def Obligations.LoadImmediates : Prop :=
  ∀ (xd : XReg) (imm : BitVec 16) (s : State),
    (∃ v : Word, exec (.li xd imm) s = .next { s with x := s.x.set xd v, pc := s.pc + 1 } ∧ v.toInt = imm.toInt) ∧
    (∃ v : Word, exec (.lih xd imm) s = .next { s with x := s.x.set xd v, pc := s.pc + 1 } ∧
      v.toNat = s.x[xd].toNat * 2 ^ 16 % 2 ^ 64 + imm.toNat) ∧
    (∀ v : Word, s.mode = .exec →
      execAll [.li xd (v.extractLsb' 48 16), .lih xd (v.extractLsb' 32 16), .lih xd (v.extractLsb' 16 16),
        .lih xd (v.extractLsb' 0 16)] s = .next { s with x := s.x.set xd v, pc := s.pc + 4 })

/-- 46_scalar_buffer.md R233: `CSRR` of each register of 10_state.md R30; every other number raises `IllegalCommand` with
the word; in `EXEC`, `STATUS` reads with bit 4 set and bit 1 clear. -/
def Obligations.ReadControlRegister : Prop :=
  ∀ (xd : XReg) (s : State),
    (∀ e ∈ ([(0x000, statusWord s), (0x001, s.cause), (0x002, s.fpc), (0x003, s.finfo), (0x004, s.runid),
        (0x010, s.scheme), (0x011, s.cpb), (0x012, s.ovs), (0x013, s.nmode), (0x014, s.payload), (0x015, s.padlen),
        (0x016, s.repeatFactor), (0x017, s.seedtx), (0x018, s.seedrx), (0x019, if s.nseeden then 1 else 0),
        (0x01A, s.nseed)] : List (BitVec 12 × Word)),
      exec (.csrr xd e.1) s = .next { s with x := s.x.set xd e.2, pc := s.pc + 1 }) ∧
    (∀ csr : BitVec 12, csr.toNat ∉ csrReadNumbers →
      exec (.csrr xd csr) s = .next (takeFault ⟨.illegalCommand, 0x12000000 + xd.val * 2 ^ 20 + csr.toNat⟩ s)) ∧
    (s.mode = .exec → (statusWord s).getLsbD 4 = true ∧ (statusWord s).getLsbD 1 = false)

/-- 46_scalar_buffer.md R234: `CSRW` to each register with access "read, write"; `NSEEDEN` takes bit 0; every other
number raises `IllegalCommand` with the word. 10_state.md R33: a register reads back what was written to it, `NSEEDEN`
bit 0 of it. -/
def Obligations.WriteControlRegister : Prop :=
  ∀ (xs : XReg) (s : State),
    (∀ e ∈ ([(0x010, { s with scheme := s.x[xs] }), (0x011, { s with cpb := s.x[xs] }),
        (0x012, { s with ovs := s.x[xs] }), (0x013, { s with nmode := s.x[xs] }), (0x014, { s with payload := s.x[xs] }),
        (0x015, { s with padlen := s.x[xs] }), (0x016, { s with repeatFactor := s.x[xs] }),
        (0x017, { s with seedtx := s.x[xs] }), (0x018, { s with seedrx := s.x[xs] }),
        (0x019, { s with nseeden := s.x[xs].getLsbD 0 }), (0x01A, { s with nseed := s.x[xs] })] :
        List (BitVec 12 × State)),
      exec (.csrw xs e.1) s = .next { e.2 with pc := s.pc + 1 }) ∧
    (∀ csr : BitVec 12, csr.toNat ∉ csrWriteNumbers →
      exec (.csrw xs csr) s = .next (takeFault ⟨.illegalCommand, 0x13000000 + xs.val * 2 ^ 16 + csr.toNat⟩ s)) ∧
    (∀ (xd : XReg) (csr : BitVec 12), s.mode = .exec → csr.toNat ∈ csrWriteNumbers →
      ∃ t, execAll [.csrw xs csr, .csrr xd csr] s = .next t ∧ t.pc = s.pc + 2 ∧
        t.x = s.x.set xd (if csr = 0x019 then s.x[xs] &&& 1 else s.x[xs]))

/-- 10_state.md R31: the fields of `STATUS`. -/
def Obligations.StatusBits : Prop :=
  ∀ s : State,
    (statusWord s).getLsbD 0 = s.done ∧ ((statusWord s).getLsbD 1 = true ↔ s.mode = .fault) ∧
    (statusWord s).getLsbD 2 = s.tapv ∧ (statusWord s).getLsbD 3 = s.mismatch ∧
    ((statusWord s).getLsbD 4 = true ↔ s.mode = .exec) ∧ ∀ i ≥ 5, (statusWord s).getLsbD i = false

/-! ### Bit-buffer support commands -/

/-- 46_scalar_buffer.md R235, R236, R240: `BCLR`, `BLEN`, `WLEN`. -/
def Obligations.ClearAndLengths : Prop :=
  ∀ (xd : XReg) (bs : BBuf) (ws : WBuf) (s : State),
    exec (.bclr bs) s = .next { s with b := s.b.set bs [], pc := s.pc + 1 } ∧
    exec (.blen xd bs) s
      = .next { s with x := s.x.set xd (BitVec.ofNat 64 s.b[bs].length), pc := s.pc + 1 } ∧
    exec (.wlen xd ws) s
      = .next { s with x := s.x.set xd (BitVec.ofNat 64 s.w[ws].data.length), pc := s.pc + 1 }

/-- 46_scalar_buffer.md R237: `BGET` puts the first bit read at bit `n - 1` of the result, zeros above it, and raises
`IndexRange` with the exact sum of index and count where that passes the end. -/
def Obligations.GetBits : Prop :=
  ∀ (xd : XReg) (bs : BBuf) (xi : XReg) (nm1 : BitVec 6) (s : State),
    (s.x[xi].toNat + (nm1.toNat + 1) ≤ s.b[bs].length → ∃ v : Word,
      exec (.bget xd bs xi nm1) s = .next { s with x := s.x.set xd v, pc := s.pc + 1 } ∧
      (∀ i ≤ nm1.toNat, some (v.getLsbD (nm1.toNat - i)) = s.b[bs][s.x[xi].toNat + i]?) ∧
      (∀ i > nm1.toNat, v.getLsbD i = false)) ∧
    (s.b[bs].length < s.x[xi].toNat + (nm1.toNat + 1) →
      exec (.bget xd bs xi nm1) s = .next (takeFault ⟨.indexRange, s.x[xi].toNat + (nm1.toNat + 1)⟩ s))

/-- 46_scalar_buffer.md R238: `BPUSH` appends the low `n` bits, bit `n - 1` first, and raises `Capacity` with the length
that does not fit. 20_memory.md R67: bits appended are read back by index, `n` at a time. -/
def Obligations.PushBits : Prop :=
  ∀ (bd : BBuf) (xs : XReg) (nm1 : BitVec 6) (s : State),
    (s.b[bd].length + (nm1.toNat + 1) ≤ bcap → ∃ o : BitSeq,
      exec (.bpush bd xs nm1) s = .next { s with b := s.b.set bd o, pc := s.pc + 1 } ∧
      o.length = s.b[bd].length + (nm1.toNat + 1) ∧
      (∀ i < s.b[bd].length, o[i]? = s.b[bd][i]?) ∧
      (∀ i ≤ nm1.toNat, o[s.b[bd].length + i]? = some (s.x[xs].getLsbD (nm1.toNat - i)))) ∧
    (bcap < s.b[bd].length + (nm1.toNat + 1) →
      exec (.bpush bd xs nm1) s = .next (takeFault ⟨.capacity, s.b[bd].length + (nm1.toNat + 1)⟩ s)) ∧
    (∀ xd xi : XReg, s.mode = .exec → s.b[bd].length + (nm1.toNat + 1) ≤ bcap → s.x[xi].toNat = s.b[bd].length →
      ∃ t, execAll [.bpush bd xs nm1, .bget xd bd xi nm1] s = .next t ∧
        t.x = s.x.set xd (BitVec.ofNat 64 (s.x[xs].toNat % 2 ^ (nm1.toNat + 1))))

/-- 46_scalar_buffer.md R239: `BFLIP` inverts the one element at the index and keeps the length; twice restores the
buffer; an index at or past the end raises `IndexRange`. -/
def Obligations.FlipBit : Prop :=
  ∀ (bd : BBuf) (xi : XReg) (s : State),
    (s.x[xi].toNat < s.b[bd].length →
      (∃ o : BitSeq, exec (.bflip bd xi) s = .next { s with b := s.b.set bd o, pc := s.pc + 1 } ∧
        o.length = s.b[bd].length ∧
        ∀ i, o[i]? = if i = s.x[xi].toNat then s.b[bd][i]?.map (fun bit => !bit) else s.b[bd][i]?) ∧
      (s.mode = .exec → execAll [.bflip bd xi, .bflip bd xi] s = .next { s with pc := s.pc + 2 })) ∧
    (s.b[bd].length ≤ s.x[xi].toNat →
      exec (.bflip bd xi) s = .next (takeFault ⟨.indexRange, s.x[xi].toNat + 1⟩ s))

/-- 46_scalar_buffer.md R241: `BCMP` gives 0 for buffers of one length with equal elements, else 1. -/
def Obligations.CompareBuffers : Prop :=
  ∀ (xd : XReg) (bs bt : BBuf) (s : State),
    ((s.b[bs].length = s.b[bt].length ∧ ∀ i < s.b[bs].length, s.b[bs][i]? = s.b[bt][i]?) →
      exec (.bcmp xd bs bt) s = .next { s with x := s.x.set xd 0, pc := s.pc + 1 }) ∧
    (¬(s.b[bs].length = s.b[bt].length ∧ ∀ i < s.b[bs].length, s.b[bs][i]? = s.b[bt][i]?) →
      exec (.bcmp xd bs bt) s = .next { s with x := s.x.set xd 1, pc := s.pc + 1 })

/-! ### Bit coding -/

/-- 40_fec_bitcoding.md R122, R123: `NRZENC` and `NRZDEC`. The source is within the capacity, as it is in every state
where `Inv` holds. -/
def Obligations.NrzCommands : Prop :=
  ∀ (bd bs : BBuf) (s : State), s.b[bs].length ≤ bcap →
    exec (.nrzenc bd bs) s = .next { s with b := s.b.set bd s.b[bs], payload := BitVec.ofNat 64 s.b[bs].length,
                                            pc := s.pc + 1 } ∧
    exec (.nrzdec bd bs) s = .next { s with b := s.b.set bd (s.b[bs].take s.payload.toNat), pc := s.pc + 1 }

/-- 40_fec_bitcoding.md R124, R125: `MANENC`, with its `Capacity` fault, and `MANDEC`. -/
def Obligations.ManchesterCommands : Prop :=
  ∀ (bd bs : BBuf) (s : State),
    (2 * s.b[bs].length ≤ bcap → ∃ o : BitSeq,
      exec (.manenc bd bs) s = .next { s with b := s.b.set bd o, payload := BitVec.ofNat 64 s.b[bs].length,
                                              pc := s.pc + 1 } ∧
      o.length = 2 * s.b[bs].length ∧
      ∀ (i : Nat) (bit : Bool), s.b[bs][i]? = some bit → o[2 * i]? = some bit ∧ o[2 * i + 1]? = some (!bit)) ∧
    (bcap < 2 * s.b[bs].length → exec (.manenc bd bs) s = .next (takeFault ⟨.capacity, 2 * s.b[bs].length⟩ s)) ∧
    (s.b[bs].length ≤ bcap → ∃ o : BitSeq,
      exec (.mandec bd bs) s = .next { s with b := s.b.set bd o, pc := s.pc + 1 } ∧
      o.length = min (s.b[bs].length / 2) s.payload.toNat ∧
      ∀ k < o.length, o[k]? = some (s.b[bs].getD (2 * k) false && !s.b[bs].getD (2 * k + 1) false))

/-- 40_fec_bitcoding.md R126, R127: `REPENC`, with its `Capacity` fault, and `REPDEC` with the vote of each group of
`REPEAT` bits and its `Operand` fault. -/
def Obligations.RepeatCommands : Prop :=
  ∀ (bd bs : BBuf) (s : State),
    (3 * s.b[bs].length ≤ bcap → ∃ o : BitSeq,
      exec (.repenc bd bs) s = .next { s with b := s.b.set bd o, payload := BitVec.ofNat 64 s.b[bs].length,
                                              repeatFactor := 3, pc := s.pc + 1 } ∧
      o.length = 3 * s.b[bs].length ∧ ∀ i, ∀ u < 3, o[3 * i + u]? = s.b[bs][i]?) ∧
    (bcap < 3 * s.b[bs].length → exec (.repenc bd bs) s = .next (takeFault ⟨.capacity, 3 * s.b[bs].length⟩ s)) ∧
    (s.repeatFactor = 0 → exec (.repdec bd bs) s = .next (takeFault ⟨.operand, 0⟩ s)) ∧
    (s.repeatFactor ≠ 0 → s.b[bs].length ≤ bcap → ∃ o : BitSeq,
      exec (.repdec bd bs) s = .next { s with b := s.b.set bd o, pc := s.pc + 1 } ∧
      o.length = min (s.b[bs].length / s.repeatFactor.toNat) s.payload.toNat ∧
      ∀ k < o.length, (o[k]? = some true ↔
        (s.repeatFactor.toNat + 1) / 2 ≤
          ((s.b[bs].drop (k * s.repeatFactor.toNat)).take s.repeatFactor.toNat).count true))

/-- 40_fec_bitcoding.md R128, R130: `FECENC` is the encoder that `SCHEME` selects, all 64 bits compared; an unsupported
scheme is named in the fault; where the code fits, the command completes with the code length of R130. -/
def Obligations.FecencDispatch : Prop :=
  ∀ (bd bs : BBuf) (s : State),
    (s.scheme = 0 → exec (.fecenc bd bs) s = exec (.nrzenc bd bs) s) ∧
    (s.scheme = 1 → exec (.fecenc bd bs) s = exec (.manenc bd bs) s) ∧
    (s.scheme = 2 → exec (.fecenc bd bs) s = exec (.repenc bd bs) s) ∧
    (s.scheme = 3 → exec (.fecenc bd bs) s = exec (.hamenc bd bs) s) ∧
    (3 < s.scheme.toNat → exec (.fecenc bd bs) s = .next (takeFault ⟨.invalidArgumentScheme, s.scheme.toNat⟩ s)) ∧
    (s.scheme.toNat ≤ 3 → codeLength s.scheme.toNat s.b[bs].length ≤ bcap → ∃ o : BitSeq,
      exec (.fecenc bd bs) s
        = .next { s with b := s.b.set bd o, payload := BitVec.ofNat 64 s.b[bs].length,
                         padlen := if s.scheme = 3 then BitVec.ofNat 64 ((4 - s.b[bs].length % 4) % 4) else s.padlen,
                         repeatFactor := if s.scheme = 2 then 3 else s.repeatFactor, pc := s.pc + 1 } ∧
      o.length = codeLength s.scheme.toNat s.b[bs].length)

/-- 40_fec_bitcoding.md R129: `FECDEC` is the decoder that `SCHEME` selects; an unsupported scheme is named in the fault;
on a supported one the command completes with no more bits than it was given, but for a Repeat3 factor of 0. -/
def Obligations.FecdecDispatch : Prop :=
  ∀ (bd bs : BBuf) (s : State),
    (s.scheme = 0 → exec (.fecdec bd bs) s = exec (.nrzdec bd bs) s) ∧
    (s.scheme = 1 → exec (.fecdec bd bs) s = exec (.mandec bd bs) s) ∧
    (s.scheme = 2 → exec (.fecdec bd bs) s = exec (.repdec bd bs) s) ∧
    (s.scheme = 3 → exec (.fecdec bd bs) s = exec (.hamdec bd bs) s) ∧
    (3 < s.scheme.toNat → exec (.fecdec bd bs) s = .next (takeFault ⟨.invalidArgumentScheme, s.scheme.toNat⟩ s)) ∧
    (s.scheme.toNat ≤ 3 → (s.scheme = 2 → s.repeatFactor ≠ 0) → s.b[bs].length ≤ bcap → ∃ o : BitSeq,
      exec (.fecdec bd bs) s = .next { s with b := s.b.set bd o, pc := s.pc + 1 } ∧
      o.length ≤ s.b[bs].length ∧ o.length ≤ s.payload.toNat)

/-- 40_fec_bitcoding.md R131: for every supported scheme and every payload whose code fits, encoding and then decoding
the code gives the payload back. -/
def Obligations.FecRoundTrip : Prop :=
  ∀ (b0 b1 b3 : BBuf) (s : State), s.mode = .exec → s.scheme.toNat ≤ 3 →
    codeLength s.scheme.toNat s.b[b0].length ≤ bcap →
    ∃ t, execAll [.fecenc b1 b0, .fecdec b3 b1] s = .next t ∧ t.mode = .exec ∧ t.b[b3] = s.b[b0]

/-! ### Hamming(7,4) -/

/-- 41_hamming74.md R146, R154: `HENC4` gives the codeword of the table for the low 4 bits of its source, whatever the
bits above them. -/
def Obligations.HammingBlockEncode : Prop :=
  ∀ (xd xs : XReg) (s : State),
    exec (.henc4 xd xs) s
      = .next { s with
          x := s.x.set xd
            (([0x00, 0x69, 0x2A, 0x43, 0x4C, 0x25, 0x66, 0x0F, 0x70, 0x19, 0x5A, 0x33, 0x3C, 0x55, 0x16, 0x7F] :
              List Word).getD (s.x[xs].toNat % 16) 0),
          pc := s.pc + 1 }

/-- 41_hamming74.md R142, R145, R147: `HSYN7` gives `s1 + 2*s2 + 4*s3` of the code bits `c_j`, bit `7 - j` of the source. -/
def Obligations.HammingSyndrome : Prop :=
  ∀ (xd xs : XReg) (s : State) (c : Nat → Bool), (∀ j, c j = s.x[xs].getLsbD (7 - j)) → ∃ v : Word,
    exec (.hsyn7 xd xs) s = .next { s with x := s.x.set xd v, pc := s.pc + 1 } ∧
    v.toNat = (c 1 ^^ c 3 ^^ c 5 ^^ c 7).toNat + 2 * (c 2 ^^ c 3 ^^ c 6 ^^ c 7).toNat
      + 4 * (c 4 ^^ c 5 ^^ c 6 ^^ c 7).toNat

/-- 41_hamming74.md R148, R149: with the syndrome that `HSYN7` gives, `HCOR7` inverts register bit `7 - syndrome`, or none
for 0, and `HDEC7` gathers bits 4, 2, 1 and 0 of what `HCOR7` gives. -/
def Obligations.HammingCorrectAndDecode : Prop :=
  ∀ (xd xs : XReg) (s : State), ∃ syn v : Word,
    exec (.hsyn7 xd xs) s = .next { s with x := s.x.set xd syn, pc := s.pc + 1 } ∧
    exec (.hcor7 xd xs) s = .next { s with x := s.x.set xd v, pc := s.pc + 1 } ∧
    v.toNat = (if syn = 0 then s.x[xs].toNat % 128 else (s.x[xs].toNat % 128) ^^^ 2 ^ (7 - syn.toNat)) ∧
    exec (.hdec7 xd xs) s
      = .next { s with x := s.x.set xd (BitVec.ofNat 64 (8 * (v.getLsbD 4).toNat + 4 * (v.getLsbD 2).toNat
                         + 2 * (v.getLsbD 1).toNat + (v.getLsbD 0).toNat)), pc := s.pc + 1 }

/-- 41_hamming74.md R155, the single-error law: a codeword that `HENC4` made, with the code bit at position `q` inverted,
has syndrome `q + 1` and decodes to the block it was made from. -/
def Obligations.SingleErrorIsCorrected : Prop :=
  ∀ (s t u : State) (xs xc xd : XReg) (q : Nat), q < 7 → exec (.henc4 xc xs) s = .next t →
    u.x[xc].toNat % 128 = t.x[xc].toNat ^^^ 2 ^ (6 - q) →
    exec (.hsyn7 xd xc) u = .next { u with x := u.x.set xd (BitVec.ofNat 64 (q + 1)), pc := u.pc + 1 } ∧
    exec (.hdec7 xd xc) u = .next { u with x := u.x.set xd (BitVec.ofNat 64 (s.x[xs].toNat % 16)), pc := u.pc + 1 }

/-- 41_hamming74.md R150: `HAMENC` pads with zeros, encodes block by block and records `PAYLOAD` and `PADLEN`; a code that
does not fit raises `Capacity`. -/
def Obligations.HammingStreamEncode : Prop :=
  ∀ (bd bs : BBuf) (s : State) (d : Nat → Bool), (∀ j, d j = s.b[bs].getD j false) →
    (7 * ((s.b[bs].length + 3) / 4) ≤ bcap → ∃ o : BitSeq,
      exec (.hamenc bd bs) s
        = .next { s with b := s.b.set bd o, payload := BitVec.ofNat 64 s.b[bs].length,
                         padlen := BitVec.ofNat 64 ((4 - s.b[bs].length % 4) % 4), pc := s.pc + 1 } ∧
      o.length = 7 * ((s.b[bs].length + 3) / 4) ∧
      ∀ k < (s.b[bs].length + 3) / 4, (o.drop (7 * k)).take 7 =
        [d (4 * k) ^^ d (4 * k + 1) ^^ d (4 * k + 3), d (4 * k) ^^ d (4 * k + 2) ^^ d (4 * k + 3), d (4 * k),
         d (4 * k + 1) ^^ d (4 * k + 2) ^^ d (4 * k + 3), d (4 * k + 1), d (4 * k + 2), d (4 * k + 3)]) ∧
    (bcap < 7 * ((s.b[bs].length + 3) / 4) →
      exec (.hamenc bd bs) s = .next (takeFault ⟨.capacity, 7 * ((s.b[bs].length + 3) / 4)⟩ s))

/-- 41_hamming74.md R151, R152, R153: `HAMDEC` decodes each whole 7-bit block, drops `PADLEN` bits from the tail (all, where
there are fewer) and truncates to `PAYLOAD`. -/
def Obligations.HammingStreamDecode : Prop :=
  ∀ (bd bs : BBuf) (s : State), s.b[bs].length ≤ bcap → ∃ o : BitSeq,
    exec (.hamdec bd bs) s
      = .next { s with b := s.b.set bd ((o.take (o.length - s.padlen.toNat)).take s.payload.toNat), pc := s.pc + 1 } ∧
    o.length = 4 * (s.b[bs].length / 7) ∧
    ∀ k < s.b[bs].length / 7, (o.drop (4 * k)).take 4 = dec7 ((s.b[bs].drop (7 * k)).take 7)

/-- 41_hamming74.md R151 (corner cases), R155: a code that `HAMENC` made, received with at most one inverted bit in each
7-bit block, decodes to the payload. -/
def Obligations.HammingStreamCorrectsOneErrorPerBlock : Prop :=
  ∀ (s t u : State) (bp bc br bd : BBuf), exec (.hamenc bc bp) s = .next t → t.mode ≠ .fault →
    u.payload = t.payload → u.padlen = t.padlen → u.b[br].length = t.b[bc].length →
    (∀ k, ((List.range 7).filter fun j => u.b[br][7 * k + j]? != t.b[bc][7 * k + j]?).length ≤ 1) →
    exec (.hamdec bd br) u = .next { u with b := u.b.set bd s.b[bp], pc := u.pc + 1 }

/-! ### Seeds and chips -/

/-- 42_prn.md R161, R162, R168: on the bits of a byte string `m`, most significant first, `DSEED` gives the first 8 digest
bytes of `m` as a big-endian number; a buffer that is no whole number of bytes raises `Operand` with its length. -/
def Obligations.DeriveSeedCommand : Prop :=
  ∀ (xd : XReg) (bs : BBuf) (s : State),
    (∀ m : List (BitVec 8), s.b[bs] = m.flatMap (fun y => (List.range 8).map fun i => y.getLsbD (7 - i)) →
      ∃ v : Word, exec (.dseed xd bs) s = .next { s with x := s.x.set xd v, pc := s.pc + 1 } ∧
        v.toNat = ((List.range 8).map fun j => ((sha256 m).getD j 0).toNat * 2 ^ (56 - 8 * j)).sum) ∧
    (s.b[bs].length % 8 ≠ 0 → exec (.dseed xd bs) s = .next (takeFault ⟨.operand, s.b[bs].length⟩ s))

/-- 42_prn.md R163, R164, R166: `PRNGEN` writes `CPB` chips, each `+1.0` or `-1.0`, at the chip rate, the same for equal
seeds and equal `CPB` in every state and buffer; a `CPB` above the capacity raises `Capacity`. -/
def Obligations.GenerateChips : Prop :=
  ∀ (wd wd' : WBuf) (xs xs' : XReg) (s s' : State),
    (s.cpb.toNat ≤ wcap → s'.x[xs'] = s.x[xs] → s'.cpb = s.cpb → ∃ p : List Sys2Proof.Num,
      exec (.prngen wd xs) s = .next { s with w := s.w.set wd ⟨p, s.chiprate⟩, pc := s.pc + 1 } ∧
      exec (.prngen wd' xs') s' = .next { s' with w := s'.w.set wd' ⟨p, s'.chiprate⟩, pc := s'.pc + 1 } ∧
      p.length = s.cpb.toNat ∧ ∀ c ∈ p, c = num.one ∨ c = num.negOne) ∧
    (wcap < s.cpb.toNat → exec (.prngen wd xs) s = .next (takeFault ⟨.capacity, s.cpb.toNat⟩ s))

/-- 42_prn.md R169: the reference generator has `ImpostorProperty`; the sum is -4. -/
def Obligations.ReferenceGeneratorHasImpostorProperty : Prop :=
  chipAgreement xs64Sign 0x8ED3F6AD685B959E 0x6D4A29A6DA82457C 20 = -4 ∧ ImpostorProperty xs64Sign

/-! ### Spreading and despreading -/

/-- 43_spread_despread.md R181: `SPREAD`, its `Operand` check first, its zero vector for no bits, and its `Capacity` fault. -/
def Obligations.SpreadCommand : Prop :=
  ∀ (wd : WBuf) (bs : BBuf) (wp : WBuf) (s : State) (v : BitSeq) (p : List Sys2Proof.Num) (n : Nat),
    v = s.b[bs] → p = s.w[wp].data → n = s.cpb.toNat →
    (p.length ≠ n → exec (.spread wd bs wp) s = .next (takeFault ⟨.operand, p.length⟩ s)) ∧
    (p.length = n → v = [] → n ≤ wcap → exec (.spread wd bs wp) s
      = .next { s with w := s.w.set wd ⟨List.replicate n num.zero, s.chiprate⟩, pc := s.pc + 1 }) ∧
    (p.length = n → v = [] → wcap < n → exec (.spread wd bs wp) s = .next (takeFault ⟨.capacity, n⟩ s)) ∧
    (p.length = n → v ≠ [] → v.length * n ≤ wcap → ∃ o : List Sys2Proof.Num,
      exec (.spread wd bs wp) s = .next { s with w := s.w.set wd ⟨o, s.chiprate⟩, pc := s.pc + 1 } ∧
      o.length = v.length * n ∧
      ∀ (k j : Nat) (bit : Bool) (chip : Sys2Proof.Num), v[k]? = some bit → p[j]? = some chip →
        o[k * n + j]? = some (num.mul (if bit then num.one else num.negOne) chip)) ∧
    (p.length = n → v ≠ [] → wcap < v.length * n →
      exec (.spread wd bs wp) s = .next (takeFault ⟨.capacity, v.length * n⟩ s))

/-- 43_spread_despread.md R183: `OVSAMP` holds each sample `OVS` times and multiplies the rate, or raises `Capacity`. -/
def Obligations.OversampleCommand : Prop :=
  ∀ (wd ws : WBuf) (s : State) (v : Wave) (f : Nat), v = s.w[ws] → f = s.ovs.toNat →
    (v.data.length * f ≤ wcap → ∃ o : List Sys2Proof.Num,
      exec (.ovsamp wd ws) s = .next { s with w := s.w.set wd ⟨o, num.mul v.rate (num.ofNat f)⟩, pc := s.pc + 1 } ∧
      o.length = v.data.length * f ∧ ∀ i, ∀ m < f, o[i * f + m]? = v.data[i]?) ∧
    (wcap < v.data.length * f →
      exec (.ovsamp wd ws) s = .next (takeFault ⟨.capacity, v.data.length * f⟩ s))

/-- 43_spread_despread.md R184, R186: `CHMEAN` with a positive window gives the mean of each whole window, the sum taken in
index order from `0.0`; a window of zero or less, read as signed, raises `InvalidArgument_Window` with its pattern. -/
def Obligations.WindowedMeanCommand : Prop :=
  ∀ (wd ws : WBuf) (xw : XReg) (s : State) (v : Wave) (w : Nat), v = s.w[ws] → w = s.x[xw].toNat →
    (s.x[xw].toInt ≤ 0 → exec (.chmean wd ws xw) s = .next (takeFault ⟨.invalidArgumentWindow, w⟩ s)) ∧
    (0 < s.x[xw].toInt → v.data.length ≤ wcap → ∃ o : List Sys2Proof.Num,
      exec (.chmean wd ws xw) s = .next { s with w := s.w.set wd ⟨o, num.div v.rate (num.ofNat w)⟩, pc := s.pc + 1 } ∧
      o.length = v.data.length / w ∧
      ∀ k < v.data.length / w,
        o[k]? = some (num.div (((v.data.drop (k * w)).take w).foldl num.add num.zero) (num.ofNat w)))

/-- 43_spread_despread.md R187: `DESPRD`, its three checks in order, then the three steps: mean over `OVS`, product with
the tiled chips, mean over `CPB`. -/
def Obligations.DespreadCommand : Prop :=
  ∀ (wd ws wp : WBuf) (s : State) (r : Wave) (q : List Sys2Proof.Num) (f n : Nat),
    r = s.w[ws] → q = s.w[wp].data → f = s.ovs.toNat → n = s.cpb.toNat →
    (f = 0 → exec (.desprd wd ws wp) s = .next (takeFault ⟨.invalidArgumentWindow, 0⟩ s)) ∧
    (f ≠ 0 → q.length ≠ n → exec (.desprd wd ws wp) s = .next (takeFault ⟨.operand, q.length⟩ s)) ∧
    (f ≠ 0 → q.length = n → n = 0 → exec (.desprd wd ws wp) s = .next (takeFault ⟨.invalidArgumentWindow, 0⟩ s)) ∧
    (f ≠ 0 → q.length = n → n ≠ 0 → r.data.length ≤ wcap → ∃ a b m : List Sys2Proof.Num,
      exec (.desprd wd ws wp) s
        = .next { s with w := s.w.set wd ⟨m, num.div r.rate (num.mul (num.ofNat f) (num.ofNat n))⟩, pc := s.pc + 1 } ∧
      a.length = r.data.length / f ∧
      (∀ k < a.length, a[k]? = some (num.div (((r.data.drop (k * f)).take f).foldl num.add num.zero) (num.ofNat f))) ∧
      b.length = a.length ∧
      (∀ (i : Nat) (y chip : Sys2Proof.Num), a[i]? = some y → q[i % n]? = some chip → b[i]? = some (num.mul y chip)) ∧
      m.length = b.length / n ∧
      (∀ k < m.length, m[k]? = some (num.div (((b.drop (k * n)).take n).foldl num.add num.zero) (num.ofNat n))))

/-- 43_spread_despread.md R188: `SLICE` decides 1 for each metric above `0.0`, else 0, or raises `Capacity`. -/
def Obligations.SliceCommand : Prop :=
  ∀ (bd : BBuf) (ws : WBuf) (s : State) (m : List Sys2Proof.Num), m = s.w[ws].data →
    (m.length ≤ bcap → ∃ o : BitSeq,
      exec (.slice bd ws) s = .next { s with b := s.b.set bd o, pc := s.pc + 1 } ∧
      o.length = m.length ∧ ∀ (k : Nat) (y : Sys2Proof.Num), m[k]? = some y → o[k]? = some (num.gt0 y)) ∧
    (bcap < m.length → exec (.slice bd ws) s = .next (takeFault ⟨.capacity, m.length⟩ s))

/-- 43_spread_despread.md R189, the despreading law in Num-real: the despreader is the linear form given there; on spread
and oversampled bits each metric is the bit's level times the one correlation `rho`, so the slicer gives the bits back
for `rho > 0` (in particular for equal chips), all zeros for `rho = 0`, and the complement for `rho < 0`. -/
def Obligations.DespreadingLaw : Prop :=
  ∀ (s : BitSeq) (p q : List ℝ) (n f : Nat) (rho : ℝ), s ≠ [] → 1 ≤ n → 1 ≤ f → p.length = n → q.length = n →
    (∀ c ∈ p, c = 1 ∨ c = -1) → (∀ c ∈ q, c = 1 ∨ c = -1) →
    rho = (∑ j ∈ Finset.range n, p.getD j 0 * q.getD j 0) / n →
    (∀ r : List ℝ, r.length = s.length * n * f → ∀ k < s.length, (despread realOps r q f n)[k]? =
      some ((1 / ((n : ℝ) * f)) *
        ∑ j ∈ Finset.range n, ∑ u ∈ Finset.range f, q.getD j 0 * r.getD ((k * n + j) * f + u) 0)) ∧
    despread realOps (hold f (spreadBits realOps n s p)) q f n = s.map (fun bit => (if bit then 1 else -1) * rho) ∧
    (q = p → rho = 1) ∧
    (0 < rho → sliceBits realOps (despread realOps (hold f (spreadBits realOps n s p)) q f n) = s) ∧
    (rho = 0 → sliceBits realOps (despread realOps (hold f (spreadBits realOps n s p)) q f n) = s.map fun _ => false) ∧
    (rho < 0 → sliceBits realOps (despread realOps (hold f (spreadBits realOps n s p)) q f n) = s.map fun bit => !bit)

/-! ### Carrier and noise -/

/-- 44_carrier.md R200, R201, R202: `MODUL` and `DEMOD` multiply each sample by `cos(((2.0 * pi) * FC) * (i / rate))` and
copy the rate; a rate not above `0.0` raises `Operand(0)`, for an empty buffer too. -/
def Obligations.CarrierCommands : Prop :=
  ∀ (wd ws : WBuf) (s : State) (v : Wave), v = s.w[ws] →
    (num.gt0 v.rate = true → v.data.length ≤ wcap → ∃ o : List Sys2Proof.Num,
      exec (.modul wd ws) s = .next { s with w := s.w.set wd ⟨o, v.rate⟩, pc := s.pc + 1 } ∧
      exec (.demod wd ws) s = .next { s with w := s.w.set wd ⟨o, v.rate⟩, pc := s.pc + 1 } ∧
      o.length = v.data.length ∧
      ∀ (i : Nat) (y : Sys2Proof.Num), v.data[i]? = some y → o[i]? = some (num.mul y
        (num.cos (num.mul (num.mul (num.mul (num.ofNat 2) num.pi) s.fc) (num.div (num.ofNat i) v.rate))))) ∧
    (num.gt0 v.rate = false →
      exec (.modul wd ws) s = .next (takeFault ⟨.operand, 0⟩ s) ∧
      exec (.demod wd ws) s = .next (takeFault ⟨.operand, 0⟩ s))

/-- 44_carrier.md R204 (a), in Num-real: without noise and with equal chips, the receiver recovers every bit, for every
carrier frequency and every positive chip rate, when a bit has two samples or more. -/
def Obligations.LinkRecoversEveryBit : Prop :=
  ∀ (s : BitSeq) (p : List ℝ) (n f : Nat) (fc chiprate rate : ℝ), s ≠ [] → 1 ≤ n → 1 ≤ f → 2 ≤ n * f →
    p.length = n → (∀ c ∈ p, c = 1 ∨ c = -1) → 0 < chiprate → rate = chiprate * f →
    sliceBits realOps (despread realOps
      (carrierMul realOps fc rate (carrierMul realOps fc rate (hold f (spreadBits realOps n s p)))) p f n) = s

/-- 45_noise.md R211, R212, R213: `NOISEW` adds `sqrt(NPOW)` times one unit sample to each sample, from the generator of
`NSEED` or from fresh draws, which it then has taken; with no power or no samples it copies and takes none. That a draw is
a free value at the counter `draws` is the model's choice, log 8. -/
def Obligations.WhiteNoiseCommand : Prop :=
  ∀ (wd ws : WBuf) (s : State) (v : Wave) (g : List Sys2Proof.Num), v = s.w[ws] → v.data.length ≤ wcap →
    g = (if s.nseeden then gaussGen s.nseed v.data.length else drawsFrom s.draws v.data.length) →
    (num.gt0 s.npow = false ∨ v.data = [] →
      exec (.noisew wd ws) s = .next { s with w := s.w.set wd v, pc := s.pc + 1 }) ∧
    (num.gt0 s.npow = true → v.data ≠ [] → ∃ o : List Sys2Proof.Num,
      exec (.noisew wd ws) s
        = .next { s with w := s.w.set wd ⟨o, v.rate⟩,
                         draws := if s.nseeden then s.draws else s.draws + v.data.length, pc := s.pc + 1 } ∧
      o.length = v.data.length ∧
      ∀ (i : Nat) (y z : Sys2Proof.Num), v.data[i]? = some y → g[i]? = some z → o[i]? = some (num.add y (num.mul (num.sqrt s.npow) z)))

/-- 45_noise.md R214 to R216, R218: `NOISEB`, its pass-through, its `Operand` fault, and the noise it adds: the bins whose
frequency is not above the cut-off, the shaping sum over them, its mean and its deviation with divisor `N`, and the shaped
samples divided by the deviation and scaled by `sqrt(NPOW)`, or zeros where the deviation is zero. The order of the
additions in the shaping sum is the model's choice, log 10, and that a draw is a free value at the counter `draws`, log 8. -/
def Obligations.BandNoiseCommand : Prop :=
  ∀ (wd ws : WBuf) (s : State) (v : Wave) (N : Nat) (g y : List Sys2Proof.Num) (cut mu sd : Sys2Proof.Num)
    (freq : Nat → Sys2Proof.Num) (keep : Nat → Bool), v = s.w[ws] → N = v.data.length → N ≤ wcap →
    g = (if s.nseeden then gaussGen s.nseed N else drawsFrom s.draws N) →
    cut = num.min (num.div s.nbw (num.ofNat 2)) (num.div v.rate (num.ofNat 2)) →
    (∀ k, freq k = if 2 * k < N then num.div (num.mul (num.ofNat k) v.rate) (num.ofNat N)
      else num.mul num.negOne (num.div (num.mul (num.ofNat (N - k)) v.rate) (num.ofNat N))) →
    (∀ k, keep k = !num.absGt (freq k) cut) →
    y = (List.range N).map (fun t => num.mul (num.div num.one (num.ofNat N))
      (((List.range N).filter keep).foldl (fun acc k => (List.range N).foldl (fun acc u =>
        num.add acc (num.mul (g.getD u num.zero) (num.cos (num.div
          (num.mul (num.mul (num.ofNat 2) num.pi) (num.ofNat (k * (t - u + (u - t)) % N))) (num.ofNat N))))) acc)
        num.zero)) →
    mu = num.div (y.foldl num.add num.zero) (num.ofNat N) →
    sd = num.sqrt (num.div
      (y.foldl (fun acc a => num.add acc (num.mul (num.sub a mu) (num.sub a mu))) num.zero) (num.ofNat N)) →
    (num.gt0 s.npow = false ∨ num.gt0 s.nbw = false ∨ (num.gt0 v.rate = true ∧ v.data = []) →
      exec (.noiseb wd ws) s = .next { s with w := s.w.set wd v, pc := s.pc + 1 }) ∧
    (num.gt0 s.npow = true → num.gt0 s.nbw = true → num.gt0 v.rate = false →
      exec (.noiseb wd ws) s = .next (takeFault ⟨.operand, 0⟩ s)) ∧
    (num.gt0 s.npow = true → num.gt0 s.nbw = true → num.gt0 v.rate = true → v.data ≠ [] → ∃ o : List Sys2Proof.Num,
      exec (.noiseb wd ws) s
        = .next { s with w := s.w.set wd ⟨o, v.rate⟩,
                         draws := if s.nseeden then s.draws else s.draws + N, pc := s.pc + 1 } ∧
      o.length = N ∧
      ∀ (i : Nat) (a z : Sys2Proof.Num), v.data[i]? = some a → y[i]? = some z → o[i]? = some (num.add a
        (if num.eq0 sd then num.zero else num.mul (num.div z sd) (num.sqrt s.npow))))

/-- 45_noise.md R217: `ADDNOISE` is the command that `NMODE` selects, all 64 bits compared; a reserved mode raises `Operand`
with it; otherwise, where `NOISEB` would not fault, it completes with the length and the rate of its source. R220: with
`NPOW = 0.0` the three noise commands, `ADDNOISE` in either legal mode, copy data and rate and take no draw. That the
commands compared take the same unseeded draws is the model's choice, log 8. -/
def Obligations.AddNoiseDispatch : Prop :=
  ∀ (wd ws : WBuf) (s : State) (v : Wave), v = s.w[ws] →
    (s.nmode = 0 → exec (.addnoise wd ws) s = exec (.noisew wd ws) s) ∧
    (s.nmode = 1 → exec (.addnoise wd ws) s = exec (.noiseb wd ws) s) ∧
    (1 < s.nmode.toNat → exec (.addnoise wd ws) s = .next (takeFault ⟨.operand, s.nmode.toNat⟩ s)) ∧
    (v.data.length ≤ wcap → (s.nmode = 0 ∨ s.nmode = 1 ∧ num.gt0 v.rate = true) → ∃ (o : List Sys2Proof.Num) (k : Nat),
      exec (.addnoise wd ws) s = .next { s with w := s.w.set wd ⟨o, v.rate⟩, draws := k, pc := s.pc + 1 } ∧
      o.length = v.data.length ∧ s.draws ≤ k ∧ k ≤ s.draws + v.data.length) ∧
    (v.data.length ≤ wcap → s.npow = num.zero → s.nmode.toNat ≤ 1 →
      ∀ i ∈ [Instr.noisew wd ws, .noiseb wd ws, .addnoise wd ws],
        exec i s = .next { s with w := s.w.set wd v, pc := s.pc + 1 })

/-- 45_noise.md R219, in Num-real, for the term `z` that `NOISEB` adds to `N` samples, `y` the shaped samples: (a) where the
variance of `y` is not zero, the population variance of `z`, the sum of the squared differences from the mean divided by
`N`, is exactly the noise power; (b) the transform of `z` is zero in every bin whose frequency is above the cut-off; (c)
with a bandwidth of at least the sample rate nothing is masked, and `z` is the drawn samples divided by their own
deviation, times the root of the power. -/
def Obligations.BandNoiseHasItsPower : Prop :=
  ∀ (fs pow bw : ℝ) (g y z : List ℝ) (N : Nat), 0 < fs → 0 < pow → 0 < bw → g ≠ [] → N = g.length →
    y = shape realOps g (keepBin realOps N fs bw) → z = bandNoise realOps fs pow bw g →
    ((y.map fun a => (a - y.sum / N) ^ (2 : ℕ)).sum / (N : ℝ) ≠ 0 →
      (z.map fun a => (a - z.sum / N) ^ (2 : ℕ)).sum / (N : ℝ) = pow) ∧
    (∀ k < N, min (bw / 2) (fs / 2) < |if 2 * k < N then k * fs / N else -((N - k : ℕ) * fs / N : ℝ)| →
      ∑ u ∈ Finset.range N, z.getD u 0 * Real.cos (2 * Real.pi * k * u / N) = 0 ∧
      ∑ u ∈ Finset.range N, z.getD u 0 * Real.sin (2 * Real.pi * k * u / N) = 0) ∧
    (fs ≤ bw → (∀ k < N, keepBin realOps N fs bw k = true) ∧
      ∀ sd, sd = Real.sqrt ((g.map fun a => (a - g.sum / N) ^ (2 : ℕ)).sum / (N : ℝ)) → sd ≠ 0 →
        z = g.map fun a => a / sd * Real.sqrt pow)

/-! ### `RUN` and the host port -/

/-- 47_system_run.md R252, R257, R258, R259, R261, 43_spread_despread.md R190: where none of the faults of R256 applies,
`RUN` completes; the lengths, rates and contents it leaves, its flags, its id, the metadata registers, and what it leaves
alone. The contents are said by the commands of R252: in the state `u` that holds the buffers and metadata `RUN` leaves,
each of its commands, executed again, makes the buffer that stands there. That `ADDNOISE`, executed again from the counter
that `s` had, takes the draws that `RUN` took is the model's choice, log 8: by R71 each execution has fresh ones. -/
def Obligations.RunCompletes : Prop :=
  ∀ (s : State) (n f L h : Nat) (rate : Sys2Proof.Num), n = s.cpb.toNat → f = s.ovs.toNat →
    L = codeLength s.scheme.toNat s.b[0].length → h = n * f → rate = num.mul s.chiprate (num.ofNat f) →
    s.b[0] ≠ [] → s.scheme.toNat ≤ 3 → s.nmode.toNat ≤ 1 → 1 ≤ n → L ≤ bcap → L * n * f ≤ wcap →
    num.gt0 rate = true →
    ∃ (b : Vector BitSeq 8) (w : Vector Wave 8) (t : Vector Wave 6) (mismatch : Bool) (padlen factor : Word) (k : Nat)
      (u : State),
      u = { s with b := b, w := w, payload := BitVec.ofNat 64 s.b[0].length, padlen := padlen, repeatFactor := factor } ∧
      exec .run s = .next { u with t := t, mismatch := mismatch, tapv := true, runid := s.runid + 1, draws := k,
                                   pc := s.pc + 1 } ∧
      (b[0] = s.b[0] ∧ b[4] = s.b[4] ∧ b[5] = s.b[5] ∧ b[6] = s.b[6] ∧ b[7] = s.b[7]) ∧
      (b[1].length = L ∧ b[2].length = L ∧ b[3].length = s.b[0].length) ∧
      (w[0].data.length = n ∧ w[1].data.length = n ∧ w[2].data.length = L * n ∧ w[3].data.length = L * n * f ∧
        w[4].data.length = L * n * f ∧ w[5].data.length = L * n * f ∧ w[6].data.length = L * n * f ∧
        w[7].data.length = L) ∧
      (w[0].rate = s.chiprate ∧ w[1].rate = s.chiprate ∧ w[2].rate = s.chiprate ∧ w[3].rate = rate ∧ w[4].rate = rate ∧
        w[5].rate = rate ∧ w[6].rate = rate ∧
        w[7].rate = num.div rate (num.mul (num.ofNat f) (num.ofNat n))) ∧
      (padlen = if s.scheme = 3 then BitVec.ofNat 64 ((4 - s.b[0].length % 4) % 4) else s.padlen) ∧
      (factor = if s.scheme = 2 then 3 else s.repeatFactor) ∧
      (w[0].data = chipGen s.seedtx n ∧ w[1].data = chipGen s.seedrx n) ∧
      (∀ i ∈ [Instr.fecenc 1 0, .spread 2 1 0, .ovsamp 3 2, .modul 4 3, .demod 6 5, .desprd 7 6 1, .slice 2 7, .fecdec 3 2],
        exec i u = .next { u with pc := s.pc + 1 }) ∧
      exec (.addnoise 5 4) u = .next { u with draws := k, pc := s.pc + 1 } ∧
      (∀ i : Fin 6, t[i].rate = rate) ∧
      (t[0].data.length = s.b[0].length * h ∧ t[1].data.length = L * h ∧ t[2].data.length = L * h ∧
        t[3].data.length = L * h ∧ t[4].data.length = L * h ∧ t[5].data.length = L * h) ∧
      (t[1].data = w[3].data ∧ t[2].data = w[4].data ∧ t[3].data = w[5].data) ∧
      (∀ i, ∀ m < h, t[0].data[i * h + m]? = b[0][i]?.map (fun bit => num.ofNat bit.toNat) ∧
        t[4].data[i * h + m]? = w[7].data[i]? ∧
        t[5].data[i * h + m]? = b[2][i]?.map (fun bit => num.ofNat bit.toNat)) ∧
      (mismatch = true ↔ b[3] ≠ b[0])

/-- 47_system_run.md R253, R254, R256: the faults of `RUN`, the first of them in the order given there, each with nothing
written but the fault record. -/
def Obligations.RunFaultTable : Prop :=
  ∀ (s : State) (n f L : Nat), n = s.cpb.toNat → f = s.ovs.toNat → L = codeLength s.scheme.toNat s.b[0].length →
    (s.b[0] = [] → exec .run s = .next (takeFault ⟨.operand, 0⟩ s)) ∧
    (s.b[0] ≠ [] → 3 < s.scheme.toNat →
      exec .run s = .next (takeFault ⟨.invalidArgumentScheme, s.scheme.toNat⟩ s)) ∧
    (s.b[0] ≠ [] → s.scheme.toNat ≤ 3 →
      (bcap < L → exec .run s = .next (takeFault ⟨.capacity, L⟩ s)) ∧
      (L ≤ bcap → wcap < n → exec .run s = .next (takeFault ⟨.capacity, n⟩ s)) ∧
      (L ≤ bcap → n ≤ wcap → wcap < L * n → exec .run s = .next (takeFault ⟨.capacity, L * n⟩ s)) ∧
      (L ≤ bcap → n ≤ wcap → L * n ≤ wcap → wcap < L * n * f →
        exec .run s = .next (takeFault ⟨.capacity, L * n * f⟩ s)) ∧
      (L ≤ bcap → n ≤ wcap → L * n ≤ wcap → L * n * f ≤ wcap →
        (num.gt0 (num.mul s.chiprate (num.ofNat f)) = false → exec .run s = .next (takeFault ⟨.operand, 0⟩ s)) ∧
        (num.gt0 (num.mul s.chiprate (num.ofNat f)) = true → 1 < s.nmode.toNat →
          exec .run s = .next (takeFault ⟨.operand, s.nmode.toNat⟩ s)) ∧
        (num.gt0 (num.mul s.chiprate (num.ofNat f)) = true → s.nmode.toNat ≤ 1 → n = 0 →
          exec .run s = .next (takeFault ⟨.invalidArgumentWindow, 0⟩ s))))

/-- 47_system_run.md R266: a `RUN` that completes leaves the buffers and the metadata registers that its program leaves,
started in the same state with the seeds in `x1` and `x2`, and the program's `x3` is `MISMATCH`. That both take the same
draws is the model's choice, log 8: a draw is a free value at the counter `draws`, which both start from. -/
def Obligations.RunIsItsProgram : Prop :=
  ∀ s t : State, s.mode = .exec → s.x[1] = s.seedtx → s.x[2] = s.seedrx → exec .run s = .next t → t.mode = .exec →
    ∃ u, execAll runProgram s = .next u ∧ u.mode = .exec ∧ u.b = t.b ∧ u.w = t.w ∧ u.payload = t.payload ∧
      u.padlen = t.padlen ∧ u.repeatFactor = t.repeatFactor ∧ u.draws = t.draws ∧
      u.x[3] = (if t.mismatch then 1 else 0) ∧ u.t = s.t ∧ u.tapv = s.tapv ∧ u.mismatch = s.mismatch ∧ u.runid = s.runid

/-- 47_system_run.md R260 (a) and (b), in Num-real, for every generator, every carrier frequency and all capacities that
suffice: without noise `RUN` completes; with equal seeds every bit is recovered; where `FC / (CHIPRATE * OVS)` is a multiple
of 1/2, the agreement of the two chip sequences alone decides: every bit, all zeros, or the complement; so with the two
seeds of `ImpostorProperty` (42_prn.md R169) and a payload that is not all zeros, `MISMATCH` is set. A payload is shorter
than 2^64 bits, so that `PAYLOAD` can hold its length. -/
def Obligations.RunLawsInNumReal : Prop :=
  ∀ (P : Params ℝ) (s : State.Of ℝ) (n f L : Nat) (rho : Int), P.num = realOps → n = s.cpb.toNat → f = s.ovs.toNat →
    L = codeLength s.scheme.toNat s.b[0].length → rho = chipAgreement P.chipSign s.seedtx s.seedrx n →
    s.b[0] ≠ [] → s.b[0].length < 2 ^ 64 → s.scheme.toNat ≤ 3 → s.nmode.toNat ≤ 1 → 0 < s.chiprate → 1 ≤ n → 1 ≤ f →
    2 ≤ n * f → L ≤ bcapOf P → L * n * f ≤ P.wcap → s.npow = 0 →
    ∃ t, execIn P .run s = .next t ∧ t.runid = s.runid + 1 ∧
      (s.seedtx = s.seedrx → t.b[2] = t.b[1] ∧ t.b[3] = s.b[0] ∧ t.mismatch = false) ∧
      ((∃ k : ℤ, s.fc / (s.chiprate * f) = k / 2) →
        (0 < rho → t.b[2] = t.b[1] ∧ t.b[3] = s.b[0] ∧ t.mismatch = false) ∧
        (rho = 0 → t.b[2] = t.b[1].map (fun _ => false) ∧ t.b[3] = s.b[0].map (fun _ => false)) ∧
        (rho < 0 → t.b[2] = t.b[1].map (fun bit => !bit) ∧ t.b[3] = s.b[0].map (fun bit => !bit)) ∧
        (s.seedtx = 0x8ED3F6AD685B959E → s.seedrx = 0x6D4A29A6DA82457C → n = 20 → ImpostorProperty P.chipSign →
          true ∈ s.b[0] → t.mismatch = true ∧ t.b[3] ≠ s.b[0]))

/-- 20_memory.md R75, R76, R77, 60_exceptions.md R313: in `EXEC` the host has reset alone; `HostStart` and `HostFclr`; a
tap is read under the id of the latest completed run and no other; what the host writes to a scalar register, to a control
register with access "read, write", to a real control register (10_state.md R32, R33) or to a buffer that can hold it, it
reads back; a write to a read-only or an unknown register number is refused. The last clause is the model's choice, log 14:
an integer written to a real register is refused, and a `Num` written to an integer register. -/
def Obligations.HostPortOperations : Prop :=
  (∀ op s, s.mode = .exec → op ≠ .reset → hostStep op s = .noMove) ∧
  (∀ P s, s.mode = .idle → P.length < 2 ^ 32 →
    hostStep (.start P) s = .answer .done { s with stream := P, pc := 0, done := false, mode := .exec }) ∧
  (∀ s, s.mode = .fault → hostStep .fclr s = .answer .done { s with cause := 0, mode := .idle }) ∧
  (∀ id i s, s.mode ≠ .exec → hostStep (.readT id i) s =
    if h : s.tapv = true ∧ id = s.runid ∧ i < 6 then .answer (.wave (s.t[i]'h.2.2)) s else .answer .notFound s) ∧
  (∀ i v s, s.mode ≠ .exec → ∃ t, hostStep (.writeX i v) s = .answer .done t ∧
    t = { s with x := s.x.set i v } ∧ hostStep (.readX i) t = .answer (.word v) t) ∧
  (∀ i v s, s.mode ≠ .exec → v.length ≤ bcap → ∃ t, hostStep (.writeB i v) s = .answer .done t ∧
    t = { s with b := s.b.set i v } ∧ hostStep (.readB i) t = .answer (.bits v) t) ∧
  (∀ i v r s, s.mode ≠ .exec → v.length ≤ wcap → ∃ t, hostStep (.writeW i v r) s = .answer .done t ∧
    t = { s with w := s.w.set i ⟨v, r⟩ } ∧ hostStep (.readW i) t = .answer (.wave ⟨v, r⟩) t) ∧
  (∀ i v s, s.mode ≠ .exec → bcap < v.length → hostStep (.writeB i v) s = .answer .refused s) ∧
  (∀ i v r s, s.mode ≠ .exec → wcap < v.length → hostStep (.writeW i v r) s = .answer .refused s) ∧
  (∀ (v : Word) (s : State), s.mode ≠ .exec →
    ∀ e ∈ ([(0x010, { s with scheme := v }), (0x011, { s with cpb := v }), (0x012, { s with ovs := v }),
        (0x013, { s with nmode := v }), (0x014, { s with payload := v }), (0x015, { s with padlen := v }),
        (0x016, { s with repeatFactor := v }), (0x017, { s with seedtx := v }), (0x018, { s with seedrx := v }),
        (0x019, { s with nseeden := v.getLsbD 0 }), (0x01A, { s with nseed := v })] : List (BitVec 12 × State)),
      hostStep (.writeCsr e.1 (.int v)) s = .answer .done e.2 ∧
      hostStep (.readCsr e.1) e.2 = .answer (.word (if e.1 = 0x019 then v &&& 1 else v)) e.2) ∧
  (∀ (v : Sys2Proof.Num) (s : State), s.mode ≠ .exec →
    ∀ e ∈ ([(0x020, { s with chiprate := v }), (0x021, { s with fc := v }), (0x022, { s with npow := v }),
        (0x023, { s with nbw := v })] : List (BitVec 12 × State)),
      hostStep (.writeCsr e.1 (.real v)) s = .answer .done e.2 ∧
      hostStep (.readCsr e.1) e.2 = .answer (.real v) e.2) ∧
  (∀ s : State, s.mode ≠ .exec →
    ∀ e ∈ ([(0x000, statusWord s), (0x001, s.cause), (0x002, s.fpc), (0x003, s.finfo), (0x004, s.runid)] :
        List (BitVec 12 × Word)), hostStep (.readCsr e.1) s = .answer (.word e.2) s) ∧
  (∀ n v s, s.mode ≠ .exec → n.toNat ∉ csrWriteNumbers → n.toNat ∉ [0x020, 0x021, 0x022, 0x023] →
    hostStep (.writeCsr n v) s = .answer .refused s) ∧
  (∀ n s, s.mode ≠ .exec →
    (∀ v, n.toNat ∈ [0x020, 0x021, 0x022, 0x023] → hostStep (.writeCsr n (.int v)) s = .answer .refused s) ∧
    (∀ v, n.toNat ∈ csrWriteNumbers → hostStep (.writeCsr n (.real v)) s = .answer .refused s))

/-! ### The host-side reference -/

/-- 48_host_reference.md R275, R274: "Run simulation" from `IDLE`, `u` the state in which the host has written the homes of
the inputs and started `RUN; HALT`. Where `RUN` completes, the result is the id, the bytes of `B3`, which are as many as the
message has, the mismatch flag, which says whether they differ from the message, and the six taps, and the sequencer is
idle with `DONE` set. Where it faults with `CAUSE` 1 or 2, InvalidArgument is reported and the fault cleared. That the id is
`RUNID`, and that with another cause the machine stays as the fault left it, are the model's choices, log 16. -/
def Obligations.HostRunsSimulation : Prop :=
  ∀ (α : Type) (P : Params α) (q : SimRequest α) (s u : State.Of α), s.mode = .idle →
    8 * q.message.length ≤ bcapOf P → 8 * q.message.length < 2 ^ 64 →
    u = { s with b := s.b.set 0 (q.message.flatMap fun y => (List.range 8).map fun i => y.getLsbD (7 - i)),
                 seedtx := deriveSeed q.txSecret, seedrx := deriveSeed q.rxSecret,
                 cpb := BitVec.ofNat 64 (max 8 (4 * q.txSecretLength)), chiprate := q.chipRate, fc := q.carrierFreq,
                 npow := q.noisePower, nbw := q.noiseBandwidth, ovs := q.oversampling, scheme := q.scheme,
                 nmode := q.noiseMode, stream := [0x03000000, 0x02000000], pc := 0, done := false, mode := .exec } →
    ∃ t, execIn P .run u = .next t ∧
      (t.mode = .exec → ∃ r, runSimulation P q s = (.result r, { t with done := true, mode := .idle, pc := 2 }) ∧
        r.id = s.runid + 1 ∧ r.mismatch = t.mismatch ∧ r.stages = [t.t[0], t.t[1], t.t[2], t.t[3], t.t[4], t.t[5]] ∧
        r.decoded.length = q.message.length ∧
        t.b[3] = (r.decoded.flatMap fun y => (List.range 8).map fun i => y.getLsbD (7 - i)) ∧
        (r.mismatch = true ↔ r.decoded ≠ q.message)) ∧
      (t.mode = .fault → t.cause = 1 ∨ t.cause = 2 →
        runSimulation P q s = (.invalidArgument t.cause t.finfo, { t with cause := 0, mode := .idle })) ∧
      (t.mode = .fault → t.cause ≠ 1 → t.cause ≠ 2 → runSimulation P q s = (.otherFault t.cause t.finfo, t))

/-- 48_host_reference.md R288, R285: "Query stage" gives the decimated waveform of the named stage's tap, with its rate,
and the decimated arrays of its spectrum under the id of the latest completed run, and NotFound under any other; after "Run
simulation" with a cache that holds an entry or more, the cache answers it in the same way; and what decimation keeps. That
the arrays are those of the whole waveform's spectrum, taken first and then decimated, and that the decimated waveform has
the rate of the tap, are the model's reading, log 16: R288 settles neither. -/
def Obligations.StageQueries : Prop :=
  ∀ (α : Type) (P : Params α) (maxPoints : Nat) (st : Stage) (i : Fin 6),
    (st, i) ∈ [(Stage.source, 0), (.spreader, 1), (.modulator, 2), (.channel, 3), (.correlator, 4), (.decoder, 5)] →
    (∀ (id : Word) (s : State.Of α), s.mode ≠ .exec → queryStage P maxPoints id st s =
      if s.tapv = true ∧ id = s.runid then
        some ⟨⟨decimate s.t[i].data maxPoints, s.t[i].rate⟩,
          (decimate (spectrum P.num s.t[i].data s.t[i].rate) maxPoints).map Prod.fst,
          (decimate (spectrum P.num s.t[i].data s.t[i].rate) maxPoints).map Prod.snd⟩
      else none) ∧
    (∀ (size : Nat) (q : SimRequest α) (cache cache' : StageCache α) (s t : State.Of α) (r : SimResult α), 1 ≤ size →
      runSimulationCached P size q cache s = (.result r, cache', t) → s.mode = .idle →
        queryStage P maxPoints r.id st t ≠ none ∧
        queryCache P.num maxPoints cache' r.id st = queryStage P maxPoints r.id st t) ∧
    (∀ l : List α, 1 ≤ maxPoints →
      (l.length ≤ maxPoints → decimate l maxPoints = l) ∧
      (maxPoints < l.length → (decimate l maxPoints).length ≤ maxPoints ∧
        ∀ stride, stride = (l.length + maxPoints - 1) / maxPoints →
          (decimate l maxPoints).length = (l.length + stride - 1) / stride ∧
          ∀ k, k * stride < l.length → (decimate l maxPoints)[k]? = l[k * stride]?))

/-- 48_host_reference.md R281, R282, R284: storing distinct ids into an empty cache leaves the last `size` of them, in the
order of insertion, and the ids before them are NotFound; storing an id again moves it to the end and evicts none. R286 in
Num-real: the spectrum of no samples is one zero point, else bin `k` has the frequency `k * fs / N` and the magnitude of the
`k`-th value of the discrete Fourier transform divided by `N`. -/
def Obligations.CacheEvictionAndSpectrum : Prop :=
  (∀ (α : Type) (size : Nat) (ids : List Word) (stages : Word → List (Wave.Of α)), 1 ≤ size → ids.Nodup →
    ids.foldl (fun c id => cacheStore size c id (stages id)) [] =
      (ids.drop (ids.length - size)).map (fun id => (id, stages id)) ∧
    ∀ id ∈ ids.take (ids.length - size), ∀ st,
      cacheGet (ids.foldl (fun c id => cacheStore size c id (stages id)) []) id st = none) ∧
  (∀ (α : Type) (size : Nat) (before after : StageCache α) (id : Word) (old new : List (Wave.Of α)),
    (∀ e ∈ before ++ after, e.1 ≠ id) → (before ++ (id, old) :: after).length ≤ size →
    cacheStore size (before ++ (id, old) :: after) id new = before ++ after ++ [(id, new)]) ∧
  (∀ (x : List ℝ) (fs : ℝ) (N : Nat), N = x.length →
    (x = [] → spectrum realOps x fs = [(0, 0)]) ∧
    (x ≠ [] → (spectrum realOps x fs).length = N / 2 + 1 ∧
      ∀ k ≤ N / 2, (spectrum realOps x fs)[k]? = some (k * fs / N,
        ‖∑ u ∈ Finset.range N, (x.getD u 0 : ℂ) * Complex.exp (-2 * Real.pi * Complex.I * k * u / N)‖ / N)))

end
end

