-- ==== Sys2Proof/Laws/Decode.lean ====
section
/-! SUPPORT. The fields of a command word: packing and unpacking them are inverse (30_encoding.md R91). -/

namespace Sys2Proof

@[simp] theorem fieldOp_packFields (op : BitVec 8) (a b c : BitVec 4) (k : BitVec 12) :
    fieldOp (packFields op a b c k) = op := by
  unfold fieldOp packFields
  ext i hi
  simp
  grind

@[simp] theorem fieldA_packFields (op : BitVec 8) (a b c : BitVec 4) (k : BitVec 12) :
    fieldA (packFields op a b c k) = a := by
  unfold fieldA packFields
  ext i hi
  simp
  grind

@[simp] theorem fieldB_packFields (op : BitVec 8) (a b c : BitVec 4) (k : BitVec 12) :
    fieldB (packFields op a b c k) = b := by
  unfold fieldB packFields
  ext i hi
  simp
  grind

@[simp] theorem fieldC_packFields (op : BitVec 8) (a b c : BitVec 4) (k : BitVec 12) :
    fieldC (packFields op a b c k) = c := by
  unfold fieldC packFields
  ext i hi
  simp
  grind

@[simp] theorem fieldK_packFields (op : BitVec 8) (a b c : BitVec 4) (k : BitVec 12) :
    fieldK (packFields op a b c k) = k := by
  unfold fieldK packFields
  ext i hi
  simp
  grind

/-- A word is its fields packed. -/
theorem packFields_fields (w : CmdWord) :
    packFields (fieldOp w) (fieldA w) (fieldB w) (fieldC w) (fieldK w) = w := by
  unfold packFields fieldOp fieldA fieldB fieldC fieldK
  ext i hi
  simp
  grind

/-- A must-be-zero field passes exactly when it is zero (R97). -/
@[simp] theorem mustBeZero_eq_ok {n : Nat} (f : BitVec n) (u : Unit) : mustBeZero f = .ok u ↔ f = 0 := by
  unfold mustBeZero
  split <;> simp_all

/-- An operand field names the register of its own number (R98). -/
theorem operandOf_eq_ok (f : BitVec 4) (r : Fin 8) : operandOf f = .ok r ↔ f = operandField r := by
  revert f r
  decide

/-- The operand field of a register names it. -/
@[simp] theorem operandOf_operandField (r : Fin 8) : operandOf (operandField r) = .ok r :=
  (operandOf_eq_ok _ _).2 rfl

/-- The masking of a packed word is the masking of its fields. -/
theorem packFields_and (op op' : BitVec 8) (a a' b b' c c' : BitVec 4) (k k' : BitVec 12) :
    packFields op a b c k &&& packFields op' a' b' c' k'
      = packFields (op &&& op') (a &&& a') (b &&& b') (c &&& c') (k &&& k') := by
  unfold packFields
  ext i hi
  simp
  grind

/-- A word whose operand fields avoid a mask matches the opcode alone (R99). -/
theorem packFields_match (op : BitVec 8) (a b c : BitVec 4) (k : BitVec 12) (ma mb mc : BitVec 4) (mk : BitVec 12)
    (ha : a &&& ma = 0) (hb : b &&& mb = 0) (hc : c &&& mc = 0) (hk : k &&& mk = 0) :
    packFields op a b c k &&& packFields 0xFF ma mb mc mk = packFields op 0 0 0 0 := by
  rw [packFields_and, ha, hb, hc, hk, show (0xFF : BitVec 8) = BitVec.allOnes 8 from rfl, BitVec.and_allOnes]

/-- Two fields put together and taken apart again are as they were. -/
theorem imm_split (c : BitVec 4) (k : BitVec 12) :
    (c ++ k : BitVec 16).extractLsb' 12 4 = c ∧ (c ++ k : BitVec 16).extractLsb' 0 12 = k := by
  constructor
  · ext i hi; simp; grind
  · ext i hi; simp; grind

/-- Field `k` of a word of format N is its bit count, where the padding is zero (R91, R96). -/
theorem fieldK_eq_count (w : CmdWord) (h : fieldCountPad w = 0) : fieldK w = (fieldCount w).setWidth 12 := by
  have hpad : ∀ i < 6, w.getLsbD (6 + i) = false := by
    intro i hi
    have := congrArg (fun v => v.getLsbD i) h
    simpa [fieldCountPad, hi] using this
  unfold fieldK fieldCount
  ext i hi
  by_cases h6 : i < 6
  · simp [h6]
  · have := hpad (i - 6) (by omega)
    rw [show 6 + (i - 6) = i by omega] at this
    simp [h6, this]

/-! ### The formats: what each needs of a word and what it gives -/

/-- A sequence of two steps succeeds when both do. -/
theorem except_bind_eq_ok {ε α β : Type} (x : Except ε α) (f : α → Except ε β) (r : β) :
    (x >>= f) = .ok r ↔ ∃ a, x = .ok a ∧ f a = .ok r := by
  cases x with
  | error e => exact ⟨fun h => (nomatch h), fun ⟨_, h, _⟩ => (nomatch h)⟩
  | ok a => exact ⟨fun h => ⟨a, rfl, h⟩, fun ⟨_, h, h'⟩ => by cases h; exact h'⟩

theorem decodeNone_eq_ok (i j : Instr) (w : CmdWord) : decodeNone i w = .ok j ↔
    fieldA w = 0 ∧ fieldB w = 0 ∧ fieldC w = 0 ∧ fieldK w = 0 ∧ i = j := by
  simp [decodeNone, except_bind_eq_ok, pure, Except.pure]

theorem decodeA_eq_ok (i : Fin 8 → Instr) (j : Instr) (w : CmdWord) : decodeA i w = .ok j ↔
    fieldB w = 0 ∧ fieldC w = 0 ∧ fieldK w = 0 ∧ ∃ a, fieldA w = operandField a ∧ i a = j := by
  simp [decodeA, except_bind_eq_ok, operandOf_eq_ok, pure, Except.pure]

theorem decodeAB_eq_ok (i : Fin 8 → Fin 8 → Instr) (j : Instr) (w : CmdWord) : decodeAB i w = .ok j ↔
    fieldC w = 0 ∧ fieldK w = 0 ∧ ∃ a, fieldA w = operandField a ∧ ∃ b, fieldB w = operandField b ∧ i a b = j := by
  simp [decodeAB, except_bind_eq_ok, operandOf_eq_ok, pure, Except.pure]

theorem decodeAC_eq_ok (i : Fin 8 → Fin 8 → Instr) (j : Instr) (w : CmdWord) : decodeAC i w = .ok j ↔
    fieldB w = 0 ∧ fieldK w = 0 ∧ ∃ a, fieldA w = operandField a ∧ ∃ c, fieldC w = operandField c ∧ i a c = j := by
  simp [decodeAC, except_bind_eq_ok, operandOf_eq_ok, pure, Except.pure]

theorem decodeABC_eq_ok (i : Fin 8 → Fin 8 → Fin 8 → Instr) (j : Instr) (w : CmdWord) : decodeABC i w = .ok j ↔
    fieldK w = 0 ∧ ∃ a, fieldA w = operandField a ∧ ∃ b, fieldB w = operandField b ∧
      ∃ c, fieldC w = operandField c ∧ i a b c = j := by
  simp [decodeABC, except_bind_eq_ok, operandOf_eq_ok, pure, Except.pure]

theorem decodeImm_eq_ok (i : Fin 8 → BitVec 16 → Instr) (j : Instr) (w : CmdWord) : decodeImm i w = .ok j ↔
    fieldB w = 0 ∧ ∃ a, fieldA w = operandField a ∧ i a (fieldC w ++ fieldK w) = j := by
  simp [decodeImm, except_bind_eq_ok, operandOf_eq_ok, pure, Except.pure]

theorem decodeCsrRead_eq_ok (j : Instr) (w : CmdWord) : decodeCsrRead w = .ok j ↔
    fieldB w = 0 ∧ fieldC w = 0 ∧ ∃ a, fieldA w = operandField a ∧ .csrr a (fieldK w) = j := by
  simp [decodeCsrRead, except_bind_eq_ok, operandOf_eq_ok, pure, Except.pure]

theorem decodeCsrWrite_eq_ok (j : Instr) (w : CmdWord) : decodeCsrWrite w = .ok j ↔
    fieldA w = 0 ∧ fieldC w = 0 ∧ ∃ b, fieldB w = operandField b ∧ .csrw b (fieldK w) = j := by
  simp [decodeCsrWrite, except_bind_eq_ok, operandOf_eq_ok, pure, Except.pure]

theorem decodeGet_eq_ok (j : Instr) (w : CmdWord) : decodeGet w = .ok j ↔
    fieldCountPad w = 0 ∧ ∃ a, fieldA w = operandField a ∧ ∃ b, fieldB w = operandField b ∧
      ∃ c, fieldC w = operandField c ∧ .bget a b c (fieldCount w) = j := by
  simp [decodeGet, except_bind_eq_ok, operandOf_eq_ok, pure, Except.pure]

theorem decodePush_eq_ok (j : Instr) (w : CmdWord) : decodePush w = .ok j ↔
    fieldC w = 0 ∧ fieldCountPad w = 0 ∧ ∃ a, fieldA w = operandField a ∧ ∃ b, fieldB w = operandField b ∧
      .bpush a b (fieldCount w) = j := by
  simp [decodePush, except_bind_eq_ok, operandOf_eq_ok, pure, Except.pure]

/-! ### Masks (R99) -/

/-- An operand field has its top bit clear (R98). -/
@[simp] theorem operandField_and_top (r : Fin 8) : operandField r &&& 8#4 = 0#4 := by
  revert r
  decide

/-- A bit count field leaves bits 11:6 of its word clear (R91, R97). -/
@[simp] theorem countField_and_pad (n : BitVec 6) : n.setWidth 12 &&& 0xFC0#12 = 0#12 := by
  revert n
  decide

end Sys2Proof
end

