-- ==== Sys2Proof/Laws/Params.lean ====
section
/-! SUPPORT. The open parameters: all that is known of them. -/

namespace Sys2Proof.Machine

variable {α : Type} (P : Params α)

/-- `BCAP >= 24576` (00_scope.md R6). -/
theorem bcapOf_least : 24576 ≤ bcapOf P := Nat.le_add_right _ _

/-- `fitsB` is the comparison with `BCAP`. -/
@[simp] theorem fitsB_iff (n : Nat) : fitsB P n = true ↔ n ≤ bcapOf P := by
  have h := bcapOf_least P
  simp only [fitsB, Bool.or_eq_true, decide_eq_true_eq]
  omega

/-- `fitsW` is the comparison with `WCAP`. -/
@[simp] theorem fitsW_iff (n : Nat) : fitsW P n = true ↔ n ≤ P.wcap := by
  simp only [fitsW, Bool.or_eq_true, decide_eq_true_eq]
  omega

/-- A chip sequence has the length asked for (42_prn.md R163). -/
@[simp] theorem chipsOf_length (N : NumOps α) (sign : Word → Nat → Nat → Bool) (seed : Word) (n : Nat) :
    (chipsOf N sign seed n).length = n := by
  simp [chipsOf]

/-- Every chip is `+1.0` or `-1.0` (42_prn.md R163). -/
theorem chipsOf_range (N : NumOps α) (sign : Word → Nat → Nat → Bool) (seed : Word) (n : Nat) (c : α)
    (h : c ∈ chipsOf N sign seed n) : c = N.one ∨ c = N.negOne := by
  simp only [chipsOf, List.mem_map] at h
  obtain ⟨j, -, rfl⟩ := h
  by_cases hs : sign seed n j <;> simp [hs]

/-- `CHIPGEN` answers as many chips as are asked for (42_prn.md R163). -/
@[simp] theorem chipGenOf_length (seed : Word) (n : Nat) : (chipGenOf P seed n).length = n := chipsOf_length ..

/-! ### The core instance -/

/-- The core instance's `BCAP` is the least one or more (00_scope.md R6). -/
theorem bcap_least : 24576 ≤ bcap := bcapOf_least machine

/-- The core instance's sample buffer holds a sample (log 4). -/
theorem wcap_least : 1 ≤ wcap := Nat.le_add_right _ _

/-- The core instance's bit buffer has a length that is a 64-bit number (log 3). -/
theorem bcap_lt_word : bcap < 2 ^ 64 := by
  have h := Config.bcapExtra.isLt
  have e : bcap = 24576 + Config.bcapExtra.toNat := rfl
  generalize Config.bcapExtra.toNat = extra at h e
  omega

/-- The core instance's sample buffer has a length that is a 64-bit number (log 4). -/
theorem wcap_lt_word : wcap < 2 ^ 64 := by
  have h := Config.wcapExtra.isLt
  have e : wcap = 1 + Config.wcapExtra.toNat := rfl
  generalize Config.wcapExtra.toNat = extra at h e
  omega

/-- A draw of the core instance is a finite number (45_noise.md R211). -/
theorem noiseDraw_finite (i : Nat) : (noiseDraw i).isFinite = true := by
  unfold noiseDraw
  split
  · assumption
  · rfl

end Sys2Proof.Machine
end

