-- ==== Sys2Proof/Laws/State.lean ====
section
/-! SUPPORT. The state record: what each named update leaves in each field, so that no proof unfolds an update. -/

namespace Sys2Proof.Machine

variable {α : Type} {P : Params α}

/-! ### `writeX` -/

@[simp] theorem writeX_x (r : XReg) (v : Word) (s : State.Of α) : (writeX r v s).x = s.x.set r v := rfl
@[simp] theorem writeX_pc (r : XReg) (v : Word) (s : State.Of α) : (writeX r v s).pc = s.pc := rfl
@[simp] theorem writeX_mode (r : XReg) (v : Word) (s : State.Of α) : (writeX r v s).mode = s.mode := rfl
@[simp] theorem writeX_done (r : XReg) (v : Word) (s : State.Of α) : (writeX r v s).done = s.done := rfl
@[simp] theorem writeX_tapv (r : XReg) (v : Word) (s : State.Of α) : (writeX r v s).tapv = s.tapv := rfl
@[simp] theorem writeX_mismatch (r : XReg) (v : Word) (s : State.Of α) : (writeX r v s).mismatch = s.mismatch := rfl
@[simp] theorem writeX_cause (r : XReg) (v : Word) (s : State.Of α) : (writeX r v s).cause = s.cause := rfl
@[simp] theorem writeX_fpc (r : XReg) (v : Word) (s : State.Of α) : (writeX r v s).fpc = s.fpc := rfl
@[simp] theorem writeX_finfo (r : XReg) (v : Word) (s : State.Of α) : (writeX r v s).finfo = s.finfo := rfl
@[simp] theorem writeX_runid (r : XReg) (v : Word) (s : State.Of α) : (writeX r v s).runid = s.runid := rfl
@[simp] theorem writeX_scheme (r : XReg) (v : Word) (s : State.Of α) : (writeX r v s).scheme = s.scheme := rfl
@[simp] theorem writeX_cpb (r : XReg) (v : Word) (s : State.Of α) : (writeX r v s).cpb = s.cpb := rfl
@[simp] theorem writeX_ovs (r : XReg) (v : Word) (s : State.Of α) : (writeX r v s).ovs = s.ovs := rfl
@[simp] theorem writeX_nmode (r : XReg) (v : Word) (s : State.Of α) : (writeX r v s).nmode = s.nmode := rfl
@[simp] theorem writeX_payload (r : XReg) (v : Word) (s : State.Of α) : (writeX r v s).payload = s.payload := rfl
@[simp] theorem writeX_padlen (r : XReg) (v : Word) (s : State.Of α) : (writeX r v s).padlen = s.padlen := rfl
@[simp] theorem writeX_repeatFactor (r : XReg) (v : Word) (s : State.Of α) : (writeX r v s).repeatFactor = s.repeatFactor := rfl
@[simp] theorem writeX_seedtx (r : XReg) (v : Word) (s : State.Of α) : (writeX r v s).seedtx = s.seedtx := rfl
@[simp] theorem writeX_seedrx (r : XReg) (v : Word) (s : State.Of α) : (writeX r v s).seedrx = s.seedrx := rfl
@[simp] theorem writeX_nseeden (r : XReg) (v : Word) (s : State.Of α) : (writeX r v s).nseeden = s.nseeden := rfl
@[simp] theorem writeX_nseed (r : XReg) (v : Word) (s : State.Of α) : (writeX r v s).nseed = s.nseed := rfl
@[simp] theorem writeX_chiprate (r : XReg) (v : Word) (s : State.Of α) : (writeX r v s).chiprate = s.chiprate := rfl
@[simp] theorem writeX_fc (r : XReg) (v : Word) (s : State.Of α) : (writeX r v s).fc = s.fc := rfl
@[simp] theorem writeX_npow (r : XReg) (v : Word) (s : State.Of α) : (writeX r v s).npow = s.npow := rfl
@[simp] theorem writeX_nbw (r : XReg) (v : Word) (s : State.Of α) : (writeX r v s).nbw = s.nbw := rfl
@[simp] theorem writeX_b (r : XReg) (v : Word) (s : State.Of α) : (writeX r v s).b = s.b := rfl
@[simp] theorem writeX_w (r : XReg) (v : Word) (s : State.Of α) : (writeX r v s).w = s.w := rfl
@[simp] theorem writeX_t (r : XReg) (v : Word) (s : State.Of α) : (writeX r v s).t = s.t := rfl
@[simp] theorem writeX_stream (r : XReg) (v : Word) (s : State.Of α) : (writeX r v s).stream = s.stream := rfl
@[simp] theorem writeX_draws (r : XReg) (v : Word) (s : State.Of α) : (writeX r v s).draws = s.draws := rfl

/-! ### `writeXNat` -/

@[simp] theorem writeXNat_x (r : XReg) (v : Nat) (s : State.Of α) : (writeXNat r v s).x = s.x.set r (BitVec.ofNat 64 v) := rfl
@[simp] theorem writeXNat_pc (r : XReg) (v : Nat) (s : State.Of α) : (writeXNat r v s).pc = s.pc := rfl
@[simp] theorem writeXNat_mode (r : XReg) (v : Nat) (s : State.Of α) : (writeXNat r v s).mode = s.mode := rfl
@[simp] theorem writeXNat_done (r : XReg) (v : Nat) (s : State.Of α) : (writeXNat r v s).done = s.done := rfl
@[simp] theorem writeXNat_tapv (r : XReg) (v : Nat) (s : State.Of α) : (writeXNat r v s).tapv = s.tapv := rfl
@[simp] theorem writeXNat_mismatch (r : XReg) (v : Nat) (s : State.Of α) : (writeXNat r v s).mismatch = s.mismatch := rfl
@[simp] theorem writeXNat_cause (r : XReg) (v : Nat) (s : State.Of α) : (writeXNat r v s).cause = s.cause := rfl
@[simp] theorem writeXNat_fpc (r : XReg) (v : Nat) (s : State.Of α) : (writeXNat r v s).fpc = s.fpc := rfl
@[simp] theorem writeXNat_finfo (r : XReg) (v : Nat) (s : State.Of α) : (writeXNat r v s).finfo = s.finfo := rfl
@[simp] theorem writeXNat_runid (r : XReg) (v : Nat) (s : State.Of α) : (writeXNat r v s).runid = s.runid := rfl
@[simp] theorem writeXNat_scheme (r : XReg) (v : Nat) (s : State.Of α) : (writeXNat r v s).scheme = s.scheme := rfl
@[simp] theorem writeXNat_cpb (r : XReg) (v : Nat) (s : State.Of α) : (writeXNat r v s).cpb = s.cpb := rfl
@[simp] theorem writeXNat_ovs (r : XReg) (v : Nat) (s : State.Of α) : (writeXNat r v s).ovs = s.ovs := rfl
@[simp] theorem writeXNat_nmode (r : XReg) (v : Nat) (s : State.Of α) : (writeXNat r v s).nmode = s.nmode := rfl
@[simp] theorem writeXNat_payload (r : XReg) (v : Nat) (s : State.Of α) : (writeXNat r v s).payload = s.payload := rfl
@[simp] theorem writeXNat_padlen (r : XReg) (v : Nat) (s : State.Of α) : (writeXNat r v s).padlen = s.padlen := rfl
@[simp] theorem writeXNat_repeatFactor (r : XReg) (v : Nat) (s : State.Of α) : (writeXNat r v s).repeatFactor = s.repeatFactor := rfl
@[simp] theorem writeXNat_seedtx (r : XReg) (v : Nat) (s : State.Of α) : (writeXNat r v s).seedtx = s.seedtx := rfl
@[simp] theorem writeXNat_seedrx (r : XReg) (v : Nat) (s : State.Of α) : (writeXNat r v s).seedrx = s.seedrx := rfl
@[simp] theorem writeXNat_nseeden (r : XReg) (v : Nat) (s : State.Of α) : (writeXNat r v s).nseeden = s.nseeden := rfl
@[simp] theorem writeXNat_nseed (r : XReg) (v : Nat) (s : State.Of α) : (writeXNat r v s).nseed = s.nseed := rfl
@[simp] theorem writeXNat_chiprate (r : XReg) (v : Nat) (s : State.Of α) : (writeXNat r v s).chiprate = s.chiprate := rfl
@[simp] theorem writeXNat_fc (r : XReg) (v : Nat) (s : State.Of α) : (writeXNat r v s).fc = s.fc := rfl
@[simp] theorem writeXNat_npow (r : XReg) (v : Nat) (s : State.Of α) : (writeXNat r v s).npow = s.npow := rfl
@[simp] theorem writeXNat_nbw (r : XReg) (v : Nat) (s : State.Of α) : (writeXNat r v s).nbw = s.nbw := rfl
@[simp] theorem writeXNat_b (r : XReg) (v : Nat) (s : State.Of α) : (writeXNat r v s).b = s.b := rfl
@[simp] theorem writeXNat_w (r : XReg) (v : Nat) (s : State.Of α) : (writeXNat r v s).w = s.w := rfl
@[simp] theorem writeXNat_t (r : XReg) (v : Nat) (s : State.Of α) : (writeXNat r v s).t = s.t := rfl
@[simp] theorem writeXNat_stream (r : XReg) (v : Nat) (s : State.Of α) : (writeXNat r v s).stream = s.stream := rfl
@[simp] theorem writeXNat_draws (r : XReg) (v : Nat) (s : State.Of α) : (writeXNat r v s).draws = s.draws := rfl

/-! ### `takeFault` -/

@[simp] theorem takeFault_x (e : Raise) (s : State.Of α) : (takeFault e s).x = s.x := rfl
@[simp] theorem takeFault_pc (e : Raise) (s : State.Of α) : (takeFault e s).pc = s.pc := rfl
@[simp] theorem takeFault_mode (e : Raise) (s : State.Of α) : (takeFault e s).mode = .fault := rfl
@[simp] theorem takeFault_done (e : Raise) (s : State.Of α) : (takeFault e s).done = s.done := rfl
@[simp] theorem takeFault_tapv (e : Raise) (s : State.Of α) : (takeFault e s).tapv = s.tapv := rfl
@[simp] theorem takeFault_mismatch (e : Raise) (s : State.Of α) : (takeFault e s).mismatch = s.mismatch := rfl
@[simp] theorem takeFault_cause (e : Raise) (s : State.Of α) : (takeFault e s).cause = e.cause.code := rfl
@[simp] theorem takeFault_fpc (e : Raise) (s : State.Of α) : (takeFault e s).fpc = s.pc.setWidth 64 := rfl
@[simp] theorem takeFault_finfo (e : Raise) (s : State.Of α) : (takeFault e s).finfo = saturate e.info := rfl
@[simp] theorem takeFault_runid (e : Raise) (s : State.Of α) : (takeFault e s).runid = s.runid := rfl
@[simp] theorem takeFault_scheme (e : Raise) (s : State.Of α) : (takeFault e s).scheme = s.scheme := rfl
@[simp] theorem takeFault_cpb (e : Raise) (s : State.Of α) : (takeFault e s).cpb = s.cpb := rfl
@[simp] theorem takeFault_ovs (e : Raise) (s : State.Of α) : (takeFault e s).ovs = s.ovs := rfl
@[simp] theorem takeFault_nmode (e : Raise) (s : State.Of α) : (takeFault e s).nmode = s.nmode := rfl
@[simp] theorem takeFault_payload (e : Raise) (s : State.Of α) : (takeFault e s).payload = s.payload := rfl
@[simp] theorem takeFault_padlen (e : Raise) (s : State.Of α) : (takeFault e s).padlen = s.padlen := rfl
@[simp] theorem takeFault_repeatFactor (e : Raise) (s : State.Of α) : (takeFault e s).repeatFactor = s.repeatFactor := rfl
@[simp] theorem takeFault_seedtx (e : Raise) (s : State.Of α) : (takeFault e s).seedtx = s.seedtx := rfl
@[simp] theorem takeFault_seedrx (e : Raise) (s : State.Of α) : (takeFault e s).seedrx = s.seedrx := rfl
@[simp] theorem takeFault_nseeden (e : Raise) (s : State.Of α) : (takeFault e s).nseeden = s.nseeden := rfl
@[simp] theorem takeFault_nseed (e : Raise) (s : State.Of α) : (takeFault e s).nseed = s.nseed := rfl
@[simp] theorem takeFault_chiprate (e : Raise) (s : State.Of α) : (takeFault e s).chiprate = s.chiprate := rfl
@[simp] theorem takeFault_fc (e : Raise) (s : State.Of α) : (takeFault e s).fc = s.fc := rfl
@[simp] theorem takeFault_npow (e : Raise) (s : State.Of α) : (takeFault e s).npow = s.npow := rfl
@[simp] theorem takeFault_nbw (e : Raise) (s : State.Of α) : (takeFault e s).nbw = s.nbw := rfl
@[simp] theorem takeFault_b (e : Raise) (s : State.Of α) : (takeFault e s).b = s.b := rfl
@[simp] theorem takeFault_w (e : Raise) (s : State.Of α) : (takeFault e s).w = s.w := rfl
@[simp] theorem takeFault_t (e : Raise) (s : State.Of α) : (takeFault e s).t = s.t := rfl
@[simp] theorem takeFault_stream (e : Raise) (s : State.Of α) : (takeFault e s).stream = s.stream := rfl
@[simp] theorem takeFault_draws (e : Raise) (s : State.Of α) : (takeFault e s).draws = s.draws := rfl

/-! ### `clearFault` -/

@[simp] theorem clearFault_x (s : State.Of α) : (clearFault s).x = s.x := rfl
@[simp] theorem clearFault_pc (s : State.Of α) : (clearFault s).pc = s.pc := rfl
@[simp] theorem clearFault_mode (s : State.Of α) : (clearFault s).mode = .idle := rfl
@[simp] theorem clearFault_done (s : State.Of α) : (clearFault s).done = s.done := rfl
@[simp] theorem clearFault_tapv (s : State.Of α) : (clearFault s).tapv = s.tapv := rfl
@[simp] theorem clearFault_mismatch (s : State.Of α) : (clearFault s).mismatch = s.mismatch := rfl
@[simp] theorem clearFault_cause (s : State.Of α) : (clearFault s).cause = 0 := rfl
@[simp] theorem clearFault_fpc (s : State.Of α) : (clearFault s).fpc = s.fpc := rfl
@[simp] theorem clearFault_finfo (s : State.Of α) : (clearFault s).finfo = s.finfo := rfl
@[simp] theorem clearFault_runid (s : State.Of α) : (clearFault s).runid = s.runid := rfl
@[simp] theorem clearFault_scheme (s : State.Of α) : (clearFault s).scheme = s.scheme := rfl
@[simp] theorem clearFault_cpb (s : State.Of α) : (clearFault s).cpb = s.cpb := rfl
@[simp] theorem clearFault_ovs (s : State.Of α) : (clearFault s).ovs = s.ovs := rfl
@[simp] theorem clearFault_nmode (s : State.Of α) : (clearFault s).nmode = s.nmode := rfl
@[simp] theorem clearFault_payload (s : State.Of α) : (clearFault s).payload = s.payload := rfl
@[simp] theorem clearFault_padlen (s : State.Of α) : (clearFault s).padlen = s.padlen := rfl
@[simp] theorem clearFault_repeatFactor (s : State.Of α) : (clearFault s).repeatFactor = s.repeatFactor := rfl
@[simp] theorem clearFault_seedtx (s : State.Of α) : (clearFault s).seedtx = s.seedtx := rfl
@[simp] theorem clearFault_seedrx (s : State.Of α) : (clearFault s).seedrx = s.seedrx := rfl
@[simp] theorem clearFault_nseeden (s : State.Of α) : (clearFault s).nseeden = s.nseeden := rfl
@[simp] theorem clearFault_nseed (s : State.Of α) : (clearFault s).nseed = s.nseed := rfl
@[simp] theorem clearFault_chiprate (s : State.Of α) : (clearFault s).chiprate = s.chiprate := rfl
@[simp] theorem clearFault_fc (s : State.Of α) : (clearFault s).fc = s.fc := rfl
@[simp] theorem clearFault_npow (s : State.Of α) : (clearFault s).npow = s.npow := rfl
@[simp] theorem clearFault_nbw (s : State.Of α) : (clearFault s).nbw = s.nbw := rfl
@[simp] theorem clearFault_b (s : State.Of α) : (clearFault s).b = s.b := rfl
@[simp] theorem clearFault_w (s : State.Of α) : (clearFault s).w = s.w := rfl
@[simp] theorem clearFault_t (s : State.Of α) : (clearFault s).t = s.t := rfl
@[simp] theorem clearFault_stream (s : State.Of α) : (clearFault s).stream = s.stream := rfl
@[simp] theorem clearFault_draws (s : State.Of α) : (clearFault s).draws = s.draws := rfl

/-! ### `writeCsr`: the fields that are no writable control register -/

@[simp] theorem writeCsr_x (r : IntCsr) (v : Word) (s : State.Of α) : (writeCsr r v s).x = s.x := by
  cases r <;> rfl
@[simp] theorem writeCsr_pc (r : IntCsr) (v : Word) (s : State.Of α) : (writeCsr r v s).pc = s.pc := by
  cases r <;> rfl
@[simp] theorem writeCsr_mode (r : IntCsr) (v : Word) (s : State.Of α) : (writeCsr r v s).mode = s.mode := by
  cases r <;> rfl
@[simp] theorem writeCsr_done (r : IntCsr) (v : Word) (s : State.Of α) : (writeCsr r v s).done = s.done := by
  cases r <;> rfl
@[simp] theorem writeCsr_tapv (r : IntCsr) (v : Word) (s : State.Of α) : (writeCsr r v s).tapv = s.tapv := by
  cases r <;> rfl
@[simp] theorem writeCsr_mismatch (r : IntCsr) (v : Word) (s : State.Of α) : (writeCsr r v s).mismatch = s.mismatch := by
  cases r <;> rfl
@[simp] theorem writeCsr_cause (r : IntCsr) (v : Word) (s : State.Of α) : (writeCsr r v s).cause = s.cause := by
  cases r <;> rfl
@[simp] theorem writeCsr_fpc (r : IntCsr) (v : Word) (s : State.Of α) : (writeCsr r v s).fpc = s.fpc := by
  cases r <;> rfl
@[simp] theorem writeCsr_finfo (r : IntCsr) (v : Word) (s : State.Of α) : (writeCsr r v s).finfo = s.finfo := by
  cases r <;> rfl
@[simp] theorem writeCsr_runid (r : IntCsr) (v : Word) (s : State.Of α) : (writeCsr r v s).runid = s.runid := by
  cases r <;> rfl
@[simp] theorem writeCsr_chiprate (r : IntCsr) (v : Word) (s : State.Of α) : (writeCsr r v s).chiprate = s.chiprate := by
  cases r <;> rfl
@[simp] theorem writeCsr_fc (r : IntCsr) (v : Word) (s : State.Of α) : (writeCsr r v s).fc = s.fc := by
  cases r <;> rfl
@[simp] theorem writeCsr_npow (r : IntCsr) (v : Word) (s : State.Of α) : (writeCsr r v s).npow = s.npow := by
  cases r <;> rfl
@[simp] theorem writeCsr_nbw (r : IntCsr) (v : Word) (s : State.Of α) : (writeCsr r v s).nbw = s.nbw := by
  cases r <;> rfl
@[simp] theorem writeCsr_b (r : IntCsr) (v : Word) (s : State.Of α) : (writeCsr r v s).b = s.b := by
  cases r <;> rfl
@[simp] theorem writeCsr_w (r : IntCsr) (v : Word) (s : State.Of α) : (writeCsr r v s).w = s.w := by
  cases r <;> rfl
@[simp] theorem writeCsr_t (r : IntCsr) (v : Word) (s : State.Of α) : (writeCsr r v s).t = s.t := by
  cases r <;> rfl
@[simp] theorem writeCsr_stream (r : IntCsr) (v : Word) (s : State.Of α) : (writeCsr r v s).stream = s.stream := by
  cases r <;> rfl
@[simp] theorem writeCsr_draws (r : IntCsr) (v : Word) (s : State.Of α) : (writeCsr r v s).draws = s.draws := by
  cases r <;> rfl

/-! ### `gauss`: only the draw count can change -/

/-- The state after `gauss` differs from the state before in the draw count alone. -/
theorem gauss_state (n : Nat) (s : State.Of α) : (gauss P n s).2 = { s with draws := (gauss P n s).2.draws } := by
  unfold gauss
  split <;> rfl

/-- How many draws the source has supplied after `gauss` (45_noise.md R211, R212). -/
theorem gauss_draws (n : Nat) (s : State.Of α) : (gauss P n s).2.draws = if s.nseeden then s.draws else s.draws + n := by
  unfold gauss
  split <;> rfl

/-- `gauss(n)` is `n` samples. -/
theorem gauss_length (n : Nat) (s : State.Of α) : (gauss P n s).1.length = n := by
  unfold gauss gaussGenOf drawsOf
  split <;> simp

/-! ### Reads after writes -/

/-- A scalar register read after a write. -/
theorem readX_writeX (r r' : XReg) (v : Word) (s : State.Of α) :
    readX r' (writeX r v s) = if r = r' then v else readX r' s := by
  simp only [readX, writeX, Fin.getElem_fin, Vector.getElem_set, Fin.ext_iff]

/-- A control register read after a write: the value written, `NSEEDEN` one bit of it (10_state.md R33); every other
register as before. -/
theorem readCsr_writeCsr (r r' : IntCsr) (v : Word) (s : State.Of α) (hw : r.writable = true) :
    readCsr r' (writeCsr r v s)
      = if r = r' then (if r = .nseeden then BitVec.ofNat 64 (v.getLsbD 0).toNat else v) else readCsr r' s := by
  cases r <;> cases r' <;> first | rfl | (exact absurd hw (by decide))

/-- The name of a register's number. -/
@[simp] theorem ofNumber_number (r : IntCsr) : IntCsr.ofNumber r.number = some r := by cases r <;> rfl

end Sys2Proof.Machine
end

