-- ==== Sys2Proof/Laws/Ops.lean ====
section
/-! SUPPORT. The shared operations: for each, once, everything it can do. -/

namespace Sys2Proof.Machine

variable {α : Type} {P : Params α}

/-- A sequence of two steps succeeds when both do. -/
theorem bind_eq_ok {ε α β : Type} (x : Except ε α) (f : α → Except ε β) (r : β) :
    (x >>= f) = .ok r ↔ ∃ a, x = .ok a ∧ f a = .ok r := by
  cases x with
  | error e => constructor <;> intro h
               · cases h
               · obtain ⟨a, h, -⟩ := h; cases h
  | ok a => constructor
            · exact fun h => ⟨a, rfl, h⟩
            · rintro ⟨_, ⟨⟩, h⟩; exact h

/-- A sequence of two steps raises when the first does, or the second after it. -/
theorem bind_eq_error {ε α β : Type} (x : Except ε α) (f : α → Except ε β) (e : ε) :
    (x >>= f) = .error e ↔ x = .error e ∨ ∃ a, x = .ok a ∧ f a = .error e := by
  cases x with
  | error e' => constructor
                · exact fun h => .inl (by injection h with h; rw [h])
                · rintro (h | ⟨_, h, -⟩)
                  · injection h with h; subst h; rfl
                  · cases h
  | ok a => constructor
            · exact fun h => .inr ⟨a, rfl, h⟩
            · rintro (h | ⟨_, ⟨⟩, h⟩)
              · cases h
              · exact h

@[simp] theorem ok_bind {ε α β : Type} (a : α) (f : α → Except ε β) : ((.ok a : Except ε α) >>= f) = f a := rfl

@[simp] theorem error_bind {ε α β : Type} (e : ε) (f : α → Except ε β) :
    ((.error e : Except ε α) >>= f) = .error e := rfl

/-! ### Replacing a buffer (20_memory.md R64) -/

theorem setB_of_le (d : BBuf) (v : BitSeq) (s : State.Of α) (h : v.length ≤ bcapOf P) :
    setB P d v s = .ok { s with b := s.b.set d v } := by
  simp [setB, h]

theorem setB_of_lt (d : BBuf) (v : BitSeq) (s : State.Of α) (h : bcapOf P < v.length) :
    setB P d v s = .error ⟨.capacity, v.length⟩ := by
  simp [setB, Nat.not_le.2 h]

theorem setB_eq_ok (d : BBuf) (v : BitSeq) (s t : State.Of α) :
    setB P d v s = .ok t ↔ v.length ≤ bcapOf P ∧ t = { s with b := s.b.set d v } := by
  simp only [setB, fitsB_iff]
  split
  · rename_i h
    exact ⟨fun e => ⟨h, (Except.ok.inj e).symm⟩, fun e => congrArg Except.ok e.2.symm⟩
  · rename_i h
    exact ⟨fun e => (nomatch e), fun e => absurd e.1 h⟩

theorem setB_eq_error (d : BBuf) (v : BitSeq) (s : State.Of α) (e : Raise) :
    setB P d v s = .error e ↔ bcapOf P < v.length ∧ e = ⟨.capacity, v.length⟩ := by
  simp only [setB, fitsB_iff]
  split
  · rename_i h
    exact ⟨fun e => (nomatch e), fun e => absurd h (Nat.not_le.2 e.1)⟩
  · rename_i h
    exact ⟨fun e => ⟨Nat.not_le.1 h, (Except.error.inj e).symm⟩, fun e => congrArg Except.error e.2.symm⟩

theorem setW_of_le (d : WBuf) (v : List α) (r : α) (s : State.Of α) (h : v.length ≤ P.wcap) :
    setW P d v r s = .ok { s with w := s.w.set d ⟨v, r⟩ } := by
  simp [setW, h]

theorem setW_eq_ok (d : WBuf) (v : List α) (r : α) (s t : State.Of α) :
    setW P d v r s = .ok t ↔ v.length ≤ P.wcap ∧ t = { s with w := s.w.set d ⟨v, r⟩ } := by
  simp only [setW, fitsW_iff]
  split
  · rename_i h
    exact ⟨fun e => ⟨h, (Except.ok.inj e).symm⟩, fun e => congrArg Except.ok e.2.symm⟩
  · rename_i h
    exact ⟨fun e => (nomatch e), fun e => absurd e.1 h⟩

theorem setW_eq_error (d : WBuf) (v : List α) (r : α) (s : State.Of α) (e : Raise) :
    setW P d v r s = .error e ↔ P.wcap < v.length ∧ e = ⟨.capacity, v.length⟩ := by
  simp only [setW, fitsW_iff]
  split
  · rename_i h
    exact ⟨fun e => (nomatch e), fun e => absurd h (Nat.not_le.2 e.1)⟩
  · rename_i h
    exact ⟨fun e => ⟨Nat.not_le.1 h, (Except.error.inj e).symm⟩, fun e => congrArg Except.error e.2.symm⟩

theorem setT_of_le (i : Fin 6) (v : List α) (r : α) (s : State.Of α) (h : v.length ≤ P.wcap) :
    setT P i v r s = .ok { s with t := s.t.set i ⟨v, r⟩ } := by
  simp [setT, h]

theorem setT_eq_ok (i : Fin 6) (v : List α) (r : α) (s t : State.Of α) :
    setT P i v r s = .ok t ↔ v.length ≤ P.wcap ∧ t = { s with t := s.t.set i ⟨v, r⟩ } := by
  simp only [setT, fitsW_iff]
  split
  · rename_i h
    exact ⟨fun e => ⟨h, (Except.ok.inj e).symm⟩, fun e => congrArg Except.ok e.2.symm⟩
  · rename_i h
    exact ⟨fun e => (nomatch e), fun e => absurd e.1 h⟩

theorem checkW_of_le (n : Nat) (h : n ≤ P.wcap) : checkW P n = .ok () := by simp [checkW, h]

theorem checkW_eq_ok (n : Nat) (u : Unit) : checkW P n = .ok u ↔ n ≤ P.wcap := by
  simp [checkW]

theorem checkW_eq_error (n : Nat) (e : Raise) : checkW P n = .error e ↔ P.wcap < n ∧ e = ⟨.capacity, n⟩ := by
  simp only [checkW, fitsW_iff]
  split
  · rename_i h
    exact ⟨fun e => (nomatch e), fun e => absurd h (Nat.not_le.2 e.1)⟩
  · rename_i h
    exact ⟨fun e => ⟨Nat.not_le.1 h, (Except.error.inj e).symm⟩, fun e => congrArg Except.error e.2.symm⟩

/-! ### Access to elements (20_memory.md R62, R63) -/

theorem memRead_eq_ok {α : Type} (z : List α) (k n : Nat) (v : List α) :
    memRead z k n = .ok v ↔ k + n ≤ z.length ∧ v = (z.drop k).take n := by
  simp only [memRead]
  split
  · rename_i h
    exact ⟨fun e => ⟨h, (Except.ok.inj e).symm⟩, fun e => congrArg Except.ok e.2.symm⟩
  · rename_i h
    exact ⟨fun e => (nomatch e), fun e => absurd e.1 h⟩

theorem memRead_eq_error {α : Type} (z : List α) (k n : Nat) (e : Raise) :
    memRead z k n = .error e ↔ z.length < k + n ∧ e = ⟨.indexRange, k + n⟩ := by
  simp only [memRead]
  split
  · rename_i h
    exact ⟨fun e => (nomatch e), fun e => absurd h (Nat.not_le.2 e.1)⟩
  · rename_i h
    exact ⟨fun e => ⟨Nat.not_le.1 h, (Except.error.inj e).symm⟩, fun e => congrArg Except.error e.2.symm⟩

theorem memWrite_eq_ok {α : Type} (z : List α) (k : Nat) (v y : List α) :
    memWrite z k v = .ok y ↔ k + v.length ≤ z.length ∧ y = z.take k ++ v ++ z.drop (k + v.length) := by
  simp only [memWrite]
  split
  · rename_i h
    exact ⟨fun e => ⟨h, (Except.ok.inj e).symm⟩, fun e => congrArg Except.ok e.2.symm⟩
  · rename_i h
    exact ⟨fun e => (nomatch e), fun e => absurd e.1 h⟩

/-- A write to a buffer's elements keeps its length (R63). -/
theorem memWrite_length {α : Type} (z : List α) (k : Nat) (v y : List α) (h : memWrite z k v = .ok y) :
    y.length = z.length := by
  obtain ⟨hk, rfl⟩ := (memWrite_eq_ok ..).1 h
  simp only [List.length_append, List.length_take, List.length_drop]
  omega

/-- An element read after a write: the one written, or the old one. -/
theorem memWrite_getElem? {α : Type} (z : List α) (k : Nat) (v y : List α) (h : memWrite z k v = .ok y) (i : Nat) :
    y[i]? = if k ≤ i ∧ i < k + v.length then v[i - k]? else z[i]? := by
  obtain ⟨hk, rfl⟩ := (memWrite_eq_ok ..).1 h
  simp only [List.getElem?_append, List.getElem?_take, List.getElem?_drop, List.length_append, List.length_take]
  split <;> split <;> grind

/-! ### The end of a command (30_encoding.md R93) and the fault (60_exceptions.md R310) -/

/-- A command ends in one of two next states: its rule's writes with `pc` advanced, or the fault taken. -/
theorem finish_eq_next (s : State.Of α) (r : Rule (State.Of α)) (t : State.Of α) :
    finish s r = .next t ↔
      (∃ s', r = .ok s' ∧ t = { s' with pc := s.pc + 1 }) ∨ (∃ e, r = .error e ∧ t = takeFault e s) := by
  cases r with
  | ok s' => simp [finish, eq_comm]
  | error e => simp [finish, eq_comm]

@[simp] theorem finish_ok (s s' : State.Of α) : finish s (.ok s') = .next { s' with pc := s.pc + 1 } := rfl

@[simp] theorem finish_error (s : State.Of α) (e : Raise) : finish s (.error e) = .next (takeFault e s) := rfl

/-- A command always has a next state. -/
theorem finish_next (s : State.Of α) (r : Rule (State.Of α)) : ∃ t, finish s r = .next t := by
  cases r with
  | ok s' => exact ⟨_, rfl⟩
  | error e => exact ⟨_, rfl⟩

/-- No cause has code 0, and none is above 6 (60_exceptions.md R301). -/
theorem Cause.code_range (c : Cause) : c.code ≠ 0 ∧ c.code.toNat ≤ 6 := by cases c <;> decide

/-! ### The form of the buffers -/

/-- The form of the buffers, said of each buffer. -/
theorem Memory.wf_iff (s : State.Of α) : Memory.wf P s = true ↔
    (∀ i : Fin 8, s.b[i].length ≤ bcapOf P) ∧ (∀ i : Fin 8, s.w[i].data.length ≤ P.wcap)
      ∧ (∀ i : Fin 6, s.t[i].data.length ≤ P.wcap) := by
  simp only [Memory.wf, Bool.and_eq_true, List.all_eq_true, fitsB_iff, fitsW_iff, Vector.mem_toList_iff]
  constructor
  · rintro ⟨⟨hb, hw⟩, ht⟩
    exact ⟨fun i => hb _ (by simp), fun i => hw _ (by simp), fun i => ht _ (by simp)⟩
  · rintro ⟨hb, hw, ht⟩
    refine ⟨⟨fun v hv => ?_, fun v hv => ?_⟩, fun v hv => ?_⟩
    all_goals obtain ⟨i, hi, rfl⟩ := Vector.getElem_of_mem hv
    exacts [hb ⟨i, hi⟩, hw ⟨i, hi⟩, ht ⟨i, hi⟩]

/-- The form holds at reset (10_state.md R48). -/
theorem Memory.wf_reset : Memory.wf P (State.resetOf P.num) = true := by
  rw [Memory.wf_iff]
  simp [State.resetOf, Wave.empty]

/-- The form looks at the buffers and taps only. -/
theorem Memory.wf_congr (s t : State.Of α) (hb : t.b = s.b) (hw : t.w = s.w) (ht : t.t = s.t) :
    Memory.wf P t = Memory.wf P s := by
  simp only [Memory.wf, hb, hw, ht]

/-- A bit buffer replaced by one that fits keeps the form. -/
theorem Memory.wf_setB (s : State.Of α) (d : Fin 8) (v : BitSeq) (h : Memory.wf P s = true) (hv : v.length ≤ bcapOf P) :
    Memory.wf P { s with b := s.b.set d v } = true := by
  rw [Memory.wf_iff] at h ⊢
  refine ⟨fun i => ?_, h.2⟩
  simp only [Fin.getElem_fin, Vector.getElem_set]
  split
  · exact hv
  · exact h.1 i

/-- A sample buffer replaced by one that fits keeps the form. -/
theorem Memory.wf_setW (s : State.Of α) (d : Fin 8) (v : Wave.Of α) (h : Memory.wf P s = true) (hv : v.data.length ≤ P.wcap) :
    Memory.wf P { s with w := s.w.set d v } = true := by
  rw [Memory.wf_iff] at h ⊢
  refine ⟨h.1, fun i => ?_, h.2.2⟩
  simp only [Fin.getElem_fin, Vector.getElem_set]
  split
  · exact hv
  · exact h.2.1 i

/-- A tap replaced by one that fits keeps the form. -/
theorem Memory.wf_setT (s : State.Of α) (d : Fin 6) (v : Wave.Of α) (h : Memory.wf P s = true) (hv : v.data.length ≤ P.wcap) :
    Memory.wf P { s with t := s.t.set d v } = true := by
  rw [Memory.wf_iff] at h ⊢
  refine ⟨h.1, h.2.1, fun i => ?_⟩
  simp only [Fin.getElem_fin, Vector.getElem_set]
  split
  · exact hv
  · exact h.2.2 i

end Sys2Proof.Machine
end

