-- ==== Sys2Proof/Laws/Lists.lean ====
section
/-! SUPPORT. Sequences: grouping, holding, packing and the lengths of the commands' results. -/

namespace Sys2Proof.Machine

/-! ### Sequences built of pieces of one length -/

theorem length_pieces {α β : Type} (g : Nat) (f : α → List β) (l : List α) (h : ∀ a ∈ l, (f a).length = g) :
    (l.flatMap f).length = l.length * g := by
  induction l with
  | nil => simp
  | cons a l ih =>
    rw [List.flatMap_cons, List.length_append, h a (by simp), ih fun b hb => h b (by simp [hb]), List.length_cons]
    rw [Nat.succ_mul, Nat.add_comm]

theorem drop_pieces {α β : Type} (g : Nat) (f : α → List β) (l : List α) (h : ∀ a ∈ l, (f a).length = g) (k : Nat) :
    (l.flatMap f).drop (k * g) = (l.drop k).flatMap f := by
  induction l generalizing k with
  | nil => simp
  | cons a l ih =>
    have ha := h a (by simp)
    cases k with
    | zero => simp
    | succ k =>
      rw [List.flatMap_cons, Nat.succ_mul, Nat.add_comm, ← List.drop_drop, List.drop_left' ha,
        ih (fun b hb => h b (by simp [hb])), List.drop_succ_cons]

/-- The element at position `k * g + j` is the `j`-th of the `k`-th piece. -/
theorem getElem?_pieces {α β : Type} (g : Nat) (f : α → List β) (l : List α) (h : ∀ a ∈ l, (f a).length = g)
    (k j : Nat) (hj : j < g) : (l.flatMap f)[k * g + j]? = l[k]?.bind fun a => (f a)[j]? := by
  rw [← List.getElem?_drop, drop_pieces g f l h]
  by_cases hk : k < l.length
  · rw [List.drop_eq_getElem_cons hk, List.flatMap_cons, List.getElem?_append_left, List.getElem?_eq_getElem hk]
    · rfl
    · rw [h _ (List.getElem_mem hk)]; exact hj
  · rw [List.drop_eq_nil_of_le (Nat.le_of_not_lt hk), List.getElem?_eq_none (Nat.le_of_not_lt hk)]
    rfl

/-! ### Grouping (20_memory.md R68) -/

@[simp] theorem groups_length {α : Type} (g : Nat) (s : List α) : (groups g s).length = s.length / g := by
  simp [groups]

theorem groups_getElem? {α : Type} (g : Nat) (s : List α) (k : Nat) (hk : k < s.length / g) :
    (groups g s)[k]? = some ((s.drop (k * g)).take g) := by
  simp [groups, hk]

/-- A whole group has `g` elements. -/
theorem group_length {α : Type} (g : Nat) (s p : List α) (h : p ∈ groups g s) : p.length = g := by
  simp only [groups, List.mem_map, List.mem_range] at h
  obtain ⟨k, hk, rfl⟩ := h
  have h1 : (k + 1) * g ≤ s.length := (Nat.mul_le_mul_right g hk).trans (Nat.div_mul_le_self _ _)
  rw [Nat.succ_mul] at h1
  simp only [List.length_take, List.length_drop]
  omega

/-- Grouping a sequence built of pieces of `g` elements, a partial piece after them, gives the pieces. -/
theorem groups_pieces {α β : Type} (g : Nat) (f : α → List β) (l : List α) (rest : List β)
    (h : ∀ a ∈ l, (f a).length = g) (hr : rest.length < g) : groups g (l.flatMap f ++ rest) = l.map f := by
  have hlen := length_pieces g f l h
  have hdiv : (l.flatMap f ++ rest).length / g = l.length := by
    rw [List.length_append, hlen, Nat.add_comm, Nat.add_mul_div_right _ _ (by omega), Nat.div_eq_of_lt hr, Nat.zero_add]
  apply List.ext_getElem?
  intro k
  by_cases hk : k < l.length
  · rw [groups_getElem? g _ k (by rw [hdiv]; exact hk), List.getElem?_map, List.getElem?_eq_getElem hk]
    have h1 : k * g ≤ (l.flatMap f).length := by rw [hlen]; exact Nat.mul_le_mul_right g hk.le
    rw [List.drop_append_of_le_length h1, drop_pieces g f l h, List.drop_eq_getElem_cons hk, List.flatMap_cons,
      List.append_assoc, List.take_left' (h _ (List.getElem_mem hk))]
    rfl
  · rw [List.getElem?_eq_none (by rw [groups_length, hdiv]; omega), List.getElem?_eq_none (by rw [List.length_map]; omega)]

/-! ### Holding (43_spread_despread.md R183, 47_system_run.md R257) -/

@[simp] theorem hold_length {α : Type} (h : Nat) (s : List α) : (hold h s).length = s.length * h :=
  length_pieces h _ s fun _ _ => List.length_replicate

theorem hold_getElem? {α : Type} (h : Nat) (s : List α) (k u : Nat) (hu : u < h) : (hold h s)[k * h + u]? = s[k]? := by
  unfold hold
  rw [getElem?_pieces h _ s (fun _ _ => List.length_replicate) k u hu]
  cases s[k]? with
  | none => rfl
  | some a => simp [hu]

/-! ### Packing (00_scope.md R10) -/

@[simp] theorem pack_nil : pack [] = 0 := rfl

theorem pack_append (s : BitSeq) (bit : Bool) : pack (s ++ [bit]) = 2 * pack s + bit.toNat := by
  simp [pack]

/-- A packed sequence fits in as many bits as it has elements. -/
theorem pack_lt (s : BitSeq) : pack s < 2 ^ s.length := by
  induction s using List.reverseRecOn with
  | nil => simp
  | append_singleton s bit ih =>
    rw [pack_append, List.length_append, List.length_singleton, Nat.pow_succ]
    have := Bool.toNat_le bit
    omega

/-- A bit of a packed sequence: the first element is the most significant. -/
theorem pack_testBit (s : BitSeq) (j : Nat) :
    (pack s).testBit j = if j < s.length then s.getD (s.length - 1 - j) false else false := by
  induction s using List.reverseRecOn generalizing j with
  | nil => simp
  | append_singleton s bit ih =>
    rw [pack_append, ← Nat.bit_val, List.length_append, List.length_singleton]
    cases j with
    | zero => simp [List.getD_eq_getElem?_getD]
    | succ j =>
      rw [Nat.testBit_bit_succ, ih]
      by_cases hj : j < s.length
      · rw [if_pos hj, if_pos (by omega), List.getD_eq_getElem?_getD, List.getD_eq_getElem?_getD,
          List.getElem?_append_left (by omega), show s.length + 1 - 1 - (j + 1) = s.length - 1 - j by omega]
      · rw [if_neg hj, if_neg (by omega)]

@[simp] theorem unpack_length (n : Nat) (v : Word) : (unpack n v).length = n := by simp [unpack]

theorem unpack_getElem? (n : Nat) (v : Word) (i : Nat) (hi : i < n) : (unpack n v)[i]? = some (v.getLsbD (n - 1 - i)) := by
  simp [unpack, hi]

/-- Packing what was unpacked: the low `n` bits. -/
theorem pack_unpack (n : Nat) (v : Word) : pack (unpack n v) = v.toNat % 2 ^ n := by
  apply Nat.eq_of_testBit_eq
  intro j
  rw [pack_testBit, unpack_length, Nat.testBit_mod_two_pow]
  by_cases hj : j < n
  · rw [if_pos hj, List.getD_eq_getElem?_getD, unpack_getElem? n v _ (by omega)]
    have : n - 1 - (n - 1 - j) = j := by omega
    simp [this, hj, BitVec.getLsbD]
  · simp [hj]

/-- Unpacking what was packed. -/
theorem unpack_pack (s : BitSeq) (n : Nat) (h : s.length = n) (hn : n ≤ 64) : unpack n (BitVec.ofNat 64 (pack s)) = s := by
  apply List.ext_getElem?
  intro i
  by_cases hi : i < n
  · rw [unpack_getElem? n _ i hi, BitVec.getLsbD_ofNat, pack_testBit, if_pos (by omega), List.getD_eq_getElem?_getD]
    have h1 : s.length - 1 - (n - 1 - i) = i := by omega
    rw [h1, List.getElem?_eq_getElem (by omega)]
    simp
    omega
  · rw [List.getElem?_eq_none (by simp; omega), List.getElem?_eq_none (by omega)]

/-! ### Lengths of results -/

@[simp] theorem chunkMean_length {α : Type} (N : NumOps α) (v : List α) (w : Nat) :
    (chunkMean N v w).length = v.length / w := by
  simp [chunkMean]

@[simp] theorem tileMul_length {α : Type} (N : NumOps α) (a q : List α) (n : Nat) :
    (tileMul N a q n).length = a.length := by
  simp [tileMul]

/-- How many metrics the despreader gives (43_spread_despread.md R187). -/
@[simp] theorem despread_length {α : Type} (N : NumOps α) (r q : List α) (f n : Nat) :
    (despread N r q f n).length = r.length / f / n := by
  simp [despread]

@[simp] theorem sliceBits_length {α : Type} (N : NumOps α) (m : List α) : (sliceBits N m).length = m.length := by
  simp [sliceBits]

@[simp] theorem carrier_length {α : Type} (N : NumOps α) (fc rate : α) (n : Nat) :
    (carrier N fc rate n).length = n := by
  simp [carrier]

@[simp] theorem carrierMul_length {α : Type} (N : NumOps α) (fc rate : α) (v : List α) :
    (carrierMul N fc rate v).length = v.length := by
  simp [carrierMul]

/-- How many chips the spreader gives (43_spread_despread.md R181, R190). -/
theorem spreadBits_length {α : Type} (N : NumOps α) (n : Nat) (s : BitSeq) (p : List α) (hp : p.length = n) :
    (spreadBits N n s p).length = spreadLength n s := by
  unfold spreadBits spreadLength
  split
  · simp
  · exact length_pieces n _ s fun _ _ => by simp [hp]

@[simp] theorem manEncode_length (s : BitSeq) : (manEncode s).length = s.length * 2 :=
  length_pieces 2 _ s fun _ _ => rfl

@[simp] theorem repEncode_length (s : BitSeq) : (repEncode s).length = s.length * 3 := hold_length 3 s

/-- A whole block encodes to seven bits (41_hamming74.md R140). -/
theorem encBlock_length (p : BitSeq) (h : p.length = 4) : (encBlock p).length = 7 := by
  match p, h with
  | [_, _, _, _], _ => rfl

/-- A whole block decodes to four bits (41_hamming74.md R144). -/
theorem dec7_length (c : BitSeq) (h : c.length = 7) : (dec7 c).length = 4 := by
  have h7 : (cor7 c).length = 7 := by
    unfold cor7
    split
    · exact h
    · rw [List.length_modify]; exact h
  unfold dec7
  generalize cor7 c = v at h7
  match v, h7 with
  | [_, _, _, _, _, _, _], _ => rfl

theorem hamPad_lt (n : Nat) : hamPad n < 4 := Nat.mod_lt _ (by decide)

/-- The padded payload is a whole number of blocks (41_hamming74.md R150). -/
theorem add_hamPad (n : Nat) : n + hamPad n = (n + 3) / 4 * 4 := by
  unfold hamPad
  omega

@[simp] theorem hamEncode_length (s : BitSeq) : (hamEncode s).length = (s.length + 3) / 4 * 7 := by
  unfold hamEncode
  rw [length_pieces 7 _ _ fun p hp => encBlock_length p (group_length 4 _ p hp), groups_length, List.length_append,
    List.length_replicate, add_hamPad, Nat.mul_div_cancel _ (by decide)]

@[simp] theorem hamBlocks_length (r : BitSeq) : (hamBlocks r).length = r.length / 7 * 4 := by
  unfold hamBlocks
  rw [length_pieces 4 _ _ fun p hp => dec7_length p (group_length 7 _ p hp), groups_length]

/-- A decoder never lengthens its input (40_fec_bitcoding.md R121, 41_hamming74.md R151). -/
theorem hamDecode_length_le (r : BitSeq) (padlen payload : Nat) : (hamDecode r padlen payload).length ≤ r.length := by
  unfold hamDecode trunc
  simp only [List.length_take, hamBlocks_length]
  omega

end Sys2Proof.Machine
end

