-- ==== Sys2Proof/Laws/Noise.lean ====
section
/-! SUPPORT. The shaping sum of 45_noise.md in Num-real: with every bin kept it is the identity. -/

namespace Sys2Proof.Machine

/-- The cosines of the multiples of `d` `n`-ths of a turn add up to 0, unless `d` is 0. -/
theorem sum_cos_turns (n d : ℕ) (hd : d < n) :
    ∑ k ∈ Finset.range n, Real.cos (2 * Real.pi * ((k * d % n : ℕ) : ℝ) / n) = if d = 0 then (n : ℝ) else 0 := by
  have hn : (n : ℝ) ≠ 0 := by have : 0 < n := by omega
                              positivity
  split
  · next h => simp [h]
  · next h =>
    have key (k : ℕ) : Real.cos (2 * Real.pi * ((k * d % n : ℕ) : ℝ) / n)
        = (Complex.exp (2 * Real.pi * Complex.I * (d / n : ℂ)) ^ k).re := by
      have h1 : ((k * d % n : ℕ) : ℝ) = k * d - n * ((k * d / n : ℕ) : ℝ) := by
        have := Nat.mod_add_div (k * d) n
        rw [eq_sub_iff_add_eq]; exact_mod_cast this
      rw [h1, ← Complex.exp_nat_mul,
        show (k : ℂ) * (2 * Real.pi * Complex.I * (d / n : ℂ)) = ((2 * Real.pi * (k * d) / n : ℝ) : ℂ) * Complex.I by
          push_cast; ring, Complex.exp_ofReal_mul_I_re,
        show 2 * Real.pi * ((k : ℝ) * d - n * ((k * d / n : ℕ) : ℝ)) / n
          = 2 * Real.pi * (k * d) / n - ((k * d / n : ℕ) : ℝ) * (2 * Real.pi) by field_simp]
      exact Real.cos_sub_nat_mul_two_pi _ _
    have hz : ∑ k ∈ Finset.range n, Complex.exp (2 * Real.pi * Complex.I * (d / n : ℂ)) ^ k = 0 := by
      have hp := Complex.isPrimitiveRoot_exp n (by omega)
      have he : Complex.exp (2 * Real.pi * Complex.I * (d / n : ℂ)) = Complex.exp (2 * Real.pi * Complex.I / n) ^ d := by
        rw [← Complex.exp_nat_mul]; congr 1; ring
      have hne : Complex.exp (2 * Real.pi * Complex.I / n) ^ d ≠ 1 := hp.pow_ne_one_of_pos_of_lt (by omega) hd
      have hg := geom_sum_mul (Complex.exp (2 * Real.pi * Complex.I / n) ^ d) n
      rw [← pow_mul, mul_comm d n, pow_mul, hp.pow_eq_one, one_pow, sub_self] at hg
      rw [he]
      exact (mul_eq_zero.mp hg).resolve_right (sub_ne_zero.mpr hne)
    simp only [key]
    rw [← Complex.re_sum, hz]; rfl

/-- A sum over a list of indices as a sum over a range. -/
theorem sum_range_real (f : ℕ → ℝ) (n : ℕ) : ((List.range n).map f).sum = ∑ k ∈ Finset.range n, f k := rfl

/-- The summation of R184 in Num-real is the sum of the list. -/
theorem sumOf_real (l : List ℝ) : sumOf realOps l = l.sum := by
  rw [List.sum_eq_foldl]; rfl

/-- Where every bin is kept, shaping in Num-real gives the samples back (45_noise.md R214). -/
theorem shape_real_keep_all (g : List ℝ) (keep : ℕ → Bool) (h : ∀ k < g.length, keep k = true) :
    shape realOps g keep = g := by
  have hf : (List.range g.length).filter keep = List.range g.length :=
    List.filter_eq_self.mpr fun k hk => h k (List.mem_range.mp hk)
  refine List.ext_getElem (by simp [shape]) fun t ht _ => ?_
  have htn : t < g.length := by simpa [shape] using ht
  have hn : (g.length : ℝ) ≠ 0 := by
    have : 0 < g.length := by omega
    positivity
  have hterms : (shapeTerms realOps g keep t).sum
      = ∑ k ∈ Finset.range g.length, ∑ u ∈ Finset.range g.length,
          g.getD u 0 * Real.cos (2 * Real.pi * ((k * indexDistance t u % g.length : ℕ) : ℝ) / g.length) := by
    have hz (k : ℕ) : (g.zipIdx.map fun e => shapeTerm realOps g.length t k e.2 e.1)
        = (List.range g.length).map fun u => g.getD u 0 *
            Real.cos (2 * Real.pi * ((k * indexDistance t u % g.length : ℕ) : ℝ) / g.length) := by
      refine List.ext_getElem (by simp) fun u hu _ => ?_
      have hu' : u < g.length := by simpa using hu
      simp [shapeTerm, realOps, hu']
    simp only [shapeTerms, hf, hz, List.flatMap_def, List.sum_flatten, List.map_map, sum_range_real]
    rfl
  simp only [shape, List.getElem_map, List.getElem_range, sumOf_real, hterms]
  rw [Finset.sum_comm]
  have : ∀ u ∈ Finset.range g.length, ∑ k ∈ Finset.range g.length,
      g.getD u 0 * Real.cos (2 * Real.pi * ((k * indexDistance t u % g.length : ℕ) : ℝ) / g.length)
      = if u = t then g.length * g.getD u 0 else 0 := by
    intro u hu
    have hu := Finset.mem_range.mp hu
    rw [← Finset.mul_sum, sum_cos_turns _ _ (by unfold indexDistance; split <;> omega)]
    by_cases he : u = t
    · simp [he, indexDistance, mul_comm]
    · rw [if_neg he, if_neg (by unfold indexDistance; split <;> omega), mul_zero]
  rw [Finset.sum_congr rfl this, Finset.sum_ite_eq' , if_pos (Finset.mem_range.mpr htn)]
  simp only [realOps, List.getD_eq_getElem?_getD, List.getElem?_eq_getElem htn, Option.getD_some]
  field_simp

end Sys2Proof.Machine
end

