-- ==== Sys2Proof/Laws/PerInstr.lean ====
section
/-! SUPPORT. Said of every command, one lemma per constructor: its word matches the row of spec/opcode_table.json that
LAWS.json names for it. -/

namespace Sys2Proof.Laws.TableRow

/-- The word of the command matches the row with the given mnemonic (30_encoding.md R95, R99). -/
def MatchesRow (mnemonic : String) (i : Instr) : Prop :=
  ∃ r ∈ opcodeTable, r.mnemonic = mnemonic ∧ encode i &&& r.mask = r.pattern

/-- The word of every command matches the row of its own mnemonic. -/
def Statement : Instr → Prop
  | i@(.nop) => MatchesRow "NOP" i
  | i@(.halt) => MatchesRow "HALT" i
  | i@(.run) => MatchesRow "RUN" i
  | i@(.li _ _) => MatchesRow "LI" i
  | i@(.lih _ _) => MatchesRow "LIH" i
  | i@(.csrr _ _) => MatchesRow "CSRR" i
  | i@(.csrw _ _) => MatchesRow "CSRW" i
  | i@(.bclr _) => MatchesRow "BCLR" i
  | i@(.blen _ _) => MatchesRow "BLEN" i
  | i@(.bget _ _ _ _) => MatchesRow "BGET" i
  | i@(.bpush _ _ _) => MatchesRow "BPUSH" i
  | i@(.bflip _ _) => MatchesRow "BFLIP" i
  | i@(.wlen _ _) => MatchesRow "WLEN" i
  | i@(.bcmp _ _ _) => MatchesRow "BCMP" i
  | i@(.nrzenc _ _) => MatchesRow "NRZENC" i
  | i@(.nrzdec _ _) => MatchesRow "NRZDEC" i
  | i@(.manenc _ _) => MatchesRow "MANENC" i
  | i@(.mandec _ _) => MatchesRow "MANDEC" i
  | i@(.repenc _ _) => MatchesRow "REPENC" i
  | i@(.repdec _ _) => MatchesRow "REPDEC" i
  | i@(.fecenc _ _) => MatchesRow "FECENC" i
  | i@(.fecdec _ _) => MatchesRow "FECDEC" i
  | i@(.henc4 _ _) => MatchesRow "HENC4" i
  | i@(.hsyn7 _ _) => MatchesRow "HSYN7" i
  | i@(.hcor7 _ _) => MatchesRow "HCOR7" i
  | i@(.hdec7 _ _) => MatchesRow "HDEC7" i
  | i@(.hamenc _ _) => MatchesRow "HAMENC" i
  | i@(.hamdec _ _) => MatchesRow "HAMDEC" i
  | i@(.dseed _ _) => MatchesRow "DSEED" i
  | i@(.prngen _ _) => MatchesRow "PRNGEN" i
  | i@(.spread _ _ _) => MatchesRow "SPREAD" i
  | i@(.ovsamp _ _) => MatchesRow "OVSAMP" i
  | i@(.chmean _ _ _) => MatchesRow "CHMEAN" i
  | i@(.desprd _ _ _) => MatchesRow "DESPRD" i
  | i@(.slice _ _) => MatchesRow "SLICE" i
  | i@(.modul _ _) => MatchesRow "MODUL" i
  | i@(.demod _ _) => MatchesRow "DEMOD" i
  | i@(.noisew _ _) => MatchesRow "NOISEW" i
  | i@(.noiseb _ _) => MatchesRow "NOISEB" i
  | i@(.addnoise _ _) => MatchesRow "ADDNOISE" i

/-- How each lemma below is proved: the row, and the fields of the command's word against its mask. -/
theorem matchesRow_of_fields (m : String) (p w : CmdWord) (i : Instr) (op : BitVec 8) (a b c : BitVec 4) (k : BitVec 12)
    (ma mb mc : BitVec 4) (mk : BitVec 12) (hr : OpcodeRow.mk m p w ∈ opcodeTable) (hi : encode i = packFields op a b c k)
    (hw : w = packFields 0xFF ma mb mc mk) (hp : p = packFields op 0 0 0 0)
    (ha : a &&& ma = 0) (hb : b &&& mb = 0) (hc : c &&& mc = 0) (hk : k &&& mk = 0) : MatchesRow m i :=
  ⟨⟨m, p, w⟩, hr, rfl, by rw [hi, hw, hp]; exact packFields_match op a b c k ma mb mc mk ha hb hc hk⟩

theorem nop : Statement (.nop) :=
  matchesRow_of_fields "NOP" 0x01000000 0xFFFFFFFF _ _ _ _ _ _ 0xF 0xF 0xF 0xFFF
    (by decide) rfl (by decide) (by decide) (by simp) (by simp) (by simp) (by simp)

theorem halt : Statement (.halt) :=
  matchesRow_of_fields "HALT" 0x02000000 0xFFFFFFFF _ _ _ _ _ _ 0xF 0xF 0xF 0xFFF
    (by decide) rfl (by decide) (by decide) (by simp) (by simp) (by simp) (by simp)

theorem run : Statement (.run) :=
  matchesRow_of_fields "RUN" 0x03000000 0xFFFFFFFF _ _ _ _ _ _ 0xF 0xF 0xF 0xFFF
    (by decide) rfl (by decide) (by decide) (by simp) (by simp) (by simp) (by simp)

theorem li (xd : XReg) (imm : BitVec 16) : Statement (.li xd imm) :=
  matchesRow_of_fields "LI" 0x10000000 0xFF8F0000 _ _ _ _ _ _ 0x8 0xF 0x0 0x0
    (by decide) rfl (by decide) (by decide) (by simp) (by simp) (by simp) (by simp)

theorem lih (xd : XReg) (imm : BitVec 16) : Statement (.lih xd imm) :=
  matchesRow_of_fields "LIH" 0x11000000 0xFF8F0000 _ _ _ _ _ _ 0x8 0xF 0x0 0x0
    (by decide) rfl (by decide) (by decide) (by simp) (by simp) (by simp) (by simp)

theorem csrr (xd : XReg) (csr : BitVec 12) : Statement (.csrr xd csr) :=
  matchesRow_of_fields "CSRR" 0x12000000 0xFF8FF000 _ _ _ _ _ _ 0x8 0xF 0xF 0x0
    (by decide) rfl (by decide) (by decide) (by simp) (by simp) (by simp) (by simp)

theorem csrw (xs : XReg) (csr : BitVec 12) : Statement (.csrw xs csr) :=
  matchesRow_of_fields "CSRW" 0x13000000 0xFFF8F000 _ _ _ _ _ _ 0xF 0x8 0xF 0x0
    (by decide) rfl (by decide) (by decide) (by simp) (by simp) (by simp) (by simp)

theorem bclr (bd : BBuf) : Statement (.bclr bd) :=
  matchesRow_of_fields "BCLR" 0x14000000 0xFF8FFFFF _ _ _ _ _ _ 0x8 0xF 0xF 0xFFF
    (by decide) rfl (by decide) (by decide) (by simp) (by simp) (by simp) (by simp)

theorem blen (xd : XReg) (bs : BBuf) : Statement (.blen xd bs) :=
  matchesRow_of_fields "BLEN" 0x15000000 0xFF88FFFF _ _ _ _ _ _ 0x8 0x8 0xF 0xFFF
    (by decide) rfl (by decide) (by decide) (by simp) (by simp) (by simp) (by simp)

theorem bget (xd : XReg) (bs : BBuf) (xi : XReg) (nm1 : BitVec 6) : Statement (.bget xd bs xi nm1) :=
  matchesRow_of_fields "BGET" 0x16000000 0xFF888FC0 _ _ _ _ _ _ 0x8 0x8 0x8 0xFC0
    (by decide) rfl (by decide) (by decide) (by simp) (by simp) (by simp) (by simp)

theorem bpush (bd : BBuf) (xs : XReg) (nm1 : BitVec 6) : Statement (.bpush bd xs nm1) :=
  matchesRow_of_fields "BPUSH" 0x17000000 0xFF88FFC0 _ _ _ _ _ _ 0x8 0x8 0xF 0xFC0
    (by decide) rfl (by decide) (by decide) (by simp) (by simp) (by simp) (by simp)

theorem bflip (bd : BBuf) (xi : XReg) : Statement (.bflip bd xi) :=
  matchesRow_of_fields "BFLIP" 0x18000000 0xFF8F8FFF _ _ _ _ _ _ 0x8 0xF 0x8 0xFFF
    (by decide) rfl (by decide) (by decide) (by simp) (by simp) (by simp) (by simp)

theorem wlen (xd : XReg) (ws : WBuf) : Statement (.wlen xd ws) :=
  matchesRow_of_fields "WLEN" 0x19000000 0xFF88FFFF _ _ _ _ _ _ 0x8 0x8 0xF 0xFFF
    (by decide) rfl (by decide) (by decide) (by simp) (by simp) (by simp) (by simp)

theorem bcmp (xd : XReg) (bs bt : BBuf) : Statement (.bcmp xd bs bt) :=
  matchesRow_of_fields "BCMP" 0x1A000000 0xFF888FFF _ _ _ _ _ _ 0x8 0x8 0x8 0xFFF
    (by decide) rfl (by decide) (by decide) (by simp) (by simp) (by simp) (by simp)

theorem nrzenc (bd bs : BBuf) : Statement (.nrzenc bd bs) :=
  matchesRow_of_fields "NRZENC" 0x20000000 0xFF88FFFF _ _ _ _ _ _ 0x8 0x8 0xF 0xFFF
    (by decide) rfl (by decide) (by decide) (by simp) (by simp) (by simp) (by simp)

theorem nrzdec (bd bs : BBuf) : Statement (.nrzdec bd bs) :=
  matchesRow_of_fields "NRZDEC" 0x21000000 0xFF88FFFF _ _ _ _ _ _ 0x8 0x8 0xF 0xFFF
    (by decide) rfl (by decide) (by decide) (by simp) (by simp) (by simp) (by simp)

theorem manenc (bd bs : BBuf) : Statement (.manenc bd bs) :=
  matchesRow_of_fields "MANENC" 0x22000000 0xFF88FFFF _ _ _ _ _ _ 0x8 0x8 0xF 0xFFF
    (by decide) rfl (by decide) (by decide) (by simp) (by simp) (by simp) (by simp)

theorem mandec (bd bs : BBuf) : Statement (.mandec bd bs) :=
  matchesRow_of_fields "MANDEC" 0x23000000 0xFF88FFFF _ _ _ _ _ _ 0x8 0x8 0xF 0xFFF
    (by decide) rfl (by decide) (by decide) (by simp) (by simp) (by simp) (by simp)

theorem repenc (bd bs : BBuf) : Statement (.repenc bd bs) :=
  matchesRow_of_fields "REPENC" 0x24000000 0xFF88FFFF _ _ _ _ _ _ 0x8 0x8 0xF 0xFFF
    (by decide) rfl (by decide) (by decide) (by simp) (by simp) (by simp) (by simp)

theorem repdec (bd bs : BBuf) : Statement (.repdec bd bs) :=
  matchesRow_of_fields "REPDEC" 0x25000000 0xFF88FFFF _ _ _ _ _ _ 0x8 0x8 0xF 0xFFF
    (by decide) rfl (by decide) (by decide) (by simp) (by simp) (by simp) (by simp)

theorem fecenc (bd bs : BBuf) : Statement (.fecenc bd bs) :=
  matchesRow_of_fields "FECENC" 0x2E000000 0xFF88FFFF _ _ _ _ _ _ 0x8 0x8 0xF 0xFFF
    (by decide) rfl (by decide) (by decide) (by simp) (by simp) (by simp) (by simp)

theorem fecdec (bd bs : BBuf) : Statement (.fecdec bd bs) :=
  matchesRow_of_fields "FECDEC" 0x2F000000 0xFF88FFFF _ _ _ _ _ _ 0x8 0x8 0xF 0xFFF
    (by decide) rfl (by decide) (by decide) (by simp) (by simp) (by simp) (by simp)

theorem henc4 (xd xs : XReg) : Statement (.henc4 xd xs) :=
  matchesRow_of_fields "HENC4" 0x30000000 0xFF88FFFF _ _ _ _ _ _ 0x8 0x8 0xF 0xFFF
    (by decide) rfl (by decide) (by decide) (by simp) (by simp) (by simp) (by simp)

theorem hsyn7 (xd xs : XReg) : Statement (.hsyn7 xd xs) :=
  matchesRow_of_fields "HSYN7" 0x31000000 0xFF88FFFF _ _ _ _ _ _ 0x8 0x8 0xF 0xFFF
    (by decide) rfl (by decide) (by decide) (by simp) (by simp) (by simp) (by simp)

theorem hcor7 (xd xs : XReg) : Statement (.hcor7 xd xs) :=
  matchesRow_of_fields "HCOR7" 0x32000000 0xFF88FFFF _ _ _ _ _ _ 0x8 0x8 0xF 0xFFF
    (by decide) rfl (by decide) (by decide) (by simp) (by simp) (by simp) (by simp)

theorem hdec7 (xd xs : XReg) : Statement (.hdec7 xd xs) :=
  matchesRow_of_fields "HDEC7" 0x33000000 0xFF88FFFF _ _ _ _ _ _ 0x8 0x8 0xF 0xFFF
    (by decide) rfl (by decide) (by decide) (by simp) (by simp) (by simp) (by simp)

theorem hamenc (bd bs : BBuf) : Statement (.hamenc bd bs) :=
  matchesRow_of_fields "HAMENC" 0x34000000 0xFF88FFFF _ _ _ _ _ _ 0x8 0x8 0xF 0xFFF
    (by decide) rfl (by decide) (by decide) (by simp) (by simp) (by simp) (by simp)

theorem hamdec (bd bs : BBuf) : Statement (.hamdec bd bs) :=
  matchesRow_of_fields "HAMDEC" 0x35000000 0xFF88FFFF _ _ _ _ _ _ 0x8 0x8 0xF 0xFFF
    (by decide) rfl (by decide) (by decide) (by simp) (by simp) (by simp) (by simp)

theorem dseed (xd : XReg) (bs : BBuf) : Statement (.dseed xd bs) :=
  matchesRow_of_fields "DSEED" 0x40000000 0xFF88FFFF _ _ _ _ _ _ 0x8 0x8 0xF 0xFFF
    (by decide) rfl (by decide) (by decide) (by simp) (by simp) (by simp) (by simp)

theorem prngen (wd : WBuf) (xs : XReg) : Statement (.prngen wd xs) :=
  matchesRow_of_fields "PRNGEN" 0x41000000 0xFF88FFFF _ _ _ _ _ _ 0x8 0x8 0xF 0xFFF
    (by decide) rfl (by decide) (by decide) (by simp) (by simp) (by simp) (by simp)

theorem spread (wd : WBuf) (bs : BBuf) (wp : WBuf) : Statement (.spread wd bs wp) :=
  matchesRow_of_fields "SPREAD" 0x50000000 0xFF888FFF _ _ _ _ _ _ 0x8 0x8 0x8 0xFFF
    (by decide) rfl (by decide) (by decide) (by simp) (by simp) (by simp) (by simp)

theorem ovsamp (wd ws : WBuf) : Statement (.ovsamp wd ws) :=
  matchesRow_of_fields "OVSAMP" 0x51000000 0xFF88FFFF _ _ _ _ _ _ 0x8 0x8 0xF 0xFFF
    (by decide) rfl (by decide) (by decide) (by simp) (by simp) (by simp) (by simp)

theorem chmean (wd ws : WBuf) (xw : XReg) : Statement (.chmean wd ws xw) :=
  matchesRow_of_fields "CHMEAN" 0x52000000 0xFF888FFF _ _ _ _ _ _ 0x8 0x8 0x8 0xFFF
    (by decide) rfl (by decide) (by decide) (by simp) (by simp) (by simp) (by simp)

theorem desprd (wd ws wp : WBuf) : Statement (.desprd wd ws wp) :=
  matchesRow_of_fields "DESPRD" 0x53000000 0xFF888FFF _ _ _ _ _ _ 0x8 0x8 0x8 0xFFF
    (by decide) rfl (by decide) (by decide) (by simp) (by simp) (by simp) (by simp)

theorem slice (bd : BBuf) (ws : WBuf) : Statement (.slice bd ws) :=
  matchesRow_of_fields "SLICE" 0x54000000 0xFF88FFFF _ _ _ _ _ _ 0x8 0x8 0xF 0xFFF
    (by decide) rfl (by decide) (by decide) (by simp) (by simp) (by simp) (by simp)

theorem modul (wd ws : WBuf) : Statement (.modul wd ws) :=
  matchesRow_of_fields "MODUL" 0x60000000 0xFF88FFFF _ _ _ _ _ _ 0x8 0x8 0xF 0xFFF
    (by decide) rfl (by decide) (by decide) (by simp) (by simp) (by simp) (by simp)

theorem demod (wd ws : WBuf) : Statement (.demod wd ws) :=
  matchesRow_of_fields "DEMOD" 0x61000000 0xFF88FFFF _ _ _ _ _ _ 0x8 0x8 0xF 0xFFF
    (by decide) rfl (by decide) (by decide) (by simp) (by simp) (by simp) (by simp)

theorem noisew (wd ws : WBuf) : Statement (.noisew wd ws) :=
  matchesRow_of_fields "NOISEW" 0x70000000 0xFF88FFFF _ _ _ _ _ _ 0x8 0x8 0xF 0xFFF
    (by decide) rfl (by decide) (by decide) (by simp) (by simp) (by simp) (by simp)

theorem noiseb (wd ws : WBuf) : Statement (.noiseb wd ws) :=
  matchesRow_of_fields "NOISEB" 0x71000000 0xFF88FFFF _ _ _ _ _ _ 0x8 0x8 0xF 0xFFF
    (by decide) rfl (by decide) (by decide) (by simp) (by simp) (by simp) (by simp)

theorem addnoise (wd ws : WBuf) : Statement (.addnoise wd ws) :=
  matchesRow_of_fields "ADDNOISE" 0x72000000 0xFF88FFFF _ _ _ _ _ _ 0x8 0x8 0xF 0xFFF
    (by decide) rfl (by decide) (by decide) (by simp) (by simp) (by simp) (by simp)

end Sys2Proof.Laws.TableRow
end

