-- ==== Sys2Proof/Laws/Rules.lean ====
section
/-! SUPPORT. What the rule of a command can write, by shape: a scalar register, a bit buffer with the coding metadata, a
sample buffer with the draw count, a control register, or the whole of a `RUN`. -/

namespace Sys2Proof.Machine

variable {α : Type} {P : Params α}

/-- One scalar register is written and nothing else. -/
def RegWrite (s t : State.Of α) : Prop := ∃ (r : XReg) (v : Word), t = { s with x := s.x.set r v }

/-- One bit buffer is written, with the metadata registers, and nothing else; it fits. -/
def CodeWrite (P : Params α) (s t : State.Of α) : Prop :=
  ∃ (d : BBuf) (v : BitSeq) (p q r : Word), v.length ≤ bcapOf P ∧
    t = { s with b := s.b.set d v, payload := p, padlen := q, repeatFactor := r }

/-- One bit buffer is written and nothing else; it fits. -/
def BitsWrite (P : Params α) (s t : State.Of α) : Prop := ∃ (d : BBuf) (v : BitSeq), v.length ≤ bcapOf P ∧ t = { s with b := s.b.set d v }

/-- One sample buffer is written and nothing else but the draw count; it fits. -/
def WaveWrite (P : Params α) (s t : State.Of α) : Prop :=
  ∃ (d : WBuf) (v : Wave.Of α) (k : Nat), v.data.length ≤ P.wcap ∧ s.draws ≤ k ∧ t = { s with w := s.w.set d v, draws := k }

/-- A bit buffer alone is a case of a bit buffer with metadata. -/
theorem BitsWrite.code {s t : State.Of α} (h : BitsWrite P s t) : CodeWrite P s t := by
  obtain ⟨d, v, hv, rfl⟩ := h
  exact ⟨d, v, s.payload, s.padlen, s.repeatFactor, hv, rfl⟩

theorem setB_bitsWrite {d : BBuf} {v : BitSeq} {s t : State.Of α} (h : setB P d v s = .ok t) : BitsWrite P s t := by
  obtain ⟨hv, rfl⟩ := (setB_eq_ok ..).1 h
  exact ⟨d, v, hv, rfl⟩

theorem setW_waveWrite {d : WBuf} {v : List α} {r : α} {s t : State.Of α} (h : setW P d v r s = .ok t) : WaveWrite P s t := by
  obtain ⟨hv, rfl⟩ := (setW_eq_ok ..).1 h
  exact ⟨d, ⟨v, r⟩, s.draws, hv, le_rfl, rfl⟩

/-- A waveform written after draws were taken. -/
theorem setW_gauss_waveWrite {d : WBuf} {v : List α} {r : α} {n : Nat} {s t : State.Of α}
    (h : setW P d v r (gauss P n s).2 = .ok t) : WaveWrite P s t := by
  obtain ⟨hv, rfl⟩ := (setW_eq_ok ..).1 h
  rw [gauss_state]
  refine ⟨d, ⟨v, r⟩, _, hv, ?_, rfl⟩
  rw [gauss_draws]
  split <;> omega

/-! ### The scalar commands (46_scalar_buffer.md) -/

theorem ruleCsrr_regWrite {xd : XReg} {csr : BitVec 12} {s t : State.Of α} (h : ruleCsrr xd csr s = .ok t) : RegWrite s t := by
  unfold ruleCsrr at h
  split at h
  · injection h with h; exact ⟨xd, _, h.symm⟩
  · cases h

/-- `CSRW` writes one writable control register (46_scalar_buffer.md R234). -/
theorem ruleCsrw_eq_ok {xs : XReg} {csr : BitVec 12} {s t : State.Of α} (h : ruleCsrw xs csr s = .ok t) :
    ∃ r : IntCsr, IntCsr.ofNumber csr = some r ∧ r.writable = true ∧ t = writeCsr r (readX xs s) s := by
  unfold ruleCsrw at h
  split at h
  · rename_i r hr
    split at h
    · rename_i hw
      injection h with h
      exact ⟨r, hr, hw, h.symm⟩
    · cases h
  · cases h

theorem ruleBget_regWrite {xd : XReg} {bs : BBuf} {xi : XReg} {nm1 : BitVec 6} {s t : State.Of α}
    (h : ruleBget xd bs xi nm1 s = .ok t) : RegWrite s t := by
  unfold ruleBget at h
  obtain ⟨v, -, h⟩ := (bind_eq_ok ..).1 h
  injection h with h
  exact ⟨xd, _, h.symm⟩

/-- `BFLIP` writes its own buffer and keeps its length (46_scalar_buffer.md R239). -/
theorem ruleBflip_eq_ok {bd : BBuf} {xi : XReg} {s t : State.Of α} (h : ruleBflip bd xi s = .ok t) :
    ∃ v : BitSeq, v.length = (readB bd s).length ∧ t = { s with b := s.b.set bd v } := by
  unfold ruleBflip at h
  obtain ⟨v, -, h⟩ := (bind_eq_ok ..).1 h
  obtain ⟨z, hz, h⟩ := (bind_eq_ok ..).1 h
  injection h with h
  exact ⟨z, memWrite_length _ _ _ _ hz, h.symm⟩

/-! ### The bit codings (40_fec_bitcoding.md, 41_hamming74.md) -/

theorem ruleNrzenc_codeWrite {bd bs : BBuf} {s t : State.Of α} (h : ruleNrzenc P bd bs s = .ok t) : CodeWrite P s t := by
  unfold ruleNrzenc at h
  obtain ⟨u, hu, h⟩ := (bind_eq_ok ..).1 h
  obtain ⟨d, v, hv, rfl⟩ := setB_bitsWrite hu
  injection h with h
  exact ⟨d, v, _, _, _, hv, h.symm⟩

theorem ruleManenc_codeWrite {bd bs : BBuf} {s t : State.Of α} (h : ruleManenc P bd bs s = .ok t) : CodeWrite P s t := by
  unfold ruleManenc at h
  obtain ⟨u, hu, h⟩ := (bind_eq_ok ..).1 h
  obtain ⟨d, v, hv, rfl⟩ := setB_bitsWrite hu
  injection h with h
  exact ⟨d, v, _, _, _, hv, h.symm⟩

theorem ruleRepenc_codeWrite {bd bs : BBuf} {s t : State.Of α} (h : ruleRepenc P bd bs s = .ok t) : CodeWrite P s t := by
  unfold ruleRepenc at h
  obtain ⟨u, hu, h⟩ := (bind_eq_ok ..).1 h
  obtain ⟨d, v, hv, rfl⟩ := setB_bitsWrite hu
  injection h with h
  exact ⟨d, v, _, _, _, hv, h.symm⟩

theorem ruleHamenc_codeWrite {bd bs : BBuf} {s t : State.Of α} (h : ruleHamenc P bd bs s = .ok t) : CodeWrite P s t := by
  unfold ruleHamenc at h
  obtain ⟨u, hu, h⟩ := (bind_eq_ok ..).1 h
  obtain ⟨d, v, hv, rfl⟩ := setB_bitsWrite hu
  injection h with h
  exact ⟨d, v, _, _, _, hv, h.symm⟩

theorem ruleFecenc_codeWrite {bd bs : BBuf} {s t : State.Of α} (h : ruleFecenc P bd bs s = .ok t) : CodeWrite P s t := by
  unfold ruleFecenc at h
  split at h
  · exact ruleNrzenc_codeWrite h
  · exact ruleManenc_codeWrite h
  · exact ruleRepenc_codeWrite h
  · exact ruleHamenc_codeWrite h
  · cases h

theorem ruleRepdec_bitsWrite {bd bs : BBuf} {s t : State.Of α} (h : ruleRepdec P bd bs s = .ok t) : BitsWrite P s t := by
  unfold ruleRepdec at h
  split at h
  · cases h
  · exact setB_bitsWrite h

theorem ruleFecdec_bitsWrite {bd bs : BBuf} {s t : State.Of α} (h : ruleFecdec P bd bs s = .ok t) : BitsWrite P s t := by
  unfold ruleFecdec at h
  split at h
  · exact setB_bitsWrite h
  · exact setB_bitsWrite h
  · exact ruleRepdec_bitsWrite h
  · exact setB_bitsWrite h
  · cases h

/-! ### Seeds and chips (42_prn.md) -/

theorem ruleDseed_regWrite {xd : XReg} {bs : BBuf} {s t : State.Of α} (h : ruleDseed xd bs s = .ok t) : RegWrite s t := by
  unfold ruleDseed at h
  dsimp only at h
  split at h
  · cases h
  · injection h with h; exact ⟨xd, _, h.symm⟩

/-- Generating chips: all it can do (42_prn.md R164). -/
theorem genChips_eq_ok (wd : WBuf) (seed : Word) (s t : State.Of α) :
    genChips P wd seed s = .ok t ↔
      s.cpb.toNat ≤ P.wcap ∧ t = { s with w := s.w.set wd ⟨chipGenOf P seed s.cpb.toNat, s.chiprate⟩ } := by
  unfold genChips
  simp only [bind_eq_ok, checkW_eq_ok, setW_eq_ok, chipGenOf_length]
  constructor
  · rintro ⟨-, h, -, rfl⟩; exact ⟨h, rfl⟩
  · rintro ⟨h, rfl⟩; exact ⟨(), h, h, rfl⟩

/-- Generating chips raises for want of room only (42_prn.md R164). -/
theorem genChips_eq_error (wd : WBuf) (seed : Word) (s : State.Of α) (e : Raise) :
    genChips P wd seed s = .error e ↔ P.wcap < s.cpb.toNat ∧ e = ⟨.capacity, s.cpb.toNat⟩ := by
  unfold genChips
  simp only [bind_eq_error, checkW_eq_error, checkW_eq_ok, setW_eq_error, chipGenOf_length]
  constructor
  · rintro (h | ⟨-, h, h', -⟩)
    · exact h
    · omega
  · exact .inl

theorem genChips_waveWrite {wd : WBuf} {seed : Word} {s t : State.Of α} (h : genChips P wd seed s = .ok t) : WaveWrite P s t := by
  obtain ⟨hc, rfl⟩ := (genChips_eq_ok ..).1 h
  exact ⟨wd, _, s.draws, by simpa using hc, le_rfl, rfl⟩

/-! ### Sample commands (43_spread_despread.md, 44_carrier.md, 45_noise.md) -/

/-- Spreading: all it can do (43_spread_despread.md R181). -/
theorem ruleSpread_eq_ok (wd : WBuf) (bs : BBuf) (wp : WBuf) (s t : State.Of α) :
    ruleSpread P wd bs wp s = .ok t ↔
      (readW wp s).data.length = s.cpb.toNat ∧ spreadLength s.cpb.toNat (readB bs s) ≤ P.wcap ∧
      t = { s with w := s.w.set wd ⟨spreadBits P.num s.cpb.toNat (readB bs s) (readW wp s).data, s.chiprate⟩ } := by
  unfold ruleSpread
  by_cases hp : (readW wp s).data.length = s.cpb.toNat
  · simp only [hp, ne_eq, not_true_eq_false, if_false, bind_eq_ok, checkW_eq_ok, setW_eq_ok, true_and,
      spreadBits_length P.num _ (readB bs s) _ hp]
    constructor
    · rintro ⟨-, h, -, rfl⟩; exact ⟨h, rfl⟩
    · rintro ⟨h, rfl⟩; exact ⟨(), h, h, rfl⟩
  · simp [hp, throw, throwThe, MonadExceptOf.throw]

theorem ruleSpread_waveWrite {wd : WBuf} {bs : BBuf} {wp : WBuf} {s t : State.Of α} (h : ruleSpread P wd bs wp s = .ok t) :
    WaveWrite P s t := by
  obtain ⟨hp, hl, rfl⟩ := (ruleSpread_eq_ok ..).1 h
  exact ⟨wd, _, s.draws, by simpa [spreadBits_length _ _ _ _ hp] using hl, le_rfl, rfl⟩

/-- Oversampling: all it can do (43_spread_despread.md R183). -/
theorem ruleOvsamp_eq_ok (wd ws : WBuf) (s t : State.Of α) :
    ruleOvsamp P wd ws s = .ok t ↔
      (readW ws s).data.length * s.ovs.toNat ≤ P.wcap ∧
      t = { s with w := s.w.set wd ⟨hold s.ovs.toNat (readW ws s).data,
        P.num.mul (readW ws s).rate (P.num.ofNat s.ovs.toNat)⟩ } := by
  unfold ruleOvsamp
  simp only [bind_eq_ok, checkW_eq_ok, setW_eq_ok, hold_length]
  constructor
  · rintro ⟨-, h, -, rfl⟩; exact ⟨h, rfl⟩
  · rintro ⟨h, rfl⟩; exact ⟨(), h, h, rfl⟩

theorem ruleOvsamp_waveWrite {wd ws : WBuf} {s t : State.Of α} (h : ruleOvsamp P wd ws s = .ok t) : WaveWrite P s t := by
  obtain ⟨hl, rfl⟩ := (ruleOvsamp_eq_ok ..).1 h
  exact ⟨wd, _, s.draws, by simpa using hl, le_rfl, rfl⟩

theorem ruleChmean_waveWrite {wd ws : WBuf} {xw : XReg} {s t : State.Of α} (h : ruleChmean P wd ws xw s = .ok t) :
    WaveWrite P s t := by
  unfold ruleChmean at h
  dsimp only at h
  split at h
  · cases h
  · exact setW_waveWrite h

/-- Despreading: all it can do (43_spread_despread.md R187). -/
theorem ruleDesprd_eq_ok (wd ws wp : WBuf) (s t : State.Of α) :
    ruleDesprd P wd ws wp s = .ok t ↔
      s.ovs.toNat ≠ 0 ∧ (readW wp s).data.length = s.cpb.toNat ∧ s.cpb.toNat ≠ 0 ∧
      (readW ws s).data.length / s.ovs.toNat / s.cpb.toNat ≤ P.wcap ∧
      t = { s with w := s.w.set wd (Wave.Of.mk (despread P.num (readW ws s).data (readW wp s).data s.ovs.toNat s.cpb.toNat)
                          (P.num.div (readW ws s).rate (P.num.mul (P.num.ofNat s.ovs.toNat) (P.num.ofNat s.cpb.toNat)))) } := by
  unfold ruleDesprd
  dsimp only
  by_cases hf : s.ovs.toNat = 0
  · simp [hf]
  by_cases hq : (readW wp s).data.length = s.cpb.toNat
  · by_cases hn : s.cpb.toNat = 0
    · simp [hf, hq, hn]
    · rw [if_neg hf, if_neg (not_not.2 hq), if_neg hn, setW_eq_ok, despread_length]
      exact ⟨fun h => ⟨hf, hq, hn, h.1, h.2⟩, fun h => h.2.2.2⟩
  · simp [hf, hq]

theorem ruleDesprd_waveWrite {wd ws wp : WBuf} {s t : State.Of α} (h : ruleDesprd P wd ws wp s = .ok t) : WaveWrite P s t := by
  obtain ⟨-, -, -, hl, rfl⟩ := (ruleDesprd_eq_ok ..).1 h
  exact ⟨wd, _, s.draws, by simpa using hl, le_rfl, rfl⟩

/-- The carrier commands: all they can do (44_carrier.md R201, R202). -/
theorem mixCarrier_eq_ok (wd ws : WBuf) (s t : State.Of α) :
    mixCarrier P wd ws s = .ok t ↔
      P.num.gt0 (readW ws s).rate = true ∧ (readW ws s).data.length ≤ P.wcap ∧
      t = { s with w := s.w.set wd ⟨carrierMul P.num s.fc (readW ws s).rate (readW ws s).data, (readW ws s).rate⟩ } := by
  unfold mixCarrier
  dsimp only
  split
  · rename_i hr
    rw [setW_eq_ok, carrierMul_length]
    exact ⟨fun h => ⟨hr, h.1, h.2⟩, fun h => h.2⟩
  · rename_i hr
    exact ⟨fun h => (nomatch h), fun h => absurd h.1 hr⟩

theorem mixCarrier_waveWrite {wd ws : WBuf} {s t : State.Of α} (h : mixCarrier P wd ws s = .ok t) : WaveWrite P s t := by
  obtain ⟨-, hl, rfl⟩ := (mixCarrier_eq_ok ..).1 h
  exact ⟨wd, _, s.draws, by simpa using hl, le_rfl, rfl⟩

theorem ruleNoisew_waveWrite {wd ws : WBuf} {s t : State.Of α} (h : ruleNoisew P wd ws s = .ok t) : WaveWrite P s t := by
  unfold ruleNoisew at h
  dsimp only at h
  split at h
  · exact setW_gauss_waveWrite h
  · exact setW_waveWrite h

theorem ruleNoiseb_waveWrite {wd ws : WBuf} {s t : State.Of α} (h : ruleNoiseb P wd ws s = .ok t) : WaveWrite P s t := by
  unfold ruleNoiseb at h
  dsimp only at h
  split at h
  · split at h
    · split at h
      · exact setW_waveWrite h
      · exact setW_gauss_waveWrite h
    · cases h
  · exact setW_waveWrite h

theorem ruleAddnoise_waveWrite {wd ws : WBuf} {s t : State.Of α} (h : ruleAddnoise P wd ws s = .ok t) : WaveWrite P s t := by
  unfold ruleAddnoise at h
  split at h
  · exact ruleNoisew_waveWrite h
  · exact ruleNoiseb_waveWrite h
  · cases h

/-! ### `RUN` (47_system_run.md) -/

/-- What the steps 1 to 10 of `RUN` leave alone. -/
def PipelineWrite (P : Params α) (s t : State.Of α) : Prop :=
  ∃ (b : Vector BitSeq 8) (w : Vector (Wave.Of α) 8) (p q r : Word) (k : Nat), s.draws ≤ k ∧
    (Memory.wf P s = true → Memory.wf P t = true) ∧
    t = { s with b := b, w := w, payload := p, padlen := q, repeatFactor := r, draws := k }

theorem PipelineWrite.refl (s : State.Of α) : PipelineWrite P s s := ⟨_, _, _, _, _, _, le_rfl, id, rfl⟩

theorem PipelineWrite.trans {s t u : State.Of α} (h : PipelineWrite P s t) (h' : PipelineWrite P t u) : PipelineWrite P s u := by
  obtain ⟨b, w, p, q, r, k, hk, hm, rfl⟩ := h
  obtain ⟨b', w', p', q', r', k', hk', hm', rfl⟩ := h'
  exact ⟨b', w', p', q', r', k', le_trans hk hk', fun h => hm' (hm h), rfl⟩

theorem CodeWrite.pipeline {s t : State.Of α} (h : CodeWrite P s t) : PipelineWrite P s t := by
  obtain ⟨d, v, p, q, r, hv, rfl⟩ := h
  exact ⟨_, s.w, p, q, r, s.draws, le_rfl, fun hm => Memory.wf_setB s d v hm hv, rfl⟩

theorem WaveWrite.pipeline {s t : State.Of α} (h : WaveWrite P s t) : PipelineWrite P s t := by
  obtain ⟨d, v, k, hv, hk, rfl⟩ := h
  exact ⟨s.b, _, s.payload, s.padlen, s.repeatFactor, k, hk, fun hm => Memory.wf_setW s d v hm hv, rfl⟩

theorem runPipeline_pipelineWrite {s t : State.Of α} (h : runPipeline P s = .ok t) : PipelineWrite P s t := by
  unfold runPipeline at h
  obtain ⟨s1, h1, h⟩ := (bind_eq_ok ..).1 h
  obtain ⟨s2, h2, h⟩ := (bind_eq_ok ..).1 h
  obtain ⟨s3, h3, h⟩ := (bind_eq_ok ..).1 h
  obtain ⟨s4, h4, h⟩ := (bind_eq_ok ..).1 h
  obtain ⟨s5, h5, h⟩ := (bind_eq_ok ..).1 h
  obtain ⟨s6, h6, h⟩ := (bind_eq_ok ..).1 h
  obtain ⟨s7, h7, h⟩ := (bind_eq_ok ..).1 h
  obtain ⟨s8, h8, h⟩ := (bind_eq_ok ..).1 h
  obtain ⟨s9, h9, h⟩ := (bind_eq_ok ..).1 h
  obtain ⟨s10, h10, h⟩ := (bind_eq_ok ..).1 h
  exact (ruleFecenc_codeWrite h1).pipeline.trans <| (genChips_waveWrite h2).pipeline.trans <|
    (genChips_waveWrite h3).pipeline.trans <| (ruleSpread_waveWrite h4).pipeline.trans <|
    (ruleOvsamp_waveWrite h5).pipeline.trans <| (mixCarrier_waveWrite h6).pipeline.trans <|
    (ruleAddnoise_waveWrite h7).pipeline.trans <| (mixCarrier_waveWrite h8).pipeline.trans <|
    (ruleDesprd_waveWrite h9).pipeline.trans <| (setB_bitsWrite h10).code.pipeline.trans <|
    (ruleFecdec_bitsWrite h).code.pipeline

/-- The taps that step 12 of `RUN` writes (47_system_run.md R257). -/
def tapsOf (P : Params α) (s : State.Of α) : Vector (Wave.Of α) 6 :=
  let h := s.cpb.toNat * s.ovs.toNat
  let rate := (readW 3 s).rate
  #v[⟨hold h ((readB 0 s).map (bitSample P.num)), rate⟩, ⟨(readW 3 s).data, rate⟩, ⟨(readW 4 s).data, rate⟩,
    ⟨(readW 5 s).data, rate⟩, ⟨hold h (readW 7 s).data, rate⟩, ⟨hold h ((readB 2 s).map (bitSample P.num)), rate⟩]

/-- Six elements set one after another. -/
theorem set_six {α : Type} (v : Vector α 6) (a b c d e f : α) :
    (((((v.set 0 a).set 1 b).set 2 c).set 3 d).set 4 e).set 5 f = #v[a, b, c, d, e, f] := by
  ext i hi
  interval_cases i <;> simp

/-- Writing the taps: all it can do (47_system_run.md R257). -/
theorem writeTaps_eq_ok (s t : State.Of α) :
    writeTaps P s = .ok t ↔ (∀ i : Fin 6, (tapsOf P s)[i].data.length ≤ P.wcap) ∧ t = { s with t := tapsOf P s } := by
  unfold writeTaps
  simp only [bind_eq_ok, setT_eq_ok]
  constructor
  · rintro ⟨_, ⟨h0, rfl⟩, _, ⟨h1, rfl⟩, _, ⟨h2, rfl⟩, _, ⟨h3, rfl⟩, _, ⟨h4, rfl⟩, h5, rfl⟩
    refine ⟨fun i => ?_, congrArg (fun v => { s with t := v }) (set_six ..)⟩
    match i with
    | 0 => exact h0
    | 1 => exact h1
    | 2 => exact h2
    | 3 => exact h3
    | 4 => exact h4
    | 5 => exact h5
  · rintro ⟨h, rfl⟩
    exact ⟨_, ⟨h 0, rfl⟩, _, ⟨h 1, rfl⟩, _, ⟨h 2, rfl⟩, _, ⟨h 3, rfl⟩, _, ⟨h 4, rfl⟩, h 5,
      congrArg (fun v => { s with t := v }) (set_six ..).symm⟩

/-- `RUN`: what it needs and what it leaves (47_system_run.md R252 to R254). -/
theorem ruleRun_eq_ok (s t : State.Of α) :
    ruleRun P s = .ok t ↔ readB 0 s ≠ [] ∧ ∃ u, runPipeline P s = .ok u ∧
      (∀ i : Fin 6, (tapsOf P u)[i].data.length ≤ P.wcap) ∧
      t = { u with mismatch := bitsDiffer (readB 3 u) (readB 0 u), t := tapsOf P u, tapv := true, runid := s.runid + 1 } := by
  unfold ruleRun
  by_cases hb : readB 0 s = []
  · simp [hb, throw, throwThe, MonadExceptOf.throw]
  · simp only [hb, if_false, bind_eq_ok, writeTaps_eq_ok, ne_eq, not_false_eq_true, true_and]
    constructor
    · rintro ⟨u, hu, _, ⟨h, rfl⟩, ht⟩
      obtain ⟨b, w, p, q, r, k, -, -, rfl⟩ := runPipeline_pipelineWrite hu
      exact ⟨_, hu, h, (Except.ok.inj ht).symm⟩
    · rintro ⟨u, hu, h, rfl⟩
      obtain ⟨b, w, p, q, r, k, -, -, rfl⟩ := runPipeline_pipelineWrite hu
      exact ⟨_, hu, _, ⟨h, rfl⟩, rfl⟩

/-! ### Every command is the end of its rule -/

/-- The core instance's execution is the one over any instance. -/
theorem exec_eq_execIn (i : Instr) (s : State) : exec i s = execIn machine i s := by cases i <;> rfl

/-- The core instance's step is the one over any instance. -/
theorem step_eq_stepIn (s : State) : step s = stepIn machine s := by
  unfold step stepIn
  cases fetch s with
  | error f => rfl
  | ok w =>
    dsimp only
    cases decode w with
    | error e => rfl
    | ok i => exact exec_eq_execIn i s

/-- Executing a command is its rule, committed or turned into a fault (30_encoding.md R93). -/
theorem exec_eq_finish (i : Instr) (s : State) : exec i s = finish s (ruleIn machine i s) := exec_eq_execIn i s

end Sys2Proof.Machine
end

