-- ==== Sys2Proof/Laws/Pipeline.lean ====
section
/-! SUPPORT. The dispatching commands and the steps of `RUN` in closed form: what each needs and what state it leaves. -/

namespace Sys2Proof.Machine

variable {α : Type} {P : Params α}

/-! ### The scheme dispatch (40_fec_bitcoding.md R128, R129) -/

/-- The code of a payload under a supported scheme (R122, R124, R126, 41_hamming74.md R150). -/
def codeOf (scheme : Nat) (v : BitSeq) : BitSeq :=
  match scheme with
  | 0 => v
  | 1 => manEncode v
  | 2 => repEncode v
  | _ => hamEncode v

/-- What a supported scheme decodes, given the metadata (R123, R125, R127, 41_hamming74.md R151). -/
def decodeOf (scheme padlen factor payload : Nat) (r : BitSeq) : BitSeq :=
  match scheme with
  | 0 => trunc r payload
  | 1 => trunc (manDecode r) payload
  | 2 => trunc (repDecode factor r) payload
  | _ => hamDecode r padlen payload

/-- The length of the code (40_fec_bitcoding.md R130). -/
theorem codeOf_length (scheme : Nat) (v : BitSeq) : (codeOf scheme v).length = codeLength scheme v.length := by
  match scheme with
  | 0 => rfl
  | 1 => exact (manEncode_length v).trans (Nat.mul_comm _ _)
  | 2 => exact (repEncode_length v).trans (Nat.mul_comm _ _)
  | n + 3 => exact (hamEncode_length v).trans (Nat.mul_comm _ _)

/-- A decoder never lengthens (40_fec_bitcoding.md R121). -/
theorem decodeOf_length_le (scheme padlen factor payload : Nat) (r : BitSeq) :
    (decodeOf scheme padlen factor payload r).length ≤ r.length := by
  unfold decodeOf
  split
  · simp [trunc]
  · simp only [trunc, manDecode, List.length_take, List.length_map, groups_length]
    omega
  · simp only [trunc, repDecode, List.length_take, List.length_map, groups_length]
    exact (Nat.min_le_right _ _).trans (Nat.div_le_self _ _)
  · exact hamDecode_length_le ..

/-- `FECENC` in closed form. -/
theorem ruleFecenc_eq_ok (bd bs : BBuf) (s t : State.Of α) :
    ruleFecenc P bd bs s = .ok t ↔
      s.scheme.toNat ≤ 3 ∧ codeLength s.scheme.toNat (readB bs s).length ≤ bcapOf P ∧
      t = { s with b := s.b.set bd (codeOf s.scheme.toNat (readB bs s)),
                   payload := BitVec.ofNat 64 (readB bs s).length,
                   padlen := if s.scheme.toNat = 3 then BitVec.ofNat 64 (hamPad (readB bs s).length) else s.padlen,
                   repeatFactor := if s.scheme.toNat = 2 then 3 else s.repeatFactor } := by
  rw [← codeOf_length]
  unfold ruleFecenc
  split <;> rename_i h
  · simp only [h, ruleNrzenc, bind_eq_ok, setB_eq_ok, codeOf]
    constructor
    · rintro ⟨_, ⟨hv, rfl⟩, ht⟩; exact ⟨by decide, hv, (Except.ok.inj ht).symm⟩
    · rintro ⟨-, hv, rfl⟩; exact ⟨_, ⟨hv, rfl⟩, rfl⟩
  · simp only [h, ruleManenc, bind_eq_ok, setB_eq_ok, codeOf]
    constructor
    · rintro ⟨_, ⟨hv, rfl⟩, ht⟩; exact ⟨by decide, hv, (Except.ok.inj ht).symm⟩
    · rintro ⟨-, hv, rfl⟩; exact ⟨_, ⟨hv, rfl⟩, rfl⟩
  · simp only [h, ruleRepenc, bind_eq_ok, setB_eq_ok, codeOf]
    constructor
    · rintro ⟨_, ⟨hv, rfl⟩, ht⟩; exact ⟨by decide, hv, (Except.ok.inj ht).symm⟩
    · rintro ⟨-, hv, rfl⟩; exact ⟨_, ⟨hv, rfl⟩, rfl⟩
  · simp only [h, ruleHamenc, bind_eq_ok, setB_eq_ok, codeOf]
    constructor
    · rintro ⟨_, ⟨hv, rfl⟩, ht⟩; exact ⟨by decide, hv, (Except.ok.inj ht).symm⟩
    · rintro ⟨-, hv, rfl⟩; exact ⟨_, ⟨hv, rfl⟩, rfl⟩
  · constructor
    · exact fun h => (nomatch h)
    · rintro ⟨h3, -⟩; grind

/-- `FECDEC` in closed form. -/
theorem ruleFecdec_eq_ok (bd bs : BBuf) (s t : State.Of α) :
    ruleFecdec P bd bs s = .ok t ↔
      s.scheme.toNat ≤ 3 ∧ (s.scheme.toNat = 2 → s.repeatFactor ≠ 0) ∧
      (decodeOf s.scheme.toNat s.padlen.toNat s.repeatFactor.toNat s.payload.toNat (readB bs s)).length ≤ bcapOf P ∧
      t = { s with b := s.b.set bd
                          (decodeOf s.scheme.toNat s.padlen.toNat s.repeatFactor.toNat s.payload.toNat (readB bs s)) } := by
  unfold ruleFecdec
  split <;> rename_i h
  · simp only [h, ruleNrzdec, setB_eq_ok, decodeOf]
    constructor
    · rintro ⟨hv, rfl⟩; exact ⟨by decide, fun h => absurd h (by decide), hv, rfl⟩
    · rintro ⟨-, -, h⟩; exact h
  · simp only [h, ruleMandec, setB_eq_ok, decodeOf]
    constructor
    · rintro ⟨hv, rfl⟩; exact ⟨by decide, fun h => absurd h (by decide), hv, rfl⟩
    · rintro ⟨-, -, h⟩; exact h
  · simp only [h, ruleRepdec, decodeOf]
    split
    · rename_i hr
      constructor
      · exact fun h => (nomatch h)
      · rintro ⟨-, h, -⟩; exact absurd hr (h trivial)
    · rename_i hr
      rw [setB_eq_ok]
      constructor
      · rintro ⟨hv, rfl⟩; exact ⟨by decide, fun _ => hr, hv, rfl⟩
      · rintro ⟨-, -, h⟩; exact h
  · simp only [h, ruleHamdec, setB_eq_ok, decodeOf]
    constructor
    · rintro ⟨hv, rfl⟩; exact ⟨by decide, fun h => absurd h (by decide), hv, rfl⟩
    · rintro ⟨-, -, h⟩; exact h
  · constructor
    · exact fun h => (nomatch h)
    · rintro ⟨h3, -⟩; grind

/-! ### The noise dispatch (45_noise.md R217) -/

/-- Whether a noise command that dispatches on `NMODE` adds noise to a waveform (R213, R216). -/
def noiseActive (P : Params α) (s : State.Of α) (v : Wave.Of α) : Bool :=
  P.num.gt0 s.npow && (s.nmode == 0 || P.num.gt0 s.nbw) && !v.data.isEmpty

/-- The noisy samples `ADDNOISE` makes of a waveform (R213, R216). -/
def noisySamples (P : Params α) (s : State.Of α) (v : Wave.Of α) : List α :=
  if noiseActive P s v then
    if s.nmode = 0 then whiteNoise P.num s.npow v.data (gauss P v.data.length s).1
    else List.zipWith P.num.add v.data (bandNoise P.num v.rate s.npow s.nbw (gauss P v.data.length s).1)
  else v.data

/-- The draws taken when it does (R211, R212). -/
def drawsAfter (P : Params α) (s : State.Of α) (v : Wave.Of α) : Nat :=
  if noiseActive P s v && !s.nseeden then s.draws + v.data.length else s.draws

@[simp] theorem shape_length (N : NumOps α) (g : List α) (keep : Nat → Bool) :
    (shape N g keep).length = g.length := by
  simp [shape]

@[simp] theorem bandNoise_length (N : NumOps α) (fs pow bw : α) (g : List α) :
    (bandNoise N fs pow bw g).length = g.length := by
  unfold bandNoise
  dsimp only
  split <;> simp

@[simp] theorem whiteNoise_length (N : NumOps α) (pow : α) (v g : List α) :
    (whiteNoise N pow v g).length = min v.length g.length := by
  simp [whiteNoise]

@[simp] theorem noisySamples_length (s : State.Of α) (v : Wave.Of α) : (noisySamples P s v).length = v.data.length := by
  unfold noisySamples
  split
  · split <;> simp [gauss_length]
  · rfl

/-- `NOISEW` in closed form (R213). -/
theorem ruleNoisew_eq_ok (wd ws : WBuf) (s t : State.Of α) (h0 : s.nmode = 0) :
    ruleNoisew P wd ws s = .ok t ↔ (readW ws s).data.length ≤ P.wcap ∧
      t = { s with w := s.w.set wd ⟨noisySamples P s (readW ws s), (readW ws s).rate⟩,
                   draws := drawsAfter P s (readW ws s) } := by
  have hact : noiseActive P s (readW ws s) = true ↔ P.num.gt0 s.npow = true ∧ (readW ws s).data ≠ [] := by
    simp [noiseActive, h0]
  have hlen := noisySamples_length (P := P) s (readW ws s)
  unfold ruleNoisew
  unfold noisySamples at hlen ⊢
  unfold drawsAfter
  dsimp only
  by_cases ha : P.num.gt0 s.npow = true ∧ (readW ws s).data ≠ []
  · rw [if_pos ha, setW_eq_ok]
    rw [if_pos (hact.2 ha), if_pos h0] at hlen ⊢
    rw [hlen, gauss_state, hact.2 ha, gauss_draws]
    cases s.nseeden <;> exact Iff.rfl
  · rw [if_neg ha, setW_eq_ok]
    rw [if_neg (mt hact.1 ha)]
    have : noiseActive P s (readW ws s) = false := by simpa using mt hact.1 ha
    rw [this]
    exact Iff.rfl

/-- `NOISEB` in closed form (R216). -/
theorem ruleNoiseb_eq_ok (wd ws : WBuf) (s t : State.Of α) (h1 : s.nmode ≠ 0) :
    ruleNoiseb P wd ws s = .ok t ↔
      (P.num.gt0 s.npow = true → P.num.gt0 s.nbw = true → P.num.gt0 (readW ws s).rate = true) ∧
      (readW ws s).data.length ≤ P.wcap ∧
      t = { s with w := s.w.set wd ⟨noisySamples P s (readW ws s), (readW ws s).rate⟩,
                   draws := drawsAfter P s (readW ws s) } := by
  have hact : noiseActive P s (readW ws s) = true ↔
      (P.num.gt0 s.npow = true ∧ P.num.gt0 s.nbw = true) ∧ (readW ws s).data ≠ [] := by
    simp [noiseActive, show s.nmode ≠ 0#64 from h1, and_assoc]
  have hlen := noisySamples_length (P := P) s (readW ws s)
  unfold ruleNoiseb
  unfold noisySamples at hlen ⊢
  unfold drawsAfter
  dsimp only
  by_cases ha : P.num.gt0 s.npow = true ∧ P.num.gt0 s.nbw = true
  · rw [if_pos ha]
    by_cases hr : P.num.gt0 (readW ws s).rate = true
    · rw [if_pos hr]
      by_cases hd : (readW ws s).data = []
      · have hf : noiseActive P s (readW ws s) = false := by simpa using mt hact.1 (fun h => h.2 hd)
        rw [if_pos hd, setW_eq_ok, hf]
        exact ⟨fun h => ⟨fun _ _ => hr, h.1, h.2⟩, fun h => h.2⟩
      · have ht : noiseActive P s (readW ws s) = true := hact.2 ⟨ha, hd⟩
        rw [if_neg hd, setW_eq_ok]
        rw [if_pos ht, if_neg h1] at hlen ⊢
        rw [hlen, gauss_state, ht, gauss_draws]
        cases s.nseeden <;> exact ⟨fun h => ⟨fun _ _ => hr, h.1, h.2⟩, fun h => h.2⟩
    · rw [if_neg hr]
      exact ⟨fun h => (nomatch h), fun h => absurd (h.1 ha.1 ha.2) hr⟩
  · have hf : noiseActive P s (readW ws s) = false := by simpa using mt hact.1 (fun h => ha h.1)
    rw [if_neg ha, setW_eq_ok, hf]
    exact ⟨fun h => ⟨fun h1 h2 => absurd ⟨h1, h2⟩ ha, h.1, h.2⟩, fun h => h.2⟩

/-- `ADDNOISE` in closed form (R217). -/
theorem ruleAddnoise_eq_ok (wd ws : WBuf) (s t : State.Of α) :
    ruleAddnoise P wd ws s = .ok t ↔
      s.nmode.toNat ≤ 1 ∧
      (s.nmode.toNat = 1 → P.num.gt0 s.npow = true → P.num.gt0 s.nbw = true → P.num.gt0 (readW ws s).rate = true) ∧
      (readW ws s).data.length ≤ P.wcap ∧
      t = { s with w := s.w.set wd ⟨noisySamples P s (readW ws s), (readW ws s).rate⟩,
                   draws := drawsAfter P s (readW ws s) } := by
  unfold ruleAddnoise
  split <;> rename_i h
  · rw [ruleNoisew_eq_ok _ _ _ _ (BitVec.eq_of_toNat_eq h), h]
    simp
  · rw [ruleNoiseb_eq_ok _ _ _ _ (fun h0 => by rw [h0] at h; cases h), h]
    simp
  · constructor
    · exact fun h => (nomatch h)
    · rintro ⟨h1, -⟩; grind

end Sys2Proof.Machine
end

