-- ==== Sys2Proof/Laws/Run.lean ====
section
/-! SUPPORT. `RUN` in closed form (47_system_run.md): each of its working buffers as a function of the state before. -/

namespace Sys2Proof.Machine

variable {α : Type} {P : Params α}

/-- The code bits, `B1` (R252 step 1). -/
def runCode (s : State.Of α) : BitSeq := codeOf s.scheme.toNat (readB 0 s)

/-- The sample rate, the rate of `W3` (R257). -/
def runRate (P : Params α) (s : State.Of α) : α := P.num.mul s.chiprate (P.num.ofNat s.ovs.toNat)

/-- The spread chips, `W2` (step 3). -/
def runChips (P : Params α) (s : State.Of α) : List α := spreadBits P.num s.cpb.toNat (runCode s) (chipGenOf P s.seedtx s.cpb.toNat)

/-- The oversampled baseband, `W3` (step 4). -/
def runBase (P : Params α) (s : State.Of α) : List α := hold s.ovs.toNat (runChips P s)

/-- The modulated signal, `W4` (step 5). -/
def runModulated (P : Params α) (s : State.Of α) : List α := carrierMul P.num s.fc (runRate P s) (runBase P s)

/-- The signal after the channel, `W5` (step 6). -/
def runChannel (P : Params α) (s : State.Of α) : List α := noisySamples P s ⟨runModulated P s, runRate P s⟩

/-- The demodulated signal, `W6` (step 7). -/
def runDemodulated (P : Params α) (s : State.Of α) : List α := carrierMul P.num s.fc (runRate P s) (runChannel P s)

/-- The soft metrics, `W7` (step 8). -/
def runMetrics (P : Params α) (s : State.Of α) : List α :=
  despread P.num (runDemodulated P s) (chipGenOf P s.seedrx s.cpb.toNat) s.ovs.toNat s.cpb.toNat

/-- The hard decisions, `B2` (step 9). -/
def runHard (P : Params α) (s : State.Of α) : BitSeq := sliceBits P.num (runMetrics P s)

/-- `PADLEN` after step 1. -/
def runPadlen (s : State.Of α) : Word :=
  if s.scheme.toNat = 3 then BitVec.ofNat 64 (hamPad (readB 0 s).length) else s.padlen

/-- `REPEAT` after step 1. -/
def runFactor (s : State.Of α) : Word := if s.scheme.toNat = 2 then 3 else s.repeatFactor

/-- The decoded bits, `B3` (step 10). -/
def runDecoded (P : Params α) (s : State.Of α) : BitSeq :=
  decodeOf s.scheme.toNat (runPadlen s).toNat (runFactor s).toNat (BitVec.ofNat 64 (readB 0 s).length).toNat (runHard P s)

/-- The sample buffers after step 10. -/
def runWaves (P : Params α) (s : State.Of α) : Vector (Wave.Of α) 8 :=
  #v[⟨chipGenOf P s.seedtx s.cpb.toNat, s.chiprate⟩, ⟨chipGenOf P s.seedrx s.cpb.toNat, s.chiprate⟩, ⟨runChips P s, s.chiprate⟩,
    ⟨runBase P s, runRate P s⟩, ⟨runModulated P s, runRate P s⟩, ⟨runChannel P s, runRate P s⟩, ⟨runDemodulated P s, runRate P s⟩,
    ⟨runMetrics P s, P.num.div (runRate P s) (P.num.mul (P.num.ofNat s.ovs.toNat) (P.num.ofNat s.cpb.toNat))⟩]

/-- The state after steps 1 to 10 (R252). -/
def runScratch (P : Params α) (s : State.Of α) : State.Of α :=
  { s with b := ((s.b.set 1 (runCode s)).set 2 (runHard P s)).set 3 (runDecoded P s), w := runWaves P s,
           payload := BitVec.ofNat 64 (readB 0 s).length, padlen := runPadlen s, repeatFactor := runFactor s,
           draws := drawsAfter P s ⟨runModulated P s, runRate P s⟩ }

/-- What steps 1 to 10 need (R256). -/
structure RunFits (P : Params α) (s : State.Of α) : Prop where
  scheme : s.scheme.toNat ≤ 3
  code : codeLength s.scheme.toNat (readB 0 s).length ≤ bcapOf P
  chips : s.cpb.toNat ≤ P.wcap
  spread : codeLength s.scheme.toNat (readB 0 s).length * s.cpb.toNat ≤ P.wcap
  oversampled : codeLength s.scheme.toNat (readB 0 s).length * s.cpb.toNat * s.ovs.toNat ≤ P.wcap
  ovs : s.ovs.toNat ≠ 0
  rate : P.num.gt0 (runRate P s) = true
  nmode : s.nmode.toNat ≤ 1
  cpb : s.cpb.toNat ≠ 0

/-- A noise command looks at the state's control registers and draw count only. -/
theorem gauss_fst (n : Nat) (s : State.Of α) :
    (gauss P n s).1 = if s.nseeden then gaussGenOf P s.nseed n else drawsOf P s.draws n := by
  unfold gauss
  split <;> rfl

/-- A non-empty payload has a non-empty code (R257). -/
theorem codeLength_pos (scheme n : Nat) (h : n ≠ 0) : codeLength scheme n ≠ 0 := by
  unfold codeLength
  split <;> omega

/-- Eight elements set one after another. -/
theorem set_eight {α : Type} (v : Vector α 8) (a b c d e f g h : α) :
    (((((((v.set 0 a).set 1 b).set 2 c).set 3 d).set 4 e).set 5 f).set 6 g).set 7 h = #v[a, b, c, d, e, f, g, h] := by
  ext i hi
  interval_cases i <;> simp

/-- In Num-f64 a product with an exact zero is not above zero. -/
theorem mul_zero_not_gt0 (a : Num) : num.gt0 (num.mul a (num.ofNat 0)) = false := by
  dsimp only [num, machine, f64Ops]
  have h0 : F64.ofNat 0 = .fin false 0 0 := by decide +kernel
  rw [h0]
  cases a with
  | nan => rfl
  | inf n => rfl
  | fin n e f =>
    have : F64.units 0 0 = 0 := rfl
    simp only [F64.mul, this, Nat.mul_zero]
    have hr : ∀ n, F64.round n 0 (2 ^ 1074) = .fin n 0 0 := by decide +kernel
    rw [hr]
    simp [F64.gt0, show F64.units 0 0#52 = 0 from rfl]

@[simp] theorem noisySamples_update (s : State.Of α) (b : Vector BitSeq 8) (w : Vector (Wave.Of α) 8) (p q r : Word) (v : Wave.Of α) :
    noisySamples P { s with b := b, w := w, payload := p, padlen := q, repeatFactor := r } v = noisySamples P s v := by
  unfold noisySamples noiseActive
  simp only [gauss_fst]

@[simp] theorem drawsAfter_update (s : State.Of α) (b : Vector BitSeq 8) (w : Vector (Wave.Of α) 8) (p q r : Word) (v : Wave.Of α) :
    drawsAfter P { s with b := b, w := w, payload := p, padlen := q, repeatFactor := r } v = drawsAfter P s v := rfl

theorem runCode_length (s : State.Of α) : (runCode s).length = codeLength s.scheme.toNat (readB 0 s).length := codeOf_length ..

theorem runChips_length (s : State.Of α) (hb : readB 0 s ≠ []) :
    (runChips P s).length = codeLength s.scheme.toNat (readB 0 s).length * s.cpb.toNat := by
  have hc := codeLength_pos s.scheme.toNat _ (mt List.length_eq_zero_iff.1 hb)
  rw [← runCode_length] at hc ⊢
  rw [runChips, spreadBits_length _ _ _ _ (chipGenOf_length ..), spreadLength, if_neg (mt List.length_eq_zero_iff.2 hc)]

theorem runBase_length (s : State.Of α) (hb : readB 0 s ≠ []) :
    (runBase P s).length = codeLength s.scheme.toNat (readB 0 s).length * s.cpb.toNat * s.ovs.toNat := by
  rw [runBase, hold_length, runChips_length s hb]

@[simp] theorem runModulated_length (s : State.Of α) : (runModulated P s).length = (runBase P s).length := carrierMul_length ..

@[simp] theorem runChannel_length (s : State.Of α) : (runChannel P s).length = (runBase P s).length := by
  simp [runChannel]

@[simp] theorem runDemodulated_length (s : State.Of α) : (runDemodulated P s).length = (runBase P s).length := by
  simp [runDemodulated]

/-- One metric for each code bit (47_system_run.md R259). -/
theorem runMetrics_length (s : State.Of α) (hb : readB 0 s ≠ []) (hf : s.ovs.toNat ≠ 0) (hn : s.cpb.toNat ≠ 0) :
    (runMetrics P s).length = codeLength s.scheme.toNat (readB 0 s).length := by
  rw [runMetrics, despread_length, runDemodulated_length, runBase_length s hb,
    Nat.mul_div_cancel _ (Nat.pos_of_ne_zero hf), Nat.mul_div_cancel _ (Nat.pos_of_ne_zero hn)]

/-- In the core instance a positive sample rate rules out `OVS = 0` (R256). -/
theorem ovs_ne_zero_of_rate (s : State) (h : num.gt0 (runRate machine s) = true) : s.ovs.toNat ≠ 0 := by
  intro h0
  rw [runRate, h0, mul_zero_not_gt0] at h
  cases h

/-- Steps 1 to 10 of `RUN`: what they need and what they leave (R252, R256). -/
theorem runPipeline_eq_ok (s t : State.Of α) (hb : readB 0 s ≠ []) :
    runPipeline P s = .ok t ↔ RunFits P s ∧ t = runScratch P s := by
  have hlen (hf : s.ovs.toNat ≠ 0) (hn : s.cpb.toNat ≠ 0) :
      (runChips P s).length * s.ovs.toNat / s.ovs.toNat / s.cpb.toNat = codeLength s.scheme.toNat (readB 0 s).length := by
    rw [Nat.mul_div_cancel _ (Nat.pos_of_ne_zero hf), runChips_length s hb, Nat.mul_div_cancel _ (Nat.pos_of_ne_zero hn)]
  have hsl : spreadLength s.cpb.toNat (runCode s) = codeLength s.scheme.toNat (readB 0 s).length * s.cpb.toNat := by
    rw [← runChips_length (P := P) s hb, runChips, spreadBits_length _ _ _ _ (chipGenOf_length ..)]
  unfold runPipeline
  simp only [bind_eq_ok, ruleFecenc_eq_ok, genChips_eq_ok, ruleSpread_eq_ok, ruleOvsamp_eq_ok, ruleModul, ruleDemod,
    mixCarrier_eq_ok, ruleAddnoise_eq_ok, ruleDesprd_eq_ok, ruleSlice, setB_eq_ok, ruleFecdec_eq_ok, and_assoc,
    exists_and_left, exists_eq_left, readB, readW, Fin.getElem_fin, Vector.getElem_set, noisySamples_update,
    drawsAfter_update]
  simp
  rw [set_eight]
  constructor
  · rintro ⟨h1, h2, h3, h4, h5, h6, -, h7, -, -, -, -, hf, h8, -, -, -, -, -, rfl⟩
    exact ⟨⟨h1, h2, h3, hsl ▸ h4, runChips_length s hb ▸ h5, hf, h6, h7, h8⟩, rfl⟩
  · rintro ⟨hfit, rfl⟩
    have hL := runChips_length (P := P) s hb
    have hf := hfit.ovs
    have hov : (runChips P s).length * s.ovs.toNat ≤ P.wcap := by rw [hL]; exact hfit.oversampled
    have hm := hlen hf hfit.cpb
    have hmw : codeLength s.scheme.toNat (readB 0 s).length ≤ P.wcap :=
      (Nat.le_mul_of_pos_right _ (Nat.pos_of_ne_zero hfit.cpb)).trans hfit.spread
    refine ⟨hfit.scheme, hfit.code, hfit.chips, hsl ▸ hfit.spread, hov, hfit.rate, hov, hfit.nmode,
      fun _ _ _ => hfit.rate, hov, hfit.rate, hov, hf, hfit.cpb, hm ▸ hmw, hm ▸ hfit.code, hfit.scheme, ?_, ?_, rfl⟩
    · intro h; rw [if_pos h]; decide
    · exact (decodeOf_length_le ..).trans (by
        show (runHard P s).length ≤ bcapOf P
        rw [runHard, sliceBits_length, runMetrics_length s hb hf hfit.cpb]
        exact hfit.code)

end Sys2Proof.Machine
end

