-- ==== Sys2Proof/Tests/Slice0.lean ====
section
/-! SUPPORT. The author's tests: the smoke test of WellFormed, every command's word written out from 30_encoding.md R91
to R96, one step of each command on a vector of 95_vectors_and_programs.md, and for each obligation with hypotheses
a state and operands that meet them. -/

namespace Sys2Proof.Tests

open Sys2Proof Sys2Proof.Machine

-- One test after another: each `decide` waits for the kernel, and a hundred of them at once wait on as many threads.
set_option Elab.async false

/-! ### Helpers -/

/-- `n` bits, first element first: the binary numeral of `v`. -/
def bits (n v : Nat) : BitSeq := (List.range n).map fun i => v.testBit (n - 1 - i)

/-- The sample `n`. -/
def p (n : Nat) : Sys2Proof.Num := F64.ofNat n

/-- The sample `-n`. -/
def m (n : Nat) : Sys2Proof.Num := F64.neg (F64.ofNat n)

/-- The state after reset. -/
abbrev r : State := State.reset

/-- With `B[i]` set. -/
def putB (i : Fin 8) (v : BitSeq) (s : State) : State := { s with b := s.b.set i v }

/-- With `W[i]` set. -/
def putW (i : Fin 8) (v : List Sys2Proof.Num) (rate : Nat) (s : State) : State := { s with w := s.w.set i ⟨v, p rate⟩ }

/-- With `x[i]` set. -/
def putX (i : Fin 8) (v : Word) (s : State) : State := { s with x := s.x.set i v }

/-- Executing a stream from its first word. -/
def on (stream : List CmdWord) (s : State) : State := { s with stream := stream, mode := .exec }

/-- The state after a command; only a command that answers a next state has one. -/
def after (i : Instr) (s : State) : Option State :=
  match exec i s with
  | .next t => some t
  | .fault _ => none
  | .refused _ => none

/-- A concrete instance for the vectors: Num-f64, the least `BCAP`, 4194304 samples, the reference chip generator
(42_prn.md R165), and generators of zeros for the noise. -/
def vectors : Params Sys2Proof.Num where
  num := f64Ops
  bcapExtra := 0
  wcap := 4194304
  chipSign := xs64Sign
  gaussSample := fun _ _ _ => F64.zero
  noiseDraw := fun _ => F64.zero

/-- The state after a command in the instance `vectors`. -/
def afterV (i : Instr) (s : State) : Option State :=
  match execIn vectors i s with
  | .next t => some t
  | .fault _ => none
  | .refused _ => none

/-- Whether a command faults with the given cause and value and leaves `pc`. -/
def faults (i : Instr) (cause finfo : Word) (s : State) : Bool :=
  match exec i s with
  | .next t => t.mode == .fault && t.cause == cause && t.finfo == finfo && t.pc == s.pc && t.b == s.b && t.w == s.w && t.x == s.x
  | .fault _ => false
  | .refused _ => false

/-! ### WellFormed: each check by value refuses its ill-formed term (30_encoding.md R100) -/

theorem test_wf_csrr_gap : Instr.wf (.csrr 2 0x005) = false := by decide
theorem test_wf_csrr_real : Instr.wf (.csrr 2 0x020) = false := by decide
theorem test_wf_csrw_read_only : Instr.wf (.csrw 1 0x004) = false := by decide
theorem test_wf_csrw_gap : Instr.wf (.csrw 1 0x01B) = false := by decide
theorem test_wf_good : Instr.wf (.csrr 2 0x004) = true ∧ Instr.wf (.csrw 1 0x01A) = true := by decide

/-! ### Decoding: the word of every command, its fields `op a b c k` written out -/

theorem test_decode_system :
    decode 0b00000001_0000_0000_0000_000000000000 = .ok .nop ∧
    decode 0b00000010_0000_0000_0000_000000000000 = .ok .halt ∧
    decode 0b00000011_0000_0000_0000_000000000000 = .ok .run := by decide

theorem test_decode_scalar :
    decode 0b00010000_0001_0000_1000_000000000001 = .ok (.li 1 0x8001) ∧
    decode 0b00010001_0001_0000_1011_111011101111 = .ok (.lih 1 0xBEEF) ∧
    decode 0b00010010_0010_0000_0000_000000000100 = .ok (.csrr 2 0x004) ∧
    decode 0b00010011_0000_0001_0000_000000011010 = .ok (.csrw 1 0x01A) := by decide

theorem test_decode_bits :
    decode 0b00010100_0100_0000_0000_000000000000 = .ok (.bclr 4) ∧
    decode 0b00010101_0010_0001_0000_000000000000 = .ok (.blen 2 1) ∧
    decode 0b00010110_0010_0001_0011_000000000110 = .ok (.bget 2 1 3 6) ∧
    decode 0b00010111_0100_0001_0000_000000000111 = .ok (.bpush 4 1 7) ∧
    decode 0b00011000_0001_0000_0011_000000000000 = .ok (.bflip 1 3) ∧
    decode 0b00011001_0011_0110_0000_000000000000 = .ok (.wlen 3 6) ∧
    decode 0b00011010_0101_0011_0000_000000000000 = .ok (.bcmp 5 3 0) := by decide

theorem test_decode_coding :
    decode 0b00100000_0001_0000_0000_000000000000 = .ok (.nrzenc 1 0) ∧
    decode 0b00100001_0001_0000_0000_000000000000 = .ok (.nrzdec 1 0) ∧
    decode 0b00100010_0001_0000_0000_000000000000 = .ok (.manenc 1 0) ∧
    decode 0b00100011_0001_0000_0000_000000000000 = .ok (.mandec 1 0) ∧
    decode 0b00100100_0001_0000_0000_000000000000 = .ok (.repenc 1 0) ∧
    decode 0b00100101_0001_0000_0000_000000000000 = .ok (.repdec 1 0) ∧
    decode 0b00101110_0001_0000_0000_000000000000 = .ok (.fecenc 1 0) ∧
    decode 0b00101111_0011_0001_0000_000000000000 = .ok (.fecdec 3 1) := by decide

theorem test_decode_hamming :
    decode 0b00110000_0010_0001_0000_000000000000 = .ok (.henc4 2 1) ∧
    decode 0b00110001_0101_0100_0000_000000000000 = .ok (.hsyn7 5 4) ∧
    decode 0b00110010_0110_0100_0000_000000000000 = .ok (.hcor7 6 4) ∧
    decode 0b00110011_0111_0100_0000_000000000000 = .ok (.hdec7 7 4) ∧
    decode 0b00110100_0001_0000_0000_000000000000 = .ok (.hamenc 1 0) ∧
    decode 0b00110101_0010_0001_0000_000000000000 = .ok (.hamdec 2 1) := by decide

theorem test_decode_prn :
    decode 0b01000000_0010_0100_0000_000000000000 = .ok (.dseed 2 4) ∧
    decode 0b01000001_0000_0001_0000_000000000000 = .ok (.prngen 0 1) := by decide

theorem test_decode_spread :
    decode 0b01010000_0010_0001_0000_000000000000 = .ok (.spread 2 1 0) ∧
    decode 0b01010001_0011_0010_0000_000000000000 = .ok (.ovsamp 3 2) ∧
    decode 0b01010010_0000_0001_0010_000000000000 = .ok (.chmean 0 1 2) ∧
    decode 0b01010011_0111_0110_0001_000000000000 = .ok (.desprd 7 6 1) ∧
    decode 0b01010100_0010_0111_0000_000000000000 = .ok (.slice 2 7) := by decide

theorem test_decode_carrier :
    decode 0b01100000_0100_0011_0000_000000000000 = .ok (.modul 4 3) ∧
    decode 0b01100001_0110_0101_0000_000000000000 = .ok (.demod 6 5) := by decide

theorem test_decode_noise :
    decode 0b01110000_0101_0100_0000_000000000000 = .ok (.noisew 5 4) ∧
    decode 0b01110001_0101_0100_0000_000000000000 = .ok (.noiseb 5 4) ∧
    decode 0b01110010_0101_0100_0000_000000000000 = .ok (.addnoise 5 4) := by decide

/-- V-ENC-2: words with a field outside its range are illegal. -/
theorem test_decode_illegal :
    (∀ w ∈ ([0x00000000, 0xFF000000, 0x04000000, 0x01000001, 0x03100000, 0x30210001, 0x13110010, 0x16213040, 0x20800000,
      0x10F00000, 0x41810000, 0x52018000, 0x1A338000] : List CmdWord), ∀ i, decode w ≠ .ok i) := by
  intro w hw i hi
  simp only [List.mem_cons, List.not_mem_nil, or_false] at hw
  rcases hw with h | h | h | h | h | h | h | h | h | h | h | h | h <;> subst h <;> cases hi

/-! ### One step of each command, from the vectors -/

theorem test_nop : after .nop r = some { r with pc := 1 } := by decide +kernel
theorem test_halt : (after .halt (on [] r)).map statusWord = some 1 := by decide +kernel

/-- V-SCA-2. -/
theorem test_li : (after (.li 1 0x8000) r).map (·.x[1]) = some 0xFFFFFFFFFFFF8000 := by decide +kernel

/-- V-SCA-4. -/
theorem test_lih : (after (.lih 1 0xBEEF) (putX 1 0xFFFF000000001234 r)).map (·.x[1]) = some 0x1234BEEF := by decide +kernel

/-- V-SCA-5. -/
theorem test_csrr : (after (.csrr 3 0x000) (on [] r)).map (·.x[3]) = some 0x10 := by decide +kernel
theorem test_csrr_gap : faults (.csrr 2 0x01B) 3 0x1220001B r = true := by decide +kernel
theorem test_csrw : (after (.csrw 1 0x019) (putX 1 3 r)).map (readCsr .nseeden) = some 1 := by decide +kernel
theorem test_csrw_read_only : faults (.csrw 1 0x004) 3 0x13010004 r = true := by decide +kernel

theorem test_bclr : (after (.bclr 1) (putB 1 [true] r)).map (·.b[1]) = some [] := by decide +kernel
theorem test_blen : (after (.blen 2 1) (putB 1 (bits 7 0) r)).map (·.x[2]) = some 7 := by decide +kernel
theorem test_wlen : (after (.wlen 2 1) (putW 1 [p 1, p 2, p 3] 1 r)).map (·.x[2]) = some 3 := by decide +kernel

/-- V-SCA-7. -/
theorem test_bget : (after (.bget 2 0 3 63) (putX 3 1 (putB 0 (bits 65 (2 ^ 65 - 2)) r))).map (·.x[2])
    = some 0xFFFFFFFFFFFFFFFE := by decide +kernel

/-- V-SCA-8. -/
theorem test_bget_saturates : faults (.bget 2 0 3 0) 5 0xFFFFFFFFFFFFFFFF
    (putX 3 0xFFFFFFFFFFFFFFFF (putB 0 (bits 65 1) r)) = true := by decide +kernel

/-- V-SCA-10. -/
theorem test_bpush : (after (.bpush 0 1 3) (putX 1 0x1FE r)).map (·.b[0]) = some [true, true, true, false] := by decide +kernel

/-- V-SCA-11. -/
theorem test_bflip : (after (.bflip 1 3) (putX 3 2 (putB 1 (bits 7 0b1001100) r))).map (·.b[1])
    = some (bits 7 0b1011100) := by decide +kernel

/-- V-SCA-12. -/
theorem test_bcmp_equal : (after (.bcmp 5 3 0) (putX 5 9 (putB 3 (bits 3 5) (putB 0 (bits 3 5) r)))).map (·.x[5])
    = some 0 := by decide +kernel
theorem test_bcmp_prefix : (after (.bcmp 5 3 0) (putB 3 (bits 3 5) (putB 0 (bits 2 2) r))).map (·.x[5])
    = some 1 := by decide +kernel

/-- V-FEC-1, scheme 0; the source of a later decode too. -/
theorem test_nrzenc : (after (.nrzenc 1 0) (putB 0 (bits 10 0b1011001110) r)).map (fun t => (t.b[1], t.payload))
    = some (bits 10 0b1011001110, 10) := by decide +kernel

/-- V-FEC-2. -/
theorem test_nrzdec : (after (.nrzdec 1 0) (putB 0 (bits 6 0b101100) { r with payload := 4 })).map (·.b[1])
    = some (bits 4 0b1011) := by decide +kernel

/-- V-FEC-4. -/
theorem test_manenc : (after (.manenc 1 0) (putB 0 (bits 4 0b1011) r)).map (fun t => (t.b[1], t.payload))
    = some (bits 8 0b10011010, 4) := by decide +kernel

/-- V-FEC-5. -/
theorem test_mandec : (after (.mandec 1 0) (putB 0 (bits 9 0b100100111) { r with payload := 9 })).map (·.b[1])
    = some (bits 4 0b1000) := by decide +kernel

/-- V-FEC-8. -/
theorem test_repenc : (after (.repenc 1 0) (putB 0 (bits 2 0b10) r)).map (fun t => (t.b[1], t.payload, t.repeatFactor))
    = some (bits 6 0b111000, 2, 3) := by decide +kernel

/-- V-FEC-11. -/
theorem test_repdec_tie : (after (.repdec 1 0) (putB 0 (bits 9 0b100100111) { r with payload := 9, repeatFactor := 2 })).map
    (·.b[1]) = some (bits 4 0b1101) := by decide +kernel

/-- V-FEC-14. -/
theorem test_repdec_zero : faults (.repdec 1 0) 6 0 (putB 0 (bits 3 7) r) = true := by decide +kernel

/-- V-FEC-1, scheme 3. -/
theorem test_fecenc : (after (.fecenc 1 0) (putB 0 (bits 10 0b1011001110) { r with scheme := 3 })).map
    (fun t => (t.b[1], t.payload, t.padlen, t.repeatFactor)) = some (bits 21 0b011001110000111110000, 10, 2, 0) := by decide +kernel

/-- V-FEC-16. -/
theorem test_fecenc_scheme : faults (.fecenc 1 0) 1 7 { r with scheme := 7 } = true := by decide +kernel

/-- V-FEC-1, scheme 2, decoded. -/
theorem test_fecdec : (after (.fecdec 3 1) (putB 1 (bits 30 0b111000111111000000111111111000)
    { r with scheme := 2, payload := 10, repeatFactor := 3 })).map (·.b[3]) = some (bits 10 0b1011001110) := by decide +kernel

/-- V-FEC-17. -/
theorem test_fecdec_scheme : faults (.fecdec 1 0) 1 0x100000003 { r with scheme := 0x100000003 } = true := by decide +kernel

/-- V-HAM-2g. -/
theorem test_henc4 : (after (.henc4 2 1) (putX 1 0xFB r)).map (·.x[2]) = some 0x33 := by decide +kernel

/-- V-HAM-2b. -/
theorem test_hsyn7 : (after (.hsyn7 2 1) (putX 1 0x37 r)).map (·.x[2]) = some 5 := by decide +kernel

/-- V-HAM-2c. -/
theorem test_hcor7 : (after (.hcor7 2 1) (putX 1 0x53 r)).map (·.x[2]) = some 0x43 := by decide +kernel

/-- V-HAM-2f. -/
theorem test_hdec7 : (after (.hdec7 2 1) (putX 1 0xFFFFFFFFFFFFFFB3 r)).map (·.x[2]) = some 0xB := by decide +kernel

/-- V-HAM-4a. -/
theorem test_hamenc : (after (.hamenc 1 0) (putB 0 (bits 3 0b101) r)).map (fun t => (t.b[1], t.payload, t.padlen))
    = some (bits 7 0b1011010, 3, 1) := by decide +kernel

/-- V-HAM-4b. -/
theorem test_hamdec : (after (.hamdec 1 0) (putB 0 (bits 7 0b1011011) { r with payload := 3, padlen := 1 })).map (·.b[1])
    = some (bits 3 0b101) := by decide +kernel

/-- V-HAM-4c. -/
theorem test_hamdec_pad : (after (.hamdec 1 0) (putB 0 (bits 7 0b1011010) { r with payload := 3, padlen := 5 })).map (·.b[1])
    = some [] := by decide +kernel

/-- V-PRN-1, V-SCA-14: the seed of "alpha". -/
theorem test_dseed : (after (.dseed 2 4) (putB 4 (bits 40 0x616C706861) r)).map (·.x[2]) = some 0x8ED3F6AD685B959E := by
  decide +kernel

/-- R167: the digest of "abc". -/
theorem test_sha256 : ofBigEndian (sha256 [0x61, 0x62, 0x63])
    = 0xba7816bf_8f01cfea_414140de_5dae2223_b00361a3_96177a9c_b410ff61_f20015ad := by decide +kernel

/-- Below V-PRN-1: 12 bits. -/
theorem test_dseed_partial : faults (.dseed 2 1) 6 12 (putB 1 (bits 12 1) r) = true := by decide +kernel

/-- V-PRN-2: the first chips of seed 1 under the reference generator, at the chip rate. -/
theorem test_prngen : (afterV (.prngen 2 1) (putX 1 1 { r with cpb := 8, chiprate := p 1000 })).map (·.w[2])
    = some ⟨[m 1, p 1, p 1, m 1, m 1, p 1, p 1, p 1], p 1000⟩ := by decide +kernel

/-- V-PRN-2, the reference generator on seed 1. -/
theorem test_reference_chips : (List.range 16).map (xs64Sign 1 16) = bits 16 0b0110011101000111 := by decide +kernel

/-- V-SPR-1. -/
theorem test_spread : (afterV (.spread 2 1 0) (putB 1 (bits 2 0b10) (putW 0 [p 1, m 1, m 1, p 1] 1
    { r with cpb := 4, chiprate := p 1000 }))).map (·.w[2])
    = some ⟨[p 1, m 1, m 1, p 1, m 1, p 1, p 1, m 1], p 1000⟩ := by decide +kernel

/-- V-SPR-4. -/
theorem test_spread_length : faults (.spread 2 0 1) 6 3 (putW 1 [p 1, p 2, p 3] 1 { r with cpb := 4 }) = true := by
  decide +kernel

/-- V-SPR-5. -/
theorem test_ovsamp : (afterV (.ovsamp 2 1) (putW 1 [p 1, m 1] 1000 { r with ovs := 3 })).map (·.w[2])
    = some ⟨[p 1, p 1, p 1, m 1, m 1, m 1], p 3000⟩ := by decide +kernel

/-- V-SPR-7. -/
theorem test_chmean : (afterV (.chmean 2 1 1) (putX 1 3 (putW 1 [p 1, p 2, p 3, p 4, p 5, p 6, p 7] 12 r))).map (·.w[2])
    = some ⟨[p 2, p 5], p 4⟩ := by decide +kernel

/-- V-SPR-9. -/
theorem test_chmean_window : faults (.chmean 0 1 1) 2 0xFFFFFFFFFFFFFFFF
    (putX 1 0xFFFFFFFFFFFFFFFF (putW 1 [p 1, p 2, p 3] 8 r)) = true := by decide +kernel

/-- V-SPR-10. -/
theorem test_desprd : (afterV (.desprd 2 0 1) (putW 0 [p 1, p 1, m 1, m 1, m 1, m 1, p 1, p 1, m 1, m 1, p 1, p 1, p 1, p 1,
    m 1, m 1, p 1, p 1, p 1] 2000 (putW 1 [p 1, m 1, m 1, p 1] 0 { r with ovs := 2, cpb := 4 }))).map (·.w[2])
    = some ⟨[p 1, m 1], p 250⟩ := by decide +kernel
theorem test_desprd_oversampling : faults (.desprd 2 0 1) 2 0 (putW 1 [p 1] 0 r) = true := by decide +kernel

/-- V-SPR-13, V-SPR-14. -/
theorem test_slice : (after (.slice 1 0) (putW 0 [p 1, m 1, p 0, F64.div (p 1) (p 4), m 0, .nan] 0 r)).map (·.b[1])
    = some [true, false, false, true, false, false] := by decide +kernel

/-- The length and the rate of the source. -/
theorem test_modul : (afterV (.modul 1 0) (putW 0 [p 1, p 1] 8000 { r with fc := p 1000 })).map
    (fun t => (t.w[1].data.length, t.w[1].rate)) = some (2, p 8000) := by decide +kernel

/-- V-CAR-5. -/
theorem test_modul_rate : faults (.modul 1 0) 6 0 (putW 0 [p 1] 0 r) = true := by decide +kernel
theorem test_demod : (afterV (.demod 1 0) (putW 0 [p 1, p 1] 8000 { r with fc := p 1000 })).map
    (fun t => (t.w[1].data.length, t.w[1].rate)) = some (2, p 8000) := by decide +kernel

/-- V-CAR-5. -/
theorem test_demod_rate : faults (.demod 1 0) 6 0 (putW 0 [p 1] 0 r) = true := by decide +kernel

/-- V-NOI-8. -/
theorem test_noisew_no_power : (afterV (.noisew 1 0) (putW 0 [p 5] 7 { r with npow := m 1 })).map (fun t => (t.w[1], t.draws))
    = some (⟨[p 5], p 7⟩, 0) := by decide +kernel
theorem test_noisew_draws : (afterV (.noisew 1 0) (putW 0 [p 5, p 6] 7 { r with npow := p 1 })).map
    (fun t => (t.w[1].data.length, t.draws)) = some (2, 2) := by decide +kernel

/-- V-NOI-7. -/
theorem test_noiseb_no_band : (afterV (.noiseb 1 0) (putW 0 [p 5] 0 { r with npow := p 4 })).map (·.w[1])
    = some ⟨[p 5], p 0⟩ := by decide +kernel

/-- V-NOI-6. -/
theorem test_noiseb_rate : faults (.noiseb 1 0) 6 0 (putW 0 [p 5] 0 { r with npow := p 4, nbw := p 1 }) = true := by
  decide +kernel

/-- V-NOI-9. -/
theorem test_addnoise : (afterV (.addnoise 1 0) (putW 0 [p 5, p 6] 7 { r with npow := p 1 })).map (·.draws) = some 2 := by
  decide +kernel

/-- V-NOI-10. -/
theorem test_addnoise_mode : faults (.addnoise 1 0) 6 2 { r with nmode := 2 } = true := by decide +kernel

/-- An empty payload (47_system_run.md R253). -/
theorem test_run_empty : faults .run 6 0 r = true := by decide +kernel

/-- Two bits by four chips by two samples: the lengths of the buffers and taps, and the id (47_system_run.md R257). -/
theorem test_run : (afterV .run (putB 0 (bits 2 0b10) { r with cpb := 4, ovs := 2, chiprate := p 1000, fc := p 250 })).map
    (fun t => (t.runid, t.payload, t.b[1], t.t[0].data.length, t.t[5].rate))
    = some (1, 2, bits 2 0b10, 16, p 2000) := by decide +kernel

/-! ### Witnesses: states and operands that meet the hypotheses of an obligation, clause by clause at the boundary -/

/-- `BCAP` zeros: the longest bit buffer. -/
@[irreducible] def fullB : BitSeq := List.replicate bcap false

/-- `WCAP` zeros: the longest sample buffer. -/
@[irreducible] def fullW : List Sys2Proof.Num := List.replicate wcap F64.zero

theorem fullB_length : fullB.length = bcap := by unfold fullB; exact List.length_replicate
theorem fullW_length : fullW.length = wcap := by unfold fullW; exact List.length_replicate
theorem fullB_fits : fullB.length ≤ bcap := by rw [fullB_length]
theorem fullW_fits : fullW.length ≤ wcap := by rw [fullW_length]

/-- The buffer that was set. -/
theorem putB_b (i : Fin 8) (v : BitSeq) (s : State) : (putB i v s).b[i] = v := by simp [putB]
/-- With the samples of `W[i]` set, at rate 0. -/
def putData (i : Fin 8) (v : List Sys2Proof.Num) (s : State) : State := { s with w := s.w.set i ⟨v, F64.zero⟩ }
theorem putData_w (i : Fin 8) (v : List Sys2Proof.Num) (s : State) : (putData i v s).w[i].data = v := by simp [putData]
theorem putData_b (i : Fin 8) (v : List Sys2Proof.Num) (s : State) : (putData i v s).b = s.b := rfl
theorem putData_cpb (i : Fin 8) (v : List Sys2Proof.Num) (s : State) : (putData i v s).cpb = s.cpb := rfl

/-- With the chips per bit, the oversampling factor and the scheme set. -/
def sizes (cpb ovs scheme : Word) (s : State) : State := { s with cpb := cpb, ovs := ovs, scheme := scheme }
theorem sizes_cpb (c o k : Word) (s : State) : (sizes c o k s).cpb = c := rfl
theorem sizes_ovs (c o k : Word) (s : State) : (sizes c o k s).ovs = o := rfl
theorem sizes_scheme (c o k : Word) (s : State) : (sizes c o k s).scheme = k := rfl
theorem sizes_b (c o k : Word) (s : State) : (sizes c o k s).b = s.b := rfl
theorem sizes_w (c o k : Word) (s : State) : (sizes c o k s).w = s.w := rfl

/-- A number below 2^64 is its word's value. -/
theorem toNat_ofNat_lt (n : Nat) (h : n < 2 ^ 64) : (BitVec.ofNat 64 n).toNat = n := by
  rw [BitVec.toNat_ofNat, Nat.mod_eq_of_lt h]

/-- A word one above the sample capacity, and the capacity as a word. -/
theorem wcap_succ_lt : wcap + 1 < 2 ^ 64 := by
  have h := Config.wcapExtra.isLt
  have e : wcap = 1 + Config.wcapExtra.toNat := rfl
  omega
theorem overW_toNat : (BitVec.ofNat 64 (wcap + 1)).toNat = wcap + 1 := toNat_ofNat_lt _ wcap_succ_lt
theorem wcap_toNat : (BitVec.ofNat 64 wcap).toNat = wcap := toNat_ofNat_lt _ wcap_lt_word

/-- The machine about to execute `HALT`. -/
abbrev atHalt : State := on [0x02000000] r

theorem witness_ResetPutsEveryElementToItsResetValue : ∃ t, t = State.reset ∨ ∃ s, hostStep .reset s = .answer .done t :=
  ⟨r, .inl rfl⟩

theorem witness_EncodeOfDecode : decode 0x02000000 = .ok .halt := by decide

theorem witness_LegalWordsMatchExactlyOneRow :
    (∃ (w : CmdWord) (q q' : OpcodeRow), q ∈ opcodeTable ∧ q' ∈ opcodeTable ∧ w &&& q.mask = q.pattern ∧ w &&& q'.mask = q'.pattern) ∧
    (∃ w : CmdWord, ∀ q ∈ opcodeTable, fieldOp w ≠ fieldOp q.pattern) :=
  ⟨⟨0x02000000, ⟨"HALT", 0x02000000, 0xFFFFFFFF⟩, ⟨"HALT", 0x02000000, 0xFFFFFFFF⟩, by decide, by decide, by decide, by decide⟩,
    ⟨0, by decide⟩⟩

theorem witness_StepRunsDecodedCommand :
    atHalt.mode = .exec ∧ atHalt.stream[atHalt.pc.toNat]? = some 0x02000000 ∧ decode 0x02000000 = .ok .halt := by decide

theorem witness_IllegalWordFaults_encoding :
    (on [0] r).mode = .exec ∧ (on [0] r).stream[(on [0] r).pc.toNat]? = some 0 ∧ ∀ i, decode 0 = .ok i → i.wf = false :=
  ⟨rfl, rfl, fun i h => by cases h⟩

theorem witness_IllegalWordFaults_register :
    (on [0x13010004] r).mode = .exec ∧ (on [0x13010004] r).stream[(on [0x13010004] r).pc.toNat]? = some 0x13010004 ∧
      ∀ i, decode 0x13010004 = .ok i → i.wf = false :=
  ⟨rfl, rfl, fun i h => by cases h; rfl⟩

theorem witness_ModeChangesAreExactlyThese_step : ∃ t, step atHalt = .next t ∧ t.mode = .idle := ⟨_, rfl, rfl⟩

theorem witness_ModeChangesAreExactlyThese_fault : ∃ t, step (on [0] r) = .next t ∧ t.mode = .fault := ⟨_, rfl, rfl⟩

theorem witness_ModeChangesAreExactlyThese_host :
    (∃ t a, hostStep .reset atHalt = .answer a t ∧ t.mode ≠ atHalt.mode) ∧
    (∃ t a, hostStep (.start [0x02000000]) r = .answer a t ∧ t.mode ≠ r.mode) ∧
    (∃ t a, hostStep .fclr (clearFault r |> takeFault ⟨.operand, 0⟩) = .answer a t ∧ t.mode ≠ .fault) :=
  ⟨⟨_, _, rfl, by decide⟩, ⟨_, _, rfl, by decide⟩, ⟨_, _, rfl, by decide⟩⟩

theorem inv_atHalt : Inv atHalt :=
  ⟨by decide, by decide, by decide, by decide, by decide, by decide, by decide, by decide, by decide, by decide, by decide,
    by decide⟩

theorem witness_StepKeepsInv : ∃ t, Inv atHalt ∧ step atHalt = .next t := ⟨_, inv_atHalt, rfl⟩

/-- The same state in an instance without room for a sample. -/
theorem witness_StepKeepsInv_anyInstance : ∃ (P : Params Sys2Proof.Num) (t : State), P.wcap = 0 ∧ InvIn P atHalt ∧
    stepIn P atHalt = .next t :=
  ⟨{ vectors with wcap := 0 }, _, rfl,
    ⟨by decide, by decide, by decide, by decide, by decide, by decide, by decide, by decide, by decide, by decide,
      by decide, by decide⟩, rfl⟩

theorem witness_HostPortKeepsInv : ∃ t a, Inv atHalt ∧ hostStep .reset atHalt = .answer a t := ⟨_, _, inv_atHalt, rfl⟩

/-- `NOP` meets every premise on the opcode, and the second form of the last one. -/
theorem witness_OnlyNamedCommandsWrite :
    ∃ t, exec .nop r = .next t ∧ fieldOp (encode .nop) = 0x01 ∧ num.gt0 r.npow = false := ⟨_, rfl, by decide, by decide⟩

theorem witness_RunsTerminate : atHalt.mode = .exec ∧ atHalt.pc = 0 ∧ atHalt.stream.length < 2 ^ 32 := by decide

/-- The empty stream has ended before its first step. -/
theorem witness_RunsTerminate_empty : (on [] r).mode = .exec ∧ (on [] r).pc = 0 ∧ (on [] r).stream.length < 2 ^ 32 := by
  decide

theorem witness_LoadImmediates : (on [] r).mode = .exec := rfl

theorem witness_ReadControlRegister : (0x005 : BitVec 12).toNat ∉ csrReadNumbers ∧ (0x01B : BitVec 12).toNat ∉ csrReadNumbers ∧
    (on [] r).mode = .exec := by decide

theorem witness_WriteControlRegister : (0x00F : BitVec 12).toNat ∉ csrWriteNumbers ∧ (0x01B : BitVec 12).toNat ∉ csrWriteNumbers := by
  decide

theorem witness_WriteControlRegister_readsBack : (on [] r).mode = .exec ∧ (0x010 : BitVec 12).toNat ∈ csrWriteNumbers ∧
    (0x019 : BitVec 12).toNat ∈ csrWriteNumbers := by decide

/-- Seven bits from index 0 of a buffer of seven, and from index 1. -/
theorem witness_GetBits :
    (putX 3 0 (putB 1 (bits 7 1) r)).x[3].toNat + ((6 : BitVec 6).toNat + 1) ≤ (putX 3 0 (putB 1 (bits 7 1) r)).b[1].length ∧
    (putX 3 1 (putB 1 (bits 7 1) r)).b[1].length < (putX 3 1 (putB 1 (bits 7 1) r)).x[3].toNat + ((6 : BitVec 6).toNat + 1) := by
  decide

theorem witness_PushBits_fits : ∃ s : State, s.b[1].length + ((6 : BitVec 6).toNat + 1) = bcap := by
  refine ⟨putB 1 (fullB.drop 7) r, ?_⟩
  have h := bcap_least
  rw [show (putB 1 (fullB.drop 7) r).b[1] = fullB.drop 7 from putB_b 1 _ r, List.length_drop, fullB_length,
    show (6 : BitVec 6).toNat = 6 from rfl]
  omega

theorem witness_PushBits_capacity : ∃ s : State, bcap < s.b[1].length + ((0 : BitVec 6).toNat + 1) := by
  refine ⟨putB 1 fullB r, ?_⟩
  rw [show (putB 1 fullB r).b[1] = fullB from putB_b 1 _ r, fullB_length]
  omega

theorem witness_PushBits_get : (on [] r).mode = .exec ∧ (on [] r).b[1].length + ((6 : BitVec 6).toNat + 1) ≤ bcap ∧
    (on [] r).x[3].toNat = (on [] r).b[1].length :=
  ⟨rfl, le_trans (by decide) bcap_least, rfl⟩

/-- The last element of seven, and the index after it. -/
theorem witness_FlipBit :
    (putX 3 6 (on [] (putB 1 (bits 7 1) r))).x[3].toNat < (putX 3 6 (on [] (putB 1 (bits 7 1) r))).b[1].length ∧
    (putX 3 6 (on [] (putB 1 (bits 7 1) r))).mode = .exec ∧
    (putX 3 7 (putB 1 (bits 7 1) r)).b[1].length ≤ (putX 3 7 (putB 1 (bits 7 1) r)).x[3].toNat := by decide

theorem witness_CompareBuffers :
    (r.b[0].length = r.b[1].length ∧ ∀ i < r.b[0].length, r.b[0][i]? = r.b[1][i]?) ∧
    ¬((putB 0 [true] r).b[0].length = (putB 0 [true] r).b[1].length ∧
      ∀ i < (putB 0 [true] r).b[0].length, (putB 0 [true] r).b[0][i]? = (putB 0 [true] r).b[1][i]?) := by
  decide

theorem witness_NrzCommands : (putB 0 fullB r).b[0].length ≤ bcap := by
  have e : (putB 0 fullB r).b[0] = fullB := putB_b 0 _ r
  rw [e, fullB_length]

theorem witness_ManchesterCommands :
    (∃ s : State, 2 * s.b[0].length ≤ bcap) ∧ (∃ s : State, bcap < 2 * s.b[0].length ∧ s.b[0].length ≤ bcap) := by
  have h := bcap_least
  refine ⟨⟨r, Nat.zero_le _⟩, putB 0 fullB r, ?_⟩
  rw [show (putB 0 fullB r).b[0] = fullB from putB_b 0 _ r, fullB_length]
  omega

theorem witness_RepeatCommands :
    (∃ s : State, 3 * s.b[0].length ≤ bcap ∧ s.repeatFactor = 0) ∧ (∃ s : State, bcap < 3 * s.b[0].length) ∧
    (∃ s : State, s.repeatFactor ≠ 0 ∧ s.b[0].length ≤ bcap) := by
  have h := bcap_least
  refine ⟨⟨r, Nat.zero_le _, rfl⟩, ⟨putB 0 fullB r, ?_⟩, { r with repeatFactor := 1 }, by decide, Nat.zero_le _⟩
  rw [show (putB 0 fullB r).b[0] = fullB from putB_b 0 _ r, fullB_length]
  omega

/-- Schemes 0 to 4, and a payload whose code fits. -/
theorem witness_FecencDispatch :
    (∀ k : Word, ∃ s : State, s.scheme = k) ∧ (∃ s : State, 3 < s.scheme.toNat) ∧
    (∃ s : State, s.scheme.toNat = 3 ∧ codeLength s.scheme.toNat s.b[0].length ≤ bcap) :=
  ⟨fun k => ⟨{ r with scheme := k }, rfl⟩, ⟨{ r with scheme := 4 }, by decide⟩,
    ⟨{ r with scheme := 3 }, by decide, Nat.zero_le _⟩⟩

/-- A Repeat3 state with the factor its encoder records. -/
theorem witness_FecdecDispatch :
    (∀ k : Word, ∃ s : State, s.scheme = k) ∧ (∃ s : State, 3 < s.scheme.toNat) ∧
    (∃ s : State, s.scheme.toNat ≤ 3 ∧ s.scheme = 2 ∧ s.repeatFactor ≠ 0 ∧ s.b[0].length ≤ bcap) :=
  ⟨fun k => ⟨{ r with scheme := k }, rfl⟩, ⟨{ r with scheme := 4 }, by decide⟩,
    ⟨{ r with scheme := 2, repeatFactor := 3 }, by decide, rfl, by decide, Nat.zero_le _⟩⟩

theorem witness_FecRoundTrip : ∃ s : State, s = putB 0 (bits 10 0b1011001110) (on [] { r with scheme := 3 }) ∧ s.mode = .exec ∧
    s.scheme.toNat ≤ 3 ∧ codeLength s.scheme.toNat s.b[0].length ≤ bcap :=
  ⟨_, rfl, rfl, by decide, le_trans (by decide) bcap_least⟩

theorem witness_HammingSyndrome : ∃ c : Nat → Bool, ∀ j, c j = (putX 1 0x37 r).x[1].getLsbD (7 - j) := ⟨_, fun _ => rfl⟩

/-- The codeword 0x33 of 0xB, received as 0x37: its code bit at position 4 inverted (V-HAM-2b). -/
theorem witness_SingleErrorIsCorrected : ∃ t, (4 < 7) ∧ exec (.henc4 2 1) (putX 1 0xB r) = .next t ∧
    (putX 2 0x37 r).x[2].toNat % 128 = t.x[2].toNat ^^^ 2 ^ (6 - 4) := ⟨_, by decide, rfl, by decide +kernel⟩

theorem witness_HammingStreamEncode : (∃ d : Nat → Bool, ∀ j, d j = (putB 0 (bits 3 5) r).b[0].getD j false) ∧
    7 * (((putB 0 (bits 3 5) r).b[0].length + 3) / 4) ≤ bcap ∧
    bcap < 7 * (((putB 0 fullB r).b[0].length + 3) / 4) := by
  have h := bcap_least
  have e : (putB 0 fullB r).b[0] = fullB := putB_b 0 _ r
  have e' : (putB 0 (bits 3 5) r).b[0].length = 3 := rfl
  refine ⟨⟨_, fun _ => rfl⟩, ?_, ?_⟩
  · rw [e']; omega
  · rw [e, fullB_length]; omega

theorem witness_HammingStreamDecode : (putB 0 fullB r).b[0].length ≤ bcap := by
  have e : (putB 0 fullB r).b[0] = fullB := putB_b 0 _ r
  rw [e, fullB_length]

/-- `101` encoded as `1011010`, received with its last bit inverted (V-HAM-4a, V-HAM-4b). -/
theorem witness_HammingStreamCorrectsOneErrorPerBlock :
    ∃ t u : State, exec (.hamenc 1 0) (putB 0 (bits 3 0b101) r) = .next t ∧ t.mode ≠ .fault ∧
      u.payload = t.payload ∧ u.padlen = t.padlen ∧ u.b[2].length = t.b[1].length ∧
      ∀ k, ((List.range 7).filter fun j => u.b[2][7 * k + j]? != t.b[1][7 * k + j]?).length ≤ 1 := by
  refine ⟨_, putB 2 (bits 7 0b1011011) { r with payload := 3, padlen := 1 }, rfl, by decide +kernel, by decide +kernel,
    by decide +kernel, by decide +kernel, fun k => ?_⟩
  match k with
  | 0 => decide +kernel
  | k + 1 =>
    rw [List.filter_eq_nil_iff.mpr]
    · exact Nat.zero_le 1
    · intro j _
      rw [List.getElem?_eq_none, List.getElem?_eq_none]
      · decide
      · exact le_trans (b := 7) (by decide +kernel) (by omega)
      · exact le_trans (b := 7) (by decide +kernel) (by omega)

theorem witness_DeriveSeedCommand :
    (putB 4 (bits 16 0x616C) r).b[4] = [0x61, 0x6C].flatMap (fun y : BitVec 8 => (List.range 8).map fun i => y.getLsbD (7 - i)) ∧
    (putB 4 (bits 12 1) r).b[4].length % 8 ≠ 0 ∧ r.b[4] = [].flatMap (fun y : BitVec 8 => (List.range 8).map fun i => y.getLsbD (7 - i)) := by
  decide

/-- `CPB` at the capacity, and one above it. -/
theorem witness_GenerateChips :
    (∃ s s' : State, s.cpb.toNat ≤ wcap ∧ s.cpb.toNat = wcap ∧ s'.x[2] = s.x[1] ∧ s'.cpb = s.cpb) ∧
    (∃ s : State, wcap < s.cpb.toNat) := by
  refine ⟨⟨sizes (BitVec.ofNat 64 wcap) 0 0 r, sizes (BitVec.ofNat 64 wcap) 0 0 r, ?_, ?_, rfl, rfl⟩,
    sizes (BitVec.ofNat 64 (wcap + 1)) 0 0 r, ?_⟩ <;> simp only [sizes_cpb, wcap_toNat, overW_toNat] <;> omega

/-- The capacity clauses for any capacity `W` below 2^64 - 1 and any samples `v` of that length. -/
theorem spread_operands (W : Nat) (hW : 0 < W) (hlt : W + 1 < 2 ^ 64) (v : List Sys2Proof.Num) (hv : v.length = W) :
    (∃ s : State, s.w[0].data.length = s.cpb.toNat ∧ s.b[1] = [] ∧ W < s.cpb.toNat) ∧
    (∃ s : State, s.w[0].data.length = s.cpb.toNat ∧ s.b[1] ≠ [] ∧ s.b[1].length * s.cpb.toNat = W) ∧
    (∃ s : State, s.w[0].data.length = s.cpb.toNat ∧ s.b[1] ≠ [] ∧ W < s.b[1].length * s.cpb.toNat) := by
  have e (v : List Sys2Proof.Num) (s : State) : (putData 0 v s).w[0].data = v := putData_w 0 v s
  have eb (v : BitSeq) (s : State) : (putB 1 v s).b[1] = v := putB_b 1 v s
  refine ⟨⟨putData 0 (F64.one :: v) (sizes (BitVec.ofNat 64 (W + 1)) 0 0 r), ?_, rfl, ?_⟩,
    ⟨putData 0 v (sizes (BitVec.ofNat 64 W) 0 0 (putB 1 [true] r)), ?_, ?_, ?_⟩,
    ⟨putData 0 v (sizes (BitVec.ofNat 64 W) 0 0 (putB 1 [true, true] r)), ?_, ?_, ?_⟩⟩ <;>
    simp only [e, eb, putData_b, putData_cpb, sizes_cpb, sizes_b, hv, toNat_ofNat_lt _ hlt,
      toNat_ofNat_lt W (Nat.lt_of_succ_lt hlt), List.length_cons, List.length_nil, ne_eq, reduceCtorEq, not_false_eq_true] <;>
    omega

/-- The five clauses of `SPREAD`: a length that differs; no bits and few chips, or too many; bits that fit, or do not. -/
theorem witness_SpreadCommand :
    (∃ s : State, s.w[0].data.length ≠ s.cpb.toNat) ∧
    (∃ s : State, s.w[0].data.length = s.cpb.toNat ∧ s.b[1] = [] ∧ s.cpb.toNat ≤ wcap) ∧
    (∃ s : State, s.w[0].data.length = s.cpb.toNat ∧ s.b[1] = [] ∧ wcap < s.cpb.toNat) ∧
    (∃ s : State, s.w[0].data.length = s.cpb.toNat ∧ s.b[1] ≠ [] ∧ s.b[1].length * s.cpb.toNat = wcap) ∧
    (∃ s : State, s.w[0].data.length = s.cpb.toNat ∧ s.b[1] ≠ [] ∧ wcap < s.b[1].length * s.cpb.toNat) :=
  ⟨⟨putData 0 [F64.one] r, by decide⟩, ⟨r, rfl, rfl, Nat.zero_le _⟩,
    spread_operands wcap (lt_of_lt_of_le (by decide) wcap_least) wcap_succ_lt fullW fullW_length⟩

/-- Any samples with a factor of 1, and with a factor of 2. -/
theorem oversample_operands (W : Nat) (hW : 0 < W) (v : List Sys2Proof.Num) (hv : v.length = W) :
    (∃ s : State, s.w[1].data.length * s.ovs.toNat = W) ∧ (∃ s : State, W < s.w[1].data.length * s.ovs.toNat) := by
  have e (v : List Sys2Proof.Num) (s : State) : (putData 1 v s).w[1].data = v := putData_w 1 v s
  refine ⟨⟨sizes 0 1 0 (putData 1 v r), ?_⟩, sizes 0 2 0 (putData 1 v r), ?_⟩ <;>
    simp only [e, sizes_w, sizes_ovs, hv, BitVec.reduceToNat] <;> omega

theorem witness_OversampleCommand :
    (∃ s : State, s.w[1].data.length * s.ovs.toNat = wcap) ∧ (∃ s : State, wcap < s.w[1].data.length * s.ovs.toNat) :=
  oversample_operands wcap (lt_of_lt_of_le (by decide) wcap_least) fullW fullW_length

/-- The windows 0, -1 and the most negative one; and the least positive one on the longest source. -/
theorem witness_WindowedMeanCommand :
    (∀ k ∈ ([0, 0xFFFFFFFFFFFFFFFF, 0x8000000000000000] : List Word), ∃ s : State, s.x[1] = k ∧ k.toInt ≤ 0) ∧
    (∃ s : State, 0 < s.x[1].toInt ∧ s.w[1].data.length = wcap) := by
  have e (v : List Sys2Proof.Num) (s : State) : (putData 1 v s).w[1].data = v := putData_w 1 v s
  have hx (k : Word) : (putX 1 k r).x[1] = k := rfl
  refine ⟨fun k hk => ⟨putX 1 k r, rfl, ?_⟩, putData 1 fullW (putX 1 1 r), by rw [show (putData 1 fullW (putX 1 1 r)).x[1] = 1 from rfl]; decide, ?_⟩
  · simp only [List.mem_cons, List.not_mem_nil, or_false] at hk
    rcases hk with rfl | rfl | rfl <;> decide
  · rw [e, fullW_length]

/-- The four clauses of `DESPRD`: no oversampling; a chip count that differs; no chips; and a despreading. -/
theorem witness_DespreadCommand :
    (∃ s : State, s.ovs.toNat = 0) ∧
    (∃ s : State, s.ovs.toNat ≠ 0 ∧ s.w[1].data.length ≠ s.cpb.toNat) ∧
    (∃ s : State, s.ovs.toNat ≠ 0 ∧ s.w[1].data.length = s.cpb.toNat ∧ s.cpb.toNat = 0) ∧
    (∃ s : State, s.ovs.toNat ≠ 0 ∧ s.w[1].data.length = s.cpb.toNat ∧ s.cpb.toNat ≠ 0 ∧ s.w[0].data.length ≤ wcap) :=
  ⟨⟨r, rfl⟩, ⟨sizes 1 1 0 r, by decide, by decide⟩, ⟨sizes 0 1 0 r, by decide, rfl, rfl⟩,
    ⟨sizes 1 1 0 (putData 1 [F64.one] r), by decide, rfl, by decide, Nat.zero_le _⟩⟩

theorem witness_SliceCommand :
    (∃ s : State, s.w[0].data.length ≤ bcap) ∧ (∃ s : State, bcap < s.w[0].data.length) := by
  refine ⟨⟨r, Nat.zero_le _⟩, putData 0 (List.replicate (bcap + 1) F64.zero) r, ?_⟩
  rw [show (putData 0 (List.replicate (bcap + 1) F64.zero) r).w[0].data = _ from putData_w 0 _ r, List.length_replicate]
  omega

/-- Two chips that agree, that agree in one place, and that agree in none: a positive, a zero and a negative correlation. -/
theorem witness_DespreadingLaw (q : List ℝ) (hq : q ∈ ([[1, 1], [1, -1], [-1, -1]] : List (List ℝ))) :
    [true, false] ≠ [] ∧ 1 ≤ 2 ∧ ([1, 1] : List ℝ).length = 2 ∧ q.length = 2 ∧ (∀ c ∈ ([1, 1] : List ℝ), c = 1 ∨ c = -1) ∧
      ∀ c ∈ q, c = 1 ∨ c = -1 := by
  simp only [List.mem_cons, List.not_mem_nil, or_false] at hq
  rcases hq with rfl | rfl | rfl <;> simp

theorem witness_DespreadingLaw_rho :
    (0 : ℝ) < (∑ j ∈ Finset.range 2, ([1, 1] : List ℝ).getD j 0 * ([1, 1] : List ℝ).getD j 0) / (2 : ℕ) ∧
    (∑ j ∈ Finset.range 2, ([1, 1] : List ℝ).getD j 0 * ([1, -1] : List ℝ).getD j 0) / (2 : ℕ) = (0 : ℝ) ∧
    (∑ j ∈ Finset.range 2, ([1, 1] : List ℝ).getD j 0 * ([-1, -1] : List ℝ).getD j 0) / (2 : ℕ) < (0 : ℝ) := by
  norm_num [Finset.sum_range_succ]

theorem witness_CarrierCommands :
    (∃ s : State, num.gt0 s.w[0].rate = true ∧ s.w[0].data.length ≤ wcap) ∧ (∃ s : State, num.gt0 s.w[0].rate = false) :=
  ⟨⟨putW 0 [p 1] 1 r, by decide +kernel, le_trans (by decide) wcap_least⟩, r, by decide +kernel⟩

theorem witness_LinkRecoversEveryBit : [true, false] ≠ [] ∧ 1 ≤ 2 ∧ 1 ≤ 1 ∧ 2 ≤ 2 * 1 ∧ ([1, -1] : List ℝ).length = 2 ∧
    (∀ c ∈ ([1, -1] : List ℝ), c = 1 ∨ c = -1) ∧ (0 : ℝ) < 1000 ∧ (1000 : ℝ) = 1000 * (1 : ℕ) := by simp

theorem witness_WhiteNoiseCommand :
    (∃ s : State, num.gt0 s.npow = false ∧ s.w[0].data.length ≤ wcap) ∧
    (∃ s : State, s.w[0].data.length ≤ wcap ∧ num.gt0 s.npow = true ∧ s.w[0].data ≠ []) :=
  ⟨⟨r, by decide +kernel, Nat.zero_le _⟩,
    ⟨putW 0 [p 1] 1 { r with npow := p 1 }, le_trans (by decide) wcap_least, by decide +kernel, by decide +kernel⟩⟩

theorem witness_BandNoiseCommand :
    (∃ s : State, s.w[0].data.length ≤ wcap ∧ num.gt0 s.npow = false) ∧
    (∃ s : State, s.w[0].data.length ≤ wcap ∧ num.gt0 s.npow = true ∧ num.gt0 s.nbw = true ∧ num.gt0 s.w[0].rate = false) ∧
    (∃ s : State, s.w[0].data.length ≤ wcap ∧ num.gt0 s.npow = true ∧ num.gt0 s.nbw = true ∧ num.gt0 s.w[0].rate = true ∧
      s.w[0].data ≠ []) :=
  ⟨⟨r, Nat.zero_le _, by decide +kernel⟩,
    ⟨{ r with npow := p 1, nbw := p 1 }, Nat.zero_le _, by decide +kernel, by decide +kernel, by decide +kernel⟩,
    ⟨putW 0 [p 1] 1 { r with npow := p 1, nbw := p 1 }, le_trans (by decide) wcap_least, by decide +kernel,
      by decide +kernel, by decide +kernel, by decide +kernel⟩⟩

/-- The names that `BandNoiseCommand` gives to values have values. -/
theorem witness_BandNoiseCommand_names (s : State) : ∃ (N : Nat) (cut : Sys2Proof.Num) (freq : Nat → Sys2Proof.Num)
    (keep : Nat → Bool), N = s.w[0].data.length ∧
    cut = num.min (num.div s.nbw (num.ofNat 2)) (num.div s.w[0].rate (num.ofNat 2)) ∧
    (∀ k, freq k = if 2 * k < N then num.div (num.mul (num.ofNat k) s.w[0].rate) (num.ofNat N)
      else num.mul num.negOne (num.div (num.mul (num.ofNat (N - k)) s.w[0].rate) (num.ofNat N))) ∧
    (∀ k, keep k = !num.absGt (freq k) cut) := ⟨_, _, _, _, rfl, rfl, fun _ => rfl, fun _ => rfl⟩

theorem witness_AddNoiseDispatch :
    (∃ s : State, s.nmode = 0) ∧ (∃ s : State, 1 < s.nmode.toNat) ∧
    (∃ s : State, s.w[0].data.length ≤ wcap ∧ s.nmode = 1 ∧ num.gt0 s.w[0].rate = true) :=
  ⟨⟨r, rfl⟩, ⟨{ r with nmode := 2 }, by decide⟩,
    ⟨putW 0 [p 1] 1 { r with nmode := 1 }, le_trans (by decide) wcap_least, rfl, by decide +kernel⟩⟩

theorem witness_AddNoiseDispatch_noPower :
    ∃ s : State, s.npow = num.zero ∧ s.w[0].data.length ≤ wcap ∧ s.nmode.toNat ≤ 1 ∧ s.nmode = 1 :=
  ⟨{ r with nmode := 1 }, rfl, Nat.zero_le _, by decide, rfl⟩

/-- Two samples that differ, at the sample rate 2 with a bandwidth of 2: nothing is masked, so the shaped samples are the
drawn ones, and their variance and deviation are 1. -/
theorem witness_BandNoiseHasItsPower : ∃ (fs pow bw : ℝ) (g y : List ℝ), 0 < fs ∧ 0 < pow ∧ 0 < bw ∧ g ≠ [] ∧
    y = shape realOps g (keepBin realOps 2 fs bw) ∧ g.length = 2 ∧ fs ≤ bw ∧
    (y.map fun a => (a - y.sum / (2 : ℕ)) ^ (2 : ℕ)).sum / ((2 : ℕ) : ℝ) ≠ 0 ∧
    Real.sqrt ((g.map fun a => (a - g.sum / (2 : ℕ)) ^ (2 : ℕ)).sum / ((2 : ℕ) : ℝ)) ≠ 0 := by
  refine ⟨2, 4, 2, [1, -1], [1, -1], by norm_num, by norm_num, by norm_num, by simp, ?_, rfl, le_refl _, by norm_num,
    by norm_num⟩
  rw [shape_real_keep_all]
  intro k hk
  have : k = 0 ∨ k = 1 := by
    have : ([1, -1] : List ℝ).length = 2 := rfl
    omega
  rcases this with rfl | rfl <;> simp [keepBin, binFreq, cutOff, realOps]

/-- Four samples at the rate 4 with a bandwidth of 2 (45_noise.md R216, example): bin 2 is masked. -/
theorem witness_BandNoiseHasItsPower_masked :
    min ((2 : ℝ) / 2) (4 / 2) < |if 2 * 2 < 4 then ((2 : ℕ) : ℝ) * 4 / ((4 : ℕ) : ℝ) else -(((4 - 2 : ℕ) : ℝ) * 4 / ((4 : ℕ) : ℝ))| := by
  norm_num

/-- One bit, one chip, one sample. -/
abbrev runnable : State := putB 0 [true] { r with nmode := 1, cpb := 1, ovs := 1, chiprate := p 1000 }

theorem witness_RunCompletes :
    runnable.b[0] ≠ [] ∧ runnable.scheme.toNat ≤ 3 ∧ runnable.nmode.toNat ≤ 1 ∧ 1 ≤ runnable.cpb.toNat ∧
    codeLength runnable.scheme.toNat runnable.b[0].length ≤ bcap ∧
    codeLength runnable.scheme.toNat runnable.b[0].length * runnable.cpb.toNat * runnable.ovs.toNat ≤ wcap ∧
    num.gt0 (num.mul runnable.chiprate (num.ofNat runnable.ovs.toNat)) = true :=
  ⟨by decide, by decide, by decide, by decide, le_trans (by decide) bcap_least, le_trans (by decide) wcap_least, by decide +kernel⟩

/-- What the clauses of the fault table that are left say of the operands before them. -/
abbrev FitsAll (s : State) : Prop :=
  s.b[0] ≠ [] ∧ s.scheme.toNat ≤ 3 ∧ codeLength s.scheme.toNat s.b[0].length ≤ bcap ∧ s.cpb.toNat ≤ wcap ∧
    codeLength s.scheme.toNat s.b[0].length * s.cpb.toNat ≤ wcap ∧
    codeLength s.scheme.toNat s.b[0].length * s.cpb.toNat * s.ovs.toNat ≤ wcap

theorem fitsAll_small (s : State) (h : s.b[0] = [true]) (hs : s.scheme = 0) (hc : s.cpb.toNat ≤ 1) (ho : s.ovs = 1) : FitsAll s := by
  have hb := bcap_least
  have hw := wcap_least
  unfold FitsAll
  rw [h, hs, ho]
  simp [codeLength]
  omega

/-- The faults of `RUN` that come before the capacities. -/
theorem witness_RunFaultTable_operands :
    (∃ s : State, s.b[0] = []) ∧ (∃ s : State, s.b[0] ≠ [] ∧ 3 < s.scheme.toNat) :=
  ⟨⟨r, rfl⟩, ⟨putB 0 [true] (sizes 0 0 4 r), by decide, by decide⟩⟩

/-- The capacity clauses for any capacities `B` and `W`, and any bits `v` of the length `B`. -/
theorem capacity_operands (B W : Nat) (hB : 24576 ≤ B) (hW : 0 < W) (hlt : W + 1 < 2 ^ 64) (v : BitSeq) (hv : v.length = B) :
    (∃ s : State, s.b[0] ≠ [] ∧ s.scheme.toNat ≤ 3 ∧ B < codeLength s.scheme.toNat s.b[0].length) ∧
    (∃ s : State, s.b[0] ≠ [] ∧ s.scheme.toNat ≤ 3 ∧ codeLength s.scheme.toNat s.b[0].length ≤ B ∧ W < s.cpb.toNat) ∧
    (∃ s : State, s.b[0] ≠ [] ∧ s.scheme.toNat ≤ 3 ∧ codeLength s.scheme.toNat s.b[0].length ≤ B ∧ s.cpb.toNat ≤ W ∧
      W < codeLength s.scheme.toNat s.b[0].length * s.cpb.toNat) ∧
    (∃ s : State, s.b[0] ≠ [] ∧ s.scheme.toNat ≤ 3 ∧ codeLength s.scheme.toNat s.b[0].length ≤ B ∧ s.cpb.toNat ≤ W ∧
      codeLength s.scheme.toNat s.b[0].length * s.cpb.toNat ≤ W ∧
      W < codeLength s.scheme.toNat s.b[0].length * s.cpb.toNat * s.ovs.toNat) := by
  have e (v : BitSeq) (s : State) : (putB 0 v s).b[0] = v := putB_b 0 v s
  have hne : v ≠ [] := List.ne_nil_of_length_pos (by omega)
  refine ⟨⟨sizes 0 0 1 (putB 0 v r), ?_⟩, ⟨sizes (BitVec.ofNat 64 (W + 1)) 0 0 (putB 0 [true] r), ?_⟩,
    ⟨sizes (BitVec.ofNat 64 W) 0 0 (putB 0 [true, true] r), ?_⟩, ⟨sizes (BitVec.ofNat 64 W) 2 0 (putB 0 [true] r), ?_⟩⟩ <;>
    simp only [sizes_b, sizes_scheme, sizes_cpb, sizes_ovs, e, hne, codeLength, hv, toNat_ofNat_lt _ hlt,
      toNat_ofNat_lt W (Nat.lt_of_succ_lt hlt), List.length_cons, List.length_nil, ne_eq, not_false_eq_true, true_and,
      BitVec.reduceToNat, reduceCtorEq] <;> omega

/-- The four capacities, each with the ones before it kept. -/
theorem witness_RunFaultTable_capacities :
    (∃ s : State, s.b[0] ≠ [] ∧ s.scheme.toNat ≤ 3 ∧ bcap < codeLength s.scheme.toNat s.b[0].length) ∧
    (∃ s : State, s.b[0] ≠ [] ∧ s.scheme.toNat ≤ 3 ∧ codeLength s.scheme.toNat s.b[0].length ≤ bcap ∧ wcap < s.cpb.toNat) ∧
    (∃ s : State, s.b[0] ≠ [] ∧ s.scheme.toNat ≤ 3 ∧ codeLength s.scheme.toNat s.b[0].length ≤ bcap ∧ s.cpb.toNat ≤ wcap ∧
      wcap < codeLength s.scheme.toNat s.b[0].length * s.cpb.toNat) ∧
    (∃ s : State, s.b[0] ≠ [] ∧ s.scheme.toNat ≤ 3 ∧ codeLength s.scheme.toNat s.b[0].length ≤ bcap ∧ s.cpb.toNat ≤ wcap ∧
      codeLength s.scheme.toNat s.b[0].length * s.cpb.toNat ≤ wcap ∧
      wcap < codeLength s.scheme.toNat s.b[0].length * s.cpb.toNat * s.ovs.toNat) :=
  capacity_operands bcap wcap bcap_least (lt_of_lt_of_le (by decide) wcap_least) wcap_succ_lt fullB fullB_length

/-- The rate, the mode and the window, on operands that fit. -/
theorem witness_RunFaultTable_late :
    (∃ s : State, FitsAll s ∧ num.gt0 (num.mul s.chiprate (num.ofNat s.ovs.toNat)) = false) ∧
    (∃ s : State, FitsAll s ∧ num.gt0 (num.mul s.chiprate (num.ofNat s.ovs.toNat)) = true ∧ 1 < s.nmode.toNat) ∧
    (∃ s : State, FitsAll s ∧ num.gt0 (num.mul s.chiprate (num.ofNat s.ovs.toNat)) = true ∧ s.nmode.toNat ≤ 1 ∧ s.cpb.toNat = 0) :=
  ⟨⟨sizes 1 1 0 (putB 0 [true] r), fitsAll_small _ rfl rfl (by decide) rfl, by decide +kernel⟩,
    ⟨sizes 1 1 0 (putB 0 [true] { r with chiprate := p 1, nmode := 2 }), fitsAll_small _ rfl rfl (by decide) rfl,
      by decide +kernel, by decide⟩,
    ⟨sizes 0 1 0 (putB 0 [true] { r with chiprate := p 1 }), fitsAll_small _ rfl rfl (by decide) rfl,
      by decide +kernel, by decide, by decide⟩⟩

/-- A command that has a state after it answered it. -/
theorem exec_of_after {i : Instr} {s t : State} (h : after i s = some t) : exec i s = .next t := by
  unfold after at h
  split at h
  · next e => rw [e, Option.some.inj h]
  · cases h
  · cases h

/-- The same in `EXEC`. -/
abbrev running : State := { runnable with mode := .exec }

/-- `RUN` on `running`, with its seeds in `x1` and `x2`, completes. -/
theorem witness_RunIsItsProgram : ∃ s t : State, s.mode = .exec ∧ s.x[1] = s.seedtx ∧ s.x[2] = s.seedrx ∧
    exec .run s = .next t ∧ t.mode = .exec := by
  have hb : readB 0 running ≠ [] := by decide
  have hfit : RunFits machine running :=
    ⟨by decide, le_trans (by decide) bcap_least, le_trans (by decide) wcap_least, le_trans (by decide) wcap_least,
      le_trans (by decide) wcap_least, by decide, by decide +kernel, by decide, by decide⟩
  have hrun := (ruleRun_eq_ok (P := machine) running _).2
    ⟨hb, _, (runPipeline_eq_ok (P := machine) running _ hb).2 ⟨hfit, rfl⟩, fun i => ?_, rfl⟩
  · exact ⟨running, _, rfl, rfl, rfl, (exec_eq_finish .run running).trans (congrArg (finish running) hrun), rfl⟩
  · have h : (tapsOf machine (runScratch machine running))[i].data.length = 1 := by
      match i with
      | 0 => rfl
      | 1 => rfl
      | 2 => rfl
      | 3 => rfl
      | 4 => rfl
      | 5 => rfl
    exact h.trans_le wcap_least

/-- Two bits of the reference instance over the reals, the seeds of `ImpostorProperty`, at a quarter of the sample rate
and at its half. -/
noncomputable def realVectors : Params ℝ where
  num := realOps
  bcapExtra := 0
  wcap := 4194304
  chipSign := xs64Sign
  gaussSample := fun _ _ _ => 0
  noiseDraw := fun _ => 0

/-- A state over the reals with the payload `10`, one sample a chip, chip rate 1 and the given chips, seeds and carrier. -/
noncomputable def realState (cpb tx rx : Word) (fc : ℝ) : State.Of ℝ :=
  { State.resetOf realOps with
      b := (State.resetOf realOps).b.set 0 [true, false], cpb := cpb, ovs := 1, seedtx := tx, seedrx := rx, chiprate := 1,
      fc := fc }

theorem witness_RunLawsInNumReal : ∀ tx rx : Word, ∀ fc : ℝ, ∃ s : State.Of ℝ, s = realState 20 tx rx fc ∧
    realVectors.num = realOps ∧ s.cpb.toNat = 20 ∧ s.ovs.toNat = 1 ∧ s.b[0] ≠ [] ∧ s.b[0].length < 2 ^ 64 ∧
    s.scheme.toNat ≤ 3 ∧ s.nmode.toNat ≤ 1 ∧ 0 < s.chiprate ∧ 2 ≤ 20 * 1 ∧
    codeLength s.scheme.toNat s.b[0].length ≤ bcapOf realVectors ∧
    codeLength s.scheme.toNat s.b[0].length * 20 * 1 ≤ realVectors.wcap ∧ s.npow = 0 ∧ true ∈ s.b[0] ∧
    s.seedtx = tx ∧ s.seedrx = rx ∧ s.fc = fc := by
  intro tx rx fc
  have hb : (realState 20 tx rx fc).b[0] = [true, false] := by simp [realState]
  refine ⟨_, rfl, rfl, rfl, rfl, ?_⟩
  simp only [hb]
  refine ⟨by decide, by decide, Nat.zero_le 3, Nat.zero_le 1, one_pos, by decide, ?_, ?_, rfl, by decide, rfl, rfl, rfl⟩
  · exact le_trans (b := 2) (le_of_eq rfl) (le_trans (by decide) (bcapOf_least realVectors))
  · exact le_trans (b := 40) (le_of_eq rfl) (by decide)

/-- Carriers at which every square is 1, and seeds whose chips agree more, and less, than they differ, and as often. -/
theorem witness_RunLawsInNumReal_agreement :
    (∃ k : ℤ, (1 / 2 : ℝ) / (1 * (1 : ℕ)) = k / 2) ∧ ImpostorProperty xs64Sign ∧
    0 < chipAgreement xs64Sign 1 1 20 ∧ chipAgreement xs64Sign 0x8ED3F6AD685B959E 0x6D4A29A6DA82457C 20 < 0 ∧
    ∃ tx rx : Word, chipAgreement xs64Sign tx rx 20 = 0 :=
  ⟨⟨1, by norm_num⟩, by unfold ImpostorProperty; decide +kernel, by decide +kernel, by decide +kernel, 1, 2, by decide +kernel⟩

/-- The host port's clauses. -/
theorem witness_HostPortOperations :
    (∃ (s : State) (op : HostOp), s.mode = .exec ∧ op ≠ .reset) ∧
    (∃ (s : State) (P : List CmdWord), s.mode = .idle ∧ P.length < 2 ^ 32) ∧
    (∃ s : State, s.mode = .fault) ∧ (∃ s : State, s.mode ≠ .exec ∧ s.tapv = true ∧ (1 : Word) = s.runid ∧ 5 < 6) ∧
    (∃ v : BitSeq, r.mode ≠ .exec ∧ v.length = bcap) ∧ (∃ v : List Sys2Proof.Num, r.mode ≠ .exec ∧ v.length = wcap) ∧
    (∃ v : BitSeq, bcap < v.length) ∧ (∃ v : List Sys2Proof.Num, wcap < v.length) ∧
    (∀ n ∈ ([0x004, 0x01B, 0x01F, 0x024] : List (BitVec 12)), n.toNat ∉ csrWriteNumbers ∧ n.toNat ∉ [0x020, 0x021, 0x022, 0x023]) ∧
    ((0x023 : BitVec 12).toNat ∈ [0x020, 0x021, 0x022, 0x023] ∧ (0x01A : BitVec 12).toNat ∈ csrWriteNumbers) :=
  ⟨⟨atHalt, .fclr, rfl, by decide⟩, ⟨r, [], rfl, by decide⟩, ⟨takeFault ⟨.operand, 0⟩ r, rfl⟩,
    ⟨{ r with tapv := true, runid := 1 }, by decide, rfl, rfl, by decide⟩, ⟨fullB, by decide, fullB_length⟩,
    ⟨fullW, by decide, fullW_length⟩, ⟨true :: fullB, by rw [List.length_cons, fullB_length]; omega⟩,
    ⟨F64.zero :: fullW, by rw [List.length_cons, fullW_length]; omega⟩, by decide, by decide⟩

/-- A request with the message "A", a secret of four characters and the given sizes. -/
def request (oversampling scheme : Word) : SimRequest Sys2Proof.Num :=
  { message := [0x41], txSecret := [0x61, 0x62, 0x63, 0x64], txSecretLength := 4, rxSecret := [0x61, 0x62, 0x63, 0x64],
    chipRate := p 1000, carrierFreq := p 0, noisePower := p 0, noiseBandwidth := p 0, noiseMode := 0,
    oversampling := oversampling, scheme := scheme }

/-- How the simulation of a request ends after reset. -/
def ends (q : SimRequest Sys2Proof.Num) : SimOutcome Sys2Proof.Num × State := runSimulation vectors q r

/-- One byte comes back under the id 1 with six stages (48_host_reference.md R275). -/
theorem test_simulation_result : (match (ends (request 1 0)).1 with
    | .result o => (o.decoded.length, o.id, o.stages.length)
    | _ => (0, 0, 0)) = (1, 1, 6) := by decide +kernel

/-- The three ends of a simulation: completed, an unsupported scheme, and no oversampling. -/
theorem witness_HostRunsSimulation : r.mode = .idle ∧ 8 * (request 1 2).message.length ≤ bcapOf vectors ∧
    8 * (request 1 2).message.length < 2 ^ 64 ∧ (ends (request 1 2)).2.done = true ∧
    (ends (request 1 4)).1 = .invalidArgument 1 4 ∧ (ends (request 1 4)).2.mode = .idle ∧
    (ends (request 0 2)).1 = .otherFault 6 0 ∧ (ends (request 0 2)).2.mode = .fault := by decide +kernel

/-- A decimation that keeps every element, and one that does not. -/
theorem witness_StageQueries : (Stage.decoder, (5 : Fin 6)) ∈ [(Stage.source, (0 : Fin 6)), (.decoder, 5)] ∧
    (∃ (id : Word) (s : State), s.mode ≠ .exec ∧ s.tapv = true ∧ id = s.runid) ∧
    (∃ o c t, runSimulationCached vectors 1 (request 1 2) [] r = (.result o, c, t)) ∧
    [1, 2, 3].length ≤ 3 ∧ 2 < [1, 2, 3].length := by
  refine ⟨by decide, ⟨1, { r with tapv := true, runid := 1 }, by decide, rfl, rfl⟩, ?_, by decide, by decide⟩
  have h : (match (runSimulationCached vectors 1 (request 1 2) [] r).1 with | .result _ => true | _ => false) = true := by
    decide +kernel
  rcases e : runSimulationCached vectors 1 (request 1 2) [] r with ⟨o, c, t⟩
  rw [e] at h
  cases o with
  | result o => exact ⟨o, c, t, rfl⟩
  | invalidArgument _ _ => cases h
  | otherFault _ _ => cases h
  | notStarted => cases h

/-- A query's waveform is decimated and keeps its rate (48_host_reference.md R288, R285). -/
theorem test_view_waveform : (viewStage num 2 ⟨[p 10, p 11, p 12, p 13, p 14], p 7⟩).waveform = ⟨[p 10, p 13], p 7⟩ := by
  decide +kernel

theorem test_decimate : decimate [10, 11, 12, 13, 14] 2 = [10, 13] := by decide

/-- Three ids in a cache of two, and one of them stored again; and a waveform with samples. -/
theorem witness_CacheEvictionAndSpectrum : 1 ≤ 2 ∧ ([7, 8, 9] : List Word).Nodup ∧ 7 ∈ ([7, 8, 9] : List Word).take (3 - 2) ∧
    (∀ e ∈ ([(8, [])] ++ [(9, [])] : StageCache Sys2Proof.Num), e.1 ≠ 7) ∧ ([1] : List ℝ) ≠ [] :=
  ⟨by decide, by decide, by decide, by decide, by simp⟩

end Sys2Proof.Tests
end

section
/-! SUPPORT. What the rule of each command writes, with the opcodes that may write it: the one inversion of the 40 rules
from which the invariant, the modes and the frames of 10_state.md are derived. -/

namespace Sys2Proof.Machine

variable {α : Type} {P : Params α}

/-! ### Opcodes (30_encoding.md R91, R95) -/

@[simp] theorem fieldOp_encodeR (op : BitVec 8) (a b c : BitVec 4) : fieldOp (encodeR op a b c) = op :=
  fieldOp_packFields ..

@[simp] theorem fieldOp_encodeImm (op : BitVec 8) (r : Fin 8) (imm : BitVec 16) : fieldOp (encodeImm op r imm) = op :=
  fieldOp_packFields ..

/-- The opcodes of the commands that write a scalar register (10_state.md R21). -/
def registerWriters : List (BitVec 8) := [0x10, 0x11, 0x12, 0x15, 0x19, 0x16, 0x1A, 0x30, 0x31, 0x32, 0x33, 0x40]

/-- The opcodes of the commands that write a bit buffer (10_state.md R41). -/
def bitWriters : List (BitVec 8) :=
  [0x14, 0x17, 0x18, 0x20, 0x21, 0x22, 0x23, 0x24, 0x25, 0x2E, 0x2F, 0x34, 0x35, 0x54, 0x03]

/-- The opcodes of the commands that write a sample buffer (10_state.md R42). -/
def sampleWriters : List (BitVec 8) := [0x41, 0x50, 0x51, 0x52, 0x53, 0x60, 0x61, 0x70, 0x71, 0x72, 0x03]

/-- The opcodes of the encoders, which write `PAYLOAD` (10_state.md R34). -/
def encoders : List (BitVec 8) := [0x20, 0x22, 0x24, 0x34, 0x2E]

/-- The opcodes of the noise commands, which take draws (10_state.md R47). -/
def noiseWriters : List (BitVec 8) := [0x70, 0x71, 0x72]

/-! ### The encoders in closed form (40_fec_bitcoding.md, 41_hamming74.md) -/

/-- A bit buffer replaced, then registers written: all it can do. -/
theorem setB_bind_pure_eq_ok (f : State.Of α → State.Of α) (d : BBuf) (v : BitSeq) (s t : State.Of α) :
    (setB P d v s >>= fun u => pure (f u)) = .ok t ↔ v.length ≤ bcapOf P ∧ t = f { s with b := s.b.set d v } := by
  simp only [bind_eq_ok, setB_eq_ok, pure, Except.pure, Except.ok.injEq]
  constructor
  · rintro ⟨_, ⟨hv, rfl⟩, rfl⟩; exact ⟨hv, rfl⟩
  · rintro ⟨hv, rfl⟩; exact ⟨_, ⟨hv, rfl⟩, rfl⟩

/-- `NRZENC` in closed form (R122). -/
theorem ruleNrzenc_eq_ok (bd bs : BBuf) (s t : State.Of α) :
    ruleNrzenc P bd bs s = .ok t ↔ (readB bs s).length ≤ bcapOf P ∧
      t = { s with b := s.b.set bd (readB bs s), payload := BitVec.ofNat 64 (readB bs s).length } :=
  setB_bind_pure_eq_ok (fun u => { u with payload := BitVec.ofNat 64 (readB bs s).length }) ..

/-- `MANENC` in closed form (R124). -/
theorem ruleManenc_eq_ok (bd bs : BBuf) (s t : State.Of α) :
    ruleManenc P bd bs s = .ok t ↔ (manEncode (readB bs s)).length ≤ bcapOf P ∧
      t = { s with b := s.b.set bd (manEncode (readB bs s)), payload := BitVec.ofNat 64 (readB bs s).length } :=
  setB_bind_pure_eq_ok (fun u => { u with payload := BitVec.ofNat 64 (readB bs s).length }) ..

/-- `REPENC` in closed form (R126). -/
theorem ruleRepenc_eq_ok (bd bs : BBuf) (s t : State.Of α) :
    ruleRepenc P bd bs s = .ok t ↔ (repEncode (readB bs s)).length ≤ bcapOf P ∧
      t = { s with b := s.b.set bd (repEncode (readB bs s)), payload := BitVec.ofNat 64 (readB bs s).length,
                   repeatFactor := 3 } :=
  setB_bind_pure_eq_ok (fun u => { u with payload := BitVec.ofNat 64 (readB bs s).length, repeatFactor := 3 }) ..

/-- `HAMENC` in closed form (41_hamming74.md R150). -/
theorem ruleHamenc_eq_ok (bd bs : BBuf) (s t : State.Of α) :
    ruleHamenc P bd bs s = .ok t ↔ (hamEncode (readB bs s)).length ≤ bcapOf P ∧
      t = { s with b := s.b.set bd (hamEncode (readB bs s)), payload := BitVec.ofNat 64 (readB bs s).length,
                   padlen := BitVec.ofNat 64 (hamPad (readB bs s).length) } :=
  setB_bind_pure_eq_ok
    (fun u => { u with payload := BitVec.ofNat 64 (readB bs s).length,
                       padlen := BitVec.ofNat 64 (hamPad (readB bs s).length) }) ..

/-! ### Draws of the noise source (45_noise.md R211 to R216) -/

/-- No noise command takes draws: the injected generator is on, or the noise power is not above zero. -/
def DrawsOff (P : Params α) (s : State.Of α) : Prop := s.nseeden = true ∨ P.num.gt0 s.npow = false

/-- `gauss` where the power is above zero takes no draws unless they are on. -/
theorem gauss_draws_of_off {s : State.Of α} (n : Nat) (hq : DrawsOff P s) (hp : P.num.gt0 s.npow = true) :
    (gauss P n s).2.draws = s.draws := by
  have hseed : s.nseeden = true := hq.resolve_right (by simp [hp])
  rw [gauss_draws, if_pos hseed]

theorem ruleNoisew_draws {wd ws : WBuf} {s t : State.Of α} (hq : DrawsOff P s) (h : ruleNoisew P wd ws s = .ok t) :
    t.draws = s.draws := by
  unfold ruleNoisew at h
  dsimp only at h
  split at h
  · rename_i hp
    obtain ⟨-, rfl⟩ := (setW_eq_ok ..).1 h
    exact gauss_draws_of_off _ hq hp.1
  · obtain ⟨-, rfl⟩ := (setW_eq_ok ..).1 h
    rfl

theorem ruleNoiseb_draws {wd ws : WBuf} {s t : State.Of α} (hq : DrawsOff P s) (h : ruleNoiseb P wd ws s = .ok t) :
    t.draws = s.draws := by
  unfold ruleNoiseb at h
  dsimp only at h
  split at h
  · rename_i hp
    split at h
    · split at h
      · obtain ⟨-, rfl⟩ := (setW_eq_ok ..).1 h
        rfl
      · obtain ⟨-, rfl⟩ := (setW_eq_ok ..).1 h
        exact gauss_draws_of_off _ hq hp.1
    · cases h
  · obtain ⟨-, rfl⟩ := (setW_eq_ok ..).1 h
    rfl

theorem ruleAddnoise_draws {wd ws : WBuf} {s t : State.Of α} (hq : DrawsOff P s) (h : ruleAddnoise P wd ws s = .ok t) :
    t.draws = s.draws := by
  unfold ruleAddnoise at h
  split at h
  · exact ruleNoisew_draws hq h
  · exact ruleNoiseb_draws hq h
  · cases h

/-- The channel step of `RUN` takes no draws unless they are on. -/
theorem drawsAfter_of_off {s : State.Of α} (v : Wave.Of α) (hq : DrawsOff P s) : drawsAfter P s v = s.draws := by
  obtain hseed | hpow := hq
  · simp [drawsAfter, hseed]
  · simp [drawsAfter, noiseActive, hpow]

/-! ### What a rule writes -/

/-- The state `RUN` leaves where it completes (47_system_run.md R252, R257, R258). -/
def runResult (P : Params α) (s : State.Of α) : State.Of α :=
  { runScratch P s with mismatch := bitsDiffer (readB 3 (runScratch P s)) (readB 0 (runScratch P s)),
                        t := tapsOf P (runScratch P s), tapv := true, runid := s.runid + 1 }

/-- The states the rule of a command can answer, by what is written, with the opcodes that write it. The buffers written
keep the form of the buffers. -/
inductive Effect (P : Params α) (i : Instr) (s : State.Of α) : State.Of α → Prop
  | unchanged : Effect P i s s
  | halt (hi : i = .halt) : Effect P i s { s with done := true, mode := .idle }
  | register (r : XReg) (v : Word) (hi : fieldOp (encode i) ∈ registerWriters) : Effect P i s { s with x := s.x.set r v }
  | control (r : IntCsr) (v : Word) (hi : fieldOp (encode i) = 0x13) : Effect P i s (writeCsr r v s)
  | bits (d : BBuf) (v : BitSeq) (hi : fieldOp (encode i) ∈ bitWriters)
      (hm : Memory.wf P s = true → Memory.wf P { s with b := s.b.set d v } = true) : Effect P i s { s with b := s.b.set d v }
  | code (d : BBuf) (v : BitSeq) (p q r : Word) (hi : fieldOp (encode i) ∈ encoders) (hv : v.length ≤ bcapOf P)
      (hq : fieldOp (encode i) ∈ [0x34, 0x2E] ∨ q = s.padlen) (hr : fieldOp (encode i) ∈ [0x24, 0x2E] ∨ r = s.repeatFactor) :
      Effect P i s { s with b := s.b.set d v, payload := p, padlen := q, repeatFactor := r }
  | samples (d : WBuf) (v : Wave.Of α) (k : Nat) (hi : fieldOp (encode i) ∈ sampleWriters) (hv : v.data.length ≤ P.wcap)
      (hk : fieldOp (encode i) ∉ noiseWriters ∨ DrawsOff P s → k = s.draws) :
      Effect P i s { s with w := s.w.set d v, draws := k }
  | run (hi : i = .run) (hb : readB 0 s ≠ []) (hfit : RunFits P s)
      (ht : ∀ j : Fin 6, (tapsOf P (runScratch P s))[j].data.length ≤ P.wcap) : Effect P i s (runResult P s)

/-! ### Each shape of rule has its effect -/

theorem RegWrite.effect {i : Instr} {s t : State.Of α} (h : RegWrite s t) (hi : fieldOp (encode i) ∈ registerWriters) :
    Effect P i s t := by
  obtain ⟨r, v, rfl⟩ := h
  exact .register r v hi

theorem setB_effect {i : Instr} {d : BBuf} {v : BitSeq} {s t : State.Of α} (h : setB P d v s = .ok t)
    (hi : fieldOp (encode i) ∈ bitWriters) : Effect P i s t := by
  obtain ⟨hv, rfl⟩ := (setB_eq_ok ..).1 h
  exact .bits d v hi fun hm => Memory.wf_setB s d v hm hv

theorem BitsWrite.effect {i : Instr} {s t : State.Of α} (h : BitsWrite P s t) (hi : fieldOp (encode i) ∈ bitWriters) :
    Effect P i s t := by
  obtain ⟨d, v, hv, rfl⟩ := h
  exact .bits d v hi fun hm => Memory.wf_setB s d v hm hv

/-- A bit flipped keeps its buffer's length, so the form too (46_scalar_buffer.md R239). -/
theorem ruleBflip_effect {i : Instr} {bd : BBuf} {xi : XReg} {s t : State.Of α} (h : ruleBflip bd xi s = .ok t)
    (hi : fieldOp (encode i) ∈ bitWriters) : Effect P i s t := by
  obtain ⟨v, hv, rfl⟩ := ruleBflip_eq_ok h
  exact .bits bd v hi fun hm => Memory.wf_setB s bd v hm (hv ▸ ((Memory.wf_iff s).1 hm).1 bd)

/-- One sample buffer is written and nothing else, so no draws are taken; it fits. -/
def SamplesWrite (P : Params α) (s t : State.Of α) : Prop :=
  ∃ (d : WBuf) (v : Wave.Of α), v.data.length ≤ P.wcap ∧ t = { s with w := s.w.set d v }

theorem SamplesWrite.effect {i : Instr} {s t : State.Of α} (h : SamplesWrite P s t) (hi : fieldOp (encode i) ∈ sampleWriters) :
    Effect P i s t := by
  obtain ⟨d, v, hv, rfl⟩ := h
  exact .samples d v s.draws hi hv fun _ => rfl

theorem setW_samplesWrite {d : WBuf} {v : List α} {r : α} {s t : State.Of α} (h : setW P d v r s = .ok t) :
    SamplesWrite P s t := by
  obtain ⟨hv, rfl⟩ := (setW_eq_ok ..).1 h
  exact ⟨d, ⟨v, r⟩, hv, rfl⟩

theorem genChips_samplesWrite {wd : WBuf} {seed : Word} {s t : State.Of α} (h : genChips P wd seed s = .ok t) :
    SamplesWrite P s t := by
  obtain ⟨hc, rfl⟩ := (genChips_eq_ok ..).1 h
  exact ⟨wd, _, by simpa using hc, rfl⟩

theorem ruleSpread_samplesWrite {wd wp : WBuf} {bs : BBuf} {s t : State.Of α} (h : ruleSpread P wd bs wp s = .ok t) :
    SamplesWrite P s t := by
  obtain ⟨hp, hl, rfl⟩ := (ruleSpread_eq_ok ..).1 h
  exact ⟨wd, _, by simpa [spreadBits_length _ _ _ _ hp] using hl, rfl⟩

theorem ruleOvsamp_samplesWrite {wd ws : WBuf} {s t : State.Of α} (h : ruleOvsamp P wd ws s = .ok t) :
    SamplesWrite P s t := by
  obtain ⟨hl, rfl⟩ := (ruleOvsamp_eq_ok ..).1 h
  exact ⟨wd, _, by simpa using hl, rfl⟩

theorem ruleChmean_samplesWrite {wd ws : WBuf} {xw : XReg} {s t : State.Of α} (h : ruleChmean P wd ws xw s = .ok t) :
    SamplesWrite P s t := by
  unfold ruleChmean at h
  dsimp only at h
  split at h
  · cases h
  · exact setW_samplesWrite h

theorem ruleDesprd_samplesWrite {wd ws wp : WBuf} {s t : State.Of α} (h : ruleDesprd P wd ws wp s = .ok t) :
    SamplesWrite P s t := by
  obtain ⟨-, -, -, hl, rfl⟩ := (ruleDesprd_eq_ok ..).1 h
  exact ⟨wd, _, by simpa using hl, rfl⟩

theorem mixCarrier_samplesWrite {wd ws : WBuf} {s t : State.Of α} (h : mixCarrier P wd ws s = .ok t) :
    SamplesWrite P s t := by
  obtain ⟨-, hl, rfl⟩ := (mixCarrier_eq_ok ..).1 h
  exact ⟨wd, _, by simpa using hl, rfl⟩

/-- A noise command writes a sample buffer, and takes draws only where they are on. -/
theorem WaveWrite.effect {i : Instr} {s t : State.Of α} (h : WaveWrite P s t) (hd : DrawsOff P s → t.draws = s.draws)
    (hi : fieldOp (encode i) ∈ noiseWriters) : Effect P i s t := by
  obtain ⟨d, v, k, hv, -, rfl⟩ := h
  have hsub : ∀ op ∈ noiseWriters, op ∈ sampleWriters := by decide
  exact .samples d v k (hsub _ hi) hv fun hk => hd (hk.resolve_left (not_not.2 hi))

theorem ruleFecenc_effect {i : Instr} {bd bs : BBuf} {s t : State.Of α} (h : ruleFecenc P bd bs s = .ok t)
    (hi : fieldOp (encode i) = 0x2E) : Effect P i s t := by
  obtain ⟨d, v, p, q, r, hv, rfl⟩ := ruleFecenc_codeWrite h
  exact .code d v p q r (by rw [hi]; decide) hv (.inl (by rw [hi]; decide)) (.inl (by rw [hi]; decide))

theorem ruleRun_effect {s t : State.Of α} (h : ruleRun P s = .ok t) : Effect P .run s t := by
  obtain ⟨hb, u, hu, ht, rfl⟩ := (ruleRun_eq_ok ..).1 h
  obtain ⟨hfit, rfl⟩ := (runPipeline_eq_ok _ _ hb).1 hu
  exact .run rfl hb hfit ht

/-- The rule of every command has one of the effects, under its own opcode. -/
theorem ruleIn_effect {i : Instr} {s t : State.Of α} (h : ruleIn P i s = .ok t) : Effect P i s t := by
  cases i with
  | nop => cases h; exact .unchanged
  | halt => cases h; exact .halt rfl
  | run => exact ruleRun_effect h
  | li xd imm => cases h; exact .register xd _ (by simp [encode, registerWriters])
  | lih xd imm => cases h; exact .register xd _ (by simp [encode, registerWriters])
  | csrr xd csr => exact (ruleCsrr_regWrite h).effect (by simp [encode, registerWriters])
  | csrw xs csr =>
    obtain ⟨r, -, -, rfl⟩ := ruleCsrw_eq_ok h
    exact .control r _ (by simp [encode])
  | bclr bd => exact setB_effect (v := []) h (by simp [encode, bitWriters])
  | blen xd bs => cases h; exact .register xd _ (by simp [encode, registerWriters])
  | bget xd bs xi nm1 => exact (ruleBget_regWrite h).effect (by simp [encode, registerWriters])
  | bpush bd xs nm1 => exact setB_effect h (by simp [encode, bitWriters])
  | bflip bd xi => exact ruleBflip_effect h (by simp [encode, bitWriters])
  | wlen xd ws => cases h; exact .register xd _ (by simp [encode, registerWriters])
  | bcmp xd bs bt => cases h; exact .register xd _ (by simp [encode, registerWriters])
  | nrzenc bd bs =>
    obtain ⟨hv, rfl⟩ := (ruleNrzenc_eq_ok ..).1 h
    exact .code bd _ _ s.padlen s.repeatFactor (by simp [encode, encoders]) hv (.inr rfl) (.inr rfl)
  | nrzdec bd bs => exact setB_effect h (by simp [encode, bitWriters])
  | manenc bd bs =>
    obtain ⟨hv, rfl⟩ := (ruleManenc_eq_ok ..).1 h
    exact .code bd _ _ s.padlen s.repeatFactor (by simp [encode, encoders]) hv (.inr rfl) (.inr rfl)
  | mandec bd bs => exact setB_effect h (by simp [encode, bitWriters])
  | repenc bd bs =>
    obtain ⟨hv, rfl⟩ := (ruleRepenc_eq_ok ..).1 h
    exact .code bd _ _ s.padlen 3 (by simp [encode, encoders]) hv (.inr rfl) (.inl (by simp [encode]))
  | repdec bd bs => exact (ruleRepdec_bitsWrite h).effect (by simp [encode, bitWriters])
  | fecenc bd bs => exact ruleFecenc_effect h (by simp [encode])
  | fecdec bd bs => exact (ruleFecdec_bitsWrite h).effect (by simp [encode, bitWriters])
  | henc4 xd xs => cases h; exact .register xd _ (by simp [encode, registerWriters])
  | hsyn7 xd xs => cases h; exact .register xd _ (by simp [encode, registerWriters])
  | hcor7 xd xs => cases h; exact .register xd _ (by simp [encode, registerWriters])
  | hdec7 xd xs => cases h; exact .register xd _ (by simp [encode, registerWriters])
  | hamenc bd bs =>
    obtain ⟨hv, rfl⟩ := (ruleHamenc_eq_ok ..).1 h
    exact .code bd _ _ _ s.repeatFactor (by simp [encode, encoders]) hv (.inl (by simp [encode])) (.inr rfl)
  | hamdec bd bs => exact setB_effect h (by simp [encode, bitWriters])
  | dseed xd bs => exact (ruleDseed_regWrite h).effect (by simp [encode, registerWriters])
  | prngen wd xs => exact (genChips_samplesWrite h).effect (by simp [encode, sampleWriters])
  | spread wd bs wp => exact (ruleSpread_samplesWrite h).effect (by simp [encode, sampleWriters])
  | ovsamp wd ws => exact (ruleOvsamp_samplesWrite h).effect (by simp [encode, sampleWriters])
  | chmean wd ws xw => exact (ruleChmean_samplesWrite h).effect (by simp [encode, sampleWriters])
  | desprd wd ws wp => exact (ruleDesprd_samplesWrite h).effect (by simp [encode, sampleWriters])
  | slice bd ws => exact setB_effect h (by simp [encode, bitWriters])
  | modul wd ws => exact (mixCarrier_samplesWrite h).effect (by simp [encode, sampleWriters])
  | demod wd ws => exact (mixCarrier_samplesWrite h).effect (by simp [encode, sampleWriters])
  | noisew wd ws => exact (ruleNoisew_waveWrite h).effect (ruleNoisew_draws · h) (by simp [encode, noiseWriters])
  | noiseb wd ws => exact (ruleNoiseb_waveWrite h).effect (ruleNoiseb_draws · h) (by simp [encode, noiseWriters])
  | addnoise wd ws => exact (ruleAddnoise_waveWrite h).effect (ruleAddnoise_draws · h) (by simp [encode, noiseWriters])

end Sys2Proof.Machine
end

section
/-! SUPPORT. What an effect leaves as it was, element by element (10_state.md R21 to R44), and the frame of every command. -/

namespace Sys2Proof.Machine

variable {α : Type} {P : Params α} {i : Instr} {s u : State.Of α}

/-! ### What an effect leaves unchanged -/

/-- No command writes a real control register or the stream (10_state.md R25, R32). -/
theorem Effect.real_stream (h : Effect P i s u) :
    u.chiprate = s.chiprate ∧ u.fc = s.fc ∧ u.npow = s.npow ∧ u.nbw = s.nbw ∧ u.stream = s.stream := by
  cases h with
  | control r v => exact ⟨writeCsr_chiprate .., writeCsr_fc .., writeCsr_npow .., writeCsr_nbw .., writeCsr_stream ..⟩
  | _ => exact ⟨rfl, rfl, rfl, rfl, rfl⟩

/-- No rule writes the fault record (60_exceptions.md R310). -/
theorem Effect.record (h : Effect P i s u) : u.cause = s.cause ∧ u.fpc = s.fpc ∧ u.finfo = s.finfo := by
  cases h with
  | control r v => exact ⟨writeCsr_cause .., writeCsr_fpc .., writeCsr_finfo ..⟩
  | _ => exact ⟨rfl, rfl, rfl⟩

/-- Only `HALT` changes the mode and `DONE` (10_state.md R24, R31). -/
theorem Effect.mode_done (h : Effect P i s u) :
    (i = .halt ∧ u.mode = .idle ∧ u.done = true) ∨ (u.mode = s.mode ∧ u.done = s.done) := by
  cases h with
  | halt hi => exact .inl ⟨hi, rfl, rfl⟩
  | control r v => exact .inr ⟨writeCsr_mode .., writeCsr_done ..⟩
  | _ => exact .inr ⟨rfl, rfl⟩

/-- Only `RUN` writes the taps and what goes with them (10_state.md R31, R36, R44). -/
theorem Effect.taps (h : Effect P i s u) :
    (i = .run ∧ readB 0 s ≠ [] ∧ RunFits P s ∧ u = runResult P s) ∨
      (u.t = s.t ∧ u.tapv = s.tapv ∧ u.mismatch = s.mismatch ∧ u.runid = s.runid) := by
  cases h with
  | run hi hb hfit => exact .inl ⟨hi, hb, hfit, rfl⟩
  | control r v => exact .inr ⟨writeCsr_t .., writeCsr_tapv .., writeCsr_mismatch .., writeCsr_runid ..⟩
  | _ => exact .inr ⟨rfl, rfl, rfl, rfl⟩

theorem Effect.x (h : Effect P i s u) (hi : fieldOp (encode i) ∉ registerWriters) : u.x = s.x := by
  cases h with
  | register r v h => exact absurd h hi
  | control r v => exact writeCsr_x ..
  | _ => rfl

theorem Effect.b (h : Effect P i s u) (hi : fieldOp (encode i) ∉ bitWriters) : u.b = s.b := by
  have hsub : ∀ op ∈ encoders, op ∈ bitWriters := by decide
  cases h with
  | bits d v h => exact absurd h hi
  | code d v p q r h => exact absurd (hsub _ h) hi
  | run h => subst h; exact absurd (by decide) hi
  | control r v => exact writeCsr_b ..
  | _ => rfl

theorem Effect.w (h : Effect P i s u) (hi : fieldOp (encode i) ∉ sampleWriters) : u.w = s.w := by
  cases h with
  | samples d v k h => exact absurd h hi
  | run h => subst h; exact absurd (by decide) hi
  | control r v => exact writeCsr_w ..
  | _ => rfl

theorem Effect.payload (h : Effect P i s u) (hi : fieldOp (encode i) ∉ [0x20, 0x22, 0x24, 0x34, 0x2E, 0x03, 0x13]) :
    u.payload = s.payload := by
  have hsub : ∀ op ∈ encoders, op ∈ [0x20, 0x22, 0x24, 0x34, 0x2E, 0x03, 0x13] := by decide
  cases h with
  | code d v p q r h => exact absurd (hsub _ h) hi
  | run h => subst h; exact absurd (by decide) hi
  | control r v h => exact absurd (by rw [h]; decide) hi
  | _ => rfl

theorem Effect.padlen (h : Effect P i s u) (hi : fieldOp (encode i) ∉ [0x34, 0x2E, 0x03, 0x13]) : u.padlen = s.padlen := by
  have hsub : ∀ op ∈ [0x34, 0x2E], op ∈ ([0x34, 0x2E, 0x03, 0x13] : List (BitVec 8)) := by decide
  cases h with
  | code d v p q r _ _ hq => exact hq.resolve_left fun h => hi (hsub _ h)
  | run h => subst h; exact absurd (by decide) hi
  | control r v h => exact absurd (by rw [h]; decide) hi
  | _ => rfl

theorem Effect.repeatFactor (h : Effect P i s u) (hi : fieldOp (encode i) ∉ [0x24, 0x2E, 0x03, 0x13]) :
    u.repeatFactor = s.repeatFactor := by
  have hsub : ∀ op ∈ [0x24, 0x2E], op ∈ ([0x24, 0x2E, 0x03, 0x13] : List (BitVec 8)) := by decide
  cases h with
  | code d v p q r _ _ _ hr => exact hr.resolve_left fun h => hi (hsub _ h)
  | run h => subst h; exact absurd (by decide) hi
  | control r v h => exact absurd (by rw [h]; decide) hi
  | _ => rfl

/-- Only `CSRW` writes a control register that is no metadata (10_state.md R30). -/
theorem Effect.settings (h : Effect P i s u) (hi : fieldOp (encode i) ≠ 0x13) :
    u.scheme = s.scheme ∧ u.cpb = s.cpb ∧ u.ovs = s.ovs ∧ u.nmode = s.nmode ∧ u.seedtx = s.seedtx ∧
      u.seedrx = s.seedrx ∧ u.nseeden = s.nseeden ∧ u.nseed = s.nseed := by
  cases h with
  | control r v h => exact absurd h hi
  | _ => exact ⟨rfl, rfl, rfl, rfl, rfl, rfl, rfl, rfl⟩

/-- Draws are taken by the noise commands and `RUN`, where they are on (10_state.md R47). -/
theorem Effect.draws (h : Effect P i s u)
    (hi : fieldOp (encode i) ∉ [0x70, 0x71, 0x72, 0x03] ∨ s.nseeden = true ∨ P.num.gt0 s.npow = false) :
    u.draws = s.draws := by
  have hsub : ∀ op ∈ noiseWriters, op ∈ [0x70, 0x71, 0x72, 0x03] := by decide
  cases h with
  | samples d v k _ _ hk => exact hk (hi.imp_left fun hi h => hi (hsub _ h))
  | run h =>
    subst h
    exact drawsAfter_of_off _ (hi.resolve_left fun hi => hi (by decide))
  | control r v => exact writeCsr_draws ..
  | _ => rfl

/-! ### Every command -/

/-- A command's next state: an effect of its rule with `pc` advanced, or a fault taken (30_encoding.md R93). -/
theorem execIn_next {t : State.Of α} (h : execIn P i s = .next t) :
    (∃ u, Effect P i s u ∧ t = { u with pc := s.pc + 1 }) ∨ ∃ e, t = takeFault e s := by
  obtain ⟨u, hu, rfl⟩ | ⟨e, -, rfl⟩ := (finish_eq_next ..).1 h
  · exact .inl ⟨u, ruleIn_effect hu, rfl⟩
  · exact .inr ⟨e, rfl⟩

/-- Settles O13: the frame of each effect, element by element; a fault writes the fault record, `CAUSE` to the mode, only. -/
theorem onlyNamedCommandsWrite : Obligations.OnlyNamedCommandsWrite := by
  intro i s t h
  rw [exec_eq_execIn] at h
  obtain ⟨u, hu, rfl⟩ | ⟨e, rfl⟩ := execIn_next h
  · obtain ⟨hrate, hfc, hpow, hbw, hstream⟩ := hu.real_stream
    have hrun (hi : fieldOp (encode i) ≠ 0x03) : i ≠ .run := by rintro rfl; exact hi (by decide)
    have hhalt (hi : fieldOp (encode i) ≠ 0x02) : i ≠ .halt := by rintro rfl; exact hi (by decide)
    exact ⟨hrate, hfc, hpow, hbw, hstream, fun hi => hu.taps.resolve_left fun h => hrun hi h.1,
      fun hi => (hu.mode_done.resolve_left fun h => hhalt hi h.1).2,
      hu.x, hu.b, hu.w, hu.payload, hu.padlen, hu.repeatFactor, hu.settings, hu.draws⟩
  · simp

end Sys2Proof.Machine
end

section
/-! SUPPORT. The invariant of Safety.lean: it holds at reset, a fault keeps it, and so does every effect of a rule. -/

namespace Sys2Proof.Machine

variable {α : Type} {P : Params α}

/-- The invariant holds at reset in every instance (10_state.md R48). -/
theorem InvIn.reset : InvIn P (State.resetOf P.num) where
  buffers := Memory.wf_reset
  streamShort := by simp [State.resetOf]
  pcInStream := by simp [State.resetOf]
  pcAtFault := nofun
  doneIsIdle := nofun
  causeOfFault := by simp [State.resetOf]
  causeCode := by simp [State.resetOf]
  faultIndex := nofun
  fpcIndex := by simp [State.resetOf]
  beforeFirstRun _ := ⟨rfl, rfl, fun i => by simp [State.resetOf]⟩
  tapRates i := by simp [State.resetOf]
  tapLengths i _ := by simp [State.resetOf]

/-- Settles O10: the core instance is one of them. -/
theorem invHoldsAtReset : Obligations.InvHoldsAtReset := InvIn.reset (P := machine)

/-! ### The next state of a step -/

theorem fetch_eq_ok (s : State.Of α) (w : CmdWord) : fetch s = .ok w ↔ s.mode = .exec ∧ s.stream[s.pc.toNat]? = some w := by
  unfold fetch
  cases s.mode with
  | idle => simp
  | fault => simp
  | exec => cases s.stream[s.pc.toNat]? <;> simp

/-- Fetching in `EXEC` before the end of the stream and nowhere else (10_state.md R24). -/
theorem exists_fetch_iff (s : State.Of α) : (∃ w, fetch s = .ok w) ↔ s.mode = .exec ∧ s.pc.toNat < s.stream.length := by
  simp [fetch_eq_ok, ← Option.isSome_iff_exists]

/-- The next states of a step: the word at `pc` decodes and its rule's effect is committed, or a fault is taken, which
never happens at a `HALT` (30_encoding.md R93). -/
theorem stepIn_next {s t : State.Of α} (h : stepIn P s = .next t) : ∃ w, fetch s = .ok w ∧
    ((∃ i u, decode w = .ok i ∧ ruleIn P i s = .ok u ∧ t = { u with pc := s.pc + 1 }) ∨
      (decode w ≠ .ok .halt ∧ ∃ e, t = takeFault e s)) := by
  unfold stepIn at h
  cases hw : fetch s with
  | error f => rw [hw] at h; cases h
  | ok w =>
    rw [hw] at h
    refine ⟨w, rfl, ?_⟩
    dsimp only at h
    cases hd : decode w with
    | error e =>
      rw [hd] at h
      obtain ⟨_, h, -⟩ | ⟨e, -, rfl⟩ := (finish_eq_next ..).1 h
      · cases h
      · exact .inr ⟨nofun, e, rfl⟩
    | ok i =>
      rw [hd] at h
      obtain ⟨u, hu, rfl⟩ | ⟨e, he, rfl⟩ := (finish_eq_next ..).1 h
      · exact .inl ⟨i, u, rfl, hu, rfl⟩
      · refine .inr ⟨?_, e, rfl⟩
        rintro ⟨⟩
        cases he

/-- Where a word is fetched there is a next state. -/
theorem exists_stepIn_next_iff (s : State.Of α) : (∃ t, stepIn P s = .next t) ↔ ∃ w, fetch s = .ok w := by
  constructor
  · rintro ⟨t, h⟩
    obtain ⟨w, hw, -⟩ := stepIn_next h
    exact ⟨w, hw⟩
  · rintro ⟨w, hw⟩
    simp only [stepIn, hw]
    cases decode w with
    | error e => exact finish_next ..
    | ok i => exact finish_next ..

/-! ### The taps of a completed `RUN` (47_system_run.md R257) -/

/-- The taps have one sample rate. -/
theorem tapsOf_rate (s : State.Of α) (j : Fin 6) : (tapsOf P s)[j].rate = (readW 3 s).rate := by
  match j with
  | 0 => rfl
  | 1 => rfl
  | 2 => rfl
  | 3 => rfl
  | 4 => rfl
  | 5 => rfl

/-- The hard decisions are one for each code bit. -/
theorem runHard_length {s : State.Of α} (hb : readB 0 s ≠ []) (hfit : RunFits P s) :
    (runHard P s).length = codeLength s.scheme.toNat (readB 0 s).length := by
  rw [runHard, sliceBits_length, runMetrics_length s hb hfit.ovs hfit.cpb]

/-- The hard decisions are in `B2`. -/
theorem readB_two_runScratch (s : State.Of α) : readB 2 (runScratch P s) = runHard P s := by
  simp [readB, runScratch]

/-- Each of the five taps after the source shows every sample of the baseband, or a value held for each code bit. -/
theorem tapsOf_runScratch_length {s : State.Of α} (hb : readB 0 s ≠ []) (hfit : RunFits P s) (j : Fin 6) (hj : j ≠ 0) :
    (tapsOf P (runScratch P s))[j].data.length = (runBase P s).length := by
  have hheld : codeLength s.scheme.toNat (readB 0 s).length * (s.cpb.toNat * s.ovs.toNat) = (runBase P s).length := by
    rw [runBase_length s hb, Nat.mul_assoc]
  match j with
  | 1 => rfl
  | 2 => exact runModulated_length s
  | 3 => exact runChannel_length s
  | 4 => exact (hold_length ..).trans (by rw [← hheld, ← runMetrics_length s hb hfit.ovs hfit.cpb]; rfl)
  | 5 => exact (hold_length ..).trans (by rw [List.length_map, readB_two_runScratch, runHard_length hb hfit, ← hheld]; rfl)

/-- What the invariant says of the taps. -/
structure TapsInv (P : Params α) (s : State.Of α) : Prop where
  first : s.tapv = false → s.mismatch = false ∧ s.runid = 0 ∧ ∀ j : Fin 6, s.t[j] = Wave.empty P.num
  rates : ∀ j : Fin 6, s.t[j].rate = s.t[0].rate
  lengths : ∀ j : Fin 6, j ≠ 0 → s.t[j].data.length = s.t[1].data.length

theorem InvIn.taps {s : State.Of α} (h : InvIn P s) : TapsInv P s := ⟨h.beforeFirstRun, h.tapRates, h.tapLengths⟩

theorem TapsInv.congr {s u : State.Of α} (h : TapsInv P s) (ht : u.t = s.t) (hv : u.tapv = s.tapv)
    (hmis : u.mismatch = s.mismatch) (hid : u.runid = s.runid) : TapsInv P u where
  first := by rw [ht, hv, hmis, hid]; exact h.first
  rates := by rw [ht]; exact h.rates
  lengths := by rw [ht]; exact h.lengths

/-- A completed `RUN` leaves taps as the invariant has them. -/
theorem tapsInv_runResult {s : State.Of α} (hb : readB 0 s ≠ []) (hfit : RunFits P s) : TapsInv P (runResult P s) where
  first := nofun
  rates := tapsOf_rate (runScratch P s)
  lengths := tapsOf_runScratch_length hb hfit

/-! ### What keeps the invariant -/

/-- In `EXEC` no `HALT` has executed yet (10_state.md R31). -/
theorem InvIn.done_of_exec {s : State.Of α} (h : InvIn P s) (hx : s.mode = .exec) : s.done = false := by
  by_contra hd
  simpa [hx] using h.doneIsIdle (by simpa using hd)

/-- A fault taken in `EXEC` before the end of the stream keeps the invariant (60_exceptions.md R310). -/
theorem InvIn.takeFault {s : State.Of α} (h : InvIn P s) (hx : s.mode = .exec) (hpc : s.pc.toNat < s.stream.length)
    (e : Raise) : InvIn P (takeFault e s) where
  buffers := h.buffers
  streamShort := h.streamShort
  pcInStream := h.pcInStream
  pcAtFault _ := hpc
  doneIsIdle hd := absurd hd (by simp [h.done_of_exec hx])
  causeOfFault := by simpa using e.cause.code_range.1
  causeCode := e.cause.code_range.2
  faultIndex _ := rfl
  fpcIndex := by simpa using Nat.lt_of_le_of_lt (Nat.mod_le ..) s.pc.isLt
  beforeFirstRun := h.beforeFirstRun
  tapRates := h.tapRates
  tapLengths := h.tapLengths

/-- `pc` advanced within a short stream does not wrap (10_state.md R23). -/
theorem InvIn.pc_advance {s : State.Of α} (h : InvIn P s) (hpc : s.pc.toNat < s.stream.length) :
    (s.pc + 1).toNat ≤ s.stream.length := by
  have := h.streamShort
  bv_omega

/-- A state that keeps the stream and the fault record and does not fault keeps the invariant, where its buffers, `DONE`
and taps do. -/
theorem InvIn.commit {s u : State.Of α} (h : InvIn P s) (hx : s.mode = .exec) (hpc : s.pc.toNat < s.stream.length)
    (hstream : u.stream = s.stream) (hcause : u.cause = s.cause) (hfpc : u.fpc = s.fpc) (hmode : u.mode ≠ .fault)
    (hdone : u.done = true → u.mode = .idle) (hbuf : Memory.wf P u = true) (htaps : TapsInv P u) :
    InvIn P { u with pc := s.pc + 1 } where
  buffers := hbuf
  streamShort := hstream ▸ h.streamShort
  pcInStream := hstream ▸ h.pc_advance hpc
  pcAtFault hf := absurd hf hmode
  doneIsIdle := hdone
  causeOfFault := by
    have hc : s.cause = 0 := by_contra fun hc => by simpa [hx] using h.causeOfFault.2 hc
    simp [hmode, hcause, hc]
  causeCode := hcause ▸ h.causeCode
  faultIndex hf := absurd hf hmode
  fpcIndex := hfpc ▸ h.fpcIndex
  beforeFirstRun := htaps.first
  tapRates := htaps.rates
  tapLengths := htaps.lengths

/-- Every effect keeps the form of the buffers (10_state.md R40, R42, R44). -/
theorem Effect.wf {i : Instr} {s u : State.Of α} (h : Effect P i s u) (hm : Memory.wf P s = true) : Memory.wf P u = true := by
  cases h with
  | bits d v _ hv => exact hv hm
  | code d v p q r _ hv => exact Memory.wf_setB s d v hm hv
  | samples d v k _ hv => exact Memory.wf_setW s d v hm hv
  | control r v => rwa [Memory.wf_congr _ _ (writeCsr_b ..) (writeCsr_w ..) (writeCsr_t ..)]
  | run _ hb hfit ht =>
    obtain ⟨_, _, _, _, _, _, -, hscratch, -⟩ :=
      runPipeline_pipelineWrite ((runPipeline_eq_ok s (runScratch P s) hb).2 ⟨hfit, rfl⟩)
    obtain ⟨hbits, hwaves, -⟩ := (Memory.wf_iff _).1 (hscratch hm)
    exact (Memory.wf_iff _).2 ⟨hbits, hwaves, ht⟩
  | _ => exact hm

/-- Every effect keeps what the invariant says of the taps: `RUN` writes them anew, no other command writes them. -/
theorem Effect.tapsInv {i : Instr} {s u : State.Of α} (h : Effect P i s u) (ht : TapsInv P s) : TapsInv P u := by
  obtain ⟨-, hb, hfit, rfl⟩ | ⟨htaps, hv, hmis, hid⟩ := h.taps
  · exact tapsInv_runResult hb hfit
  · exact ht.congr htaps hv hmis hid

/-- Every effect in `EXEC`, committed, keeps the invariant. -/
theorem Effect.keepsInv {i : Instr} {s u : State.Of α} (hu : Effect P i s u) (h : InvIn P s) (hx : s.mode = .exec)
    (hpc : s.pc.toNat < s.stream.length) : InvIn P { u with pc := s.pc + 1 } := by
  obtain ⟨-, -, -, -, hstream⟩ := hu.real_stream
  obtain ⟨hcause, hfpc, -⟩ := hu.record
  have hmode : u.mode ≠ .fault ∧ (u.done = true → u.mode = .idle) := by
    obtain ⟨-, hidle, -⟩ | ⟨hmode, hdone⟩ := hu.mode_done
    · simp [hidle]
    · simp [hmode, hdone, hx, h.done_of_exec hx]
  exact h.commit hx hpc hstream hcause hfpc hmode.1 hmode.2 (hu.wf h.buffers) (hu.tapsInv h.taps)

/-- A step keeps the invariant, in every instance: a fault does, and so does the effect of every rule. -/
theorem stepIn_keepsInv {s t : State.Of α} (h : InvIn P s) (hstep : stepIn P s = .next t) : InvIn P t := by
  obtain ⟨w, hw, hnext⟩ := stepIn_next hstep
  obtain ⟨hx, hpc⟩ := (exists_fetch_iff s).1 ⟨w, hw⟩
  obtain ⟨i, u, -, hu, rfl⟩ | ⟨-, e, rfl⟩ := hnext
  · exact (ruleIn_effect hu).keepsInv h hx hpc
  · exact h.takeFault hx hpc e

/-- Settles O11: the core instance's step is the step over any instance, and that keeps the invariant. -/
theorem stepKeepsInv : Obligations.StepKeepsInv :=
  ⟨fun s _ h hstep => stepIn_keepsInv h (step_eq_stepIn s ▸ hstep), fun _ _ _ _ => stepIn_keepsInv⟩

end Sys2Proof.Machine
end

section
/-! SUPPORT. The run state of the sequencer (10_state.md R24) and the register that shows it (R31): which words and which
host operations change the mode. -/

namespace Sys2Proof.Machine

variable {α : Type} {P : Params α}

/-! ### The step -/

/-- The one word of `HALT` (30_encoding.md R99). -/
theorem decode_eq_halt_iff (w : CmdWord) : decode w = .ok .halt ↔ w = 0x02000000 := by
  constructor
  · intro h
    have hop : fieldOp w = 0x02 := by
      unfold decode at h
      split at h
      case h_2 heq => exact BitVec.eq_of_toNat_eq heq
      all_goals
        simp [decodeNone_eq_ok, decodeA_eq_ok, decodeAB_eq_ok, decodeAC_eq_ok, decodeABC_eq_ok, decodeImm_eq_ok,
          decodeCsrRead_eq_ok, decodeCsrWrite_eq_ok, decodeGet_eq_ok, decodePush_eq_ok] at h
    have hnone : decodeNone .halt w = .ok .halt := by
      unfold decode at h
      rwa [hop] at h
    obtain ⟨ha, hb, hc, hk, -⟩ := (decodeNone_eq_ok ..).1 hnone
    rw [← packFields_fields w, hop, ha, hb, hc, hk]
    decide
  · rintro rfl
    decide

/-- A step from `EXEC`: where it ends, by the word fetched (10_state.md R24). -/
theorem stepIn_mode {s t : State.Of α} (h : stepIn P s = .next t) :
    (t.mode = .idle ↔ s.stream[s.pc.toNat]? = some 0x02000000) ∧ (t.mode = .idle → t.done = true) ∧
      (t.mode = .fault → t.pc = s.pc ∧ t.cause ≠ 0) ∧ (t.mode ≠ .fault → t.pc = s.pc + 1) := by
  obtain ⟨w, hw, hnext⟩ := stepIn_next h
  obtain ⟨hx, hword⟩ := (fetch_eq_ok ..).1 hw
  rw [hword, Option.some.injEq, ← decode_eq_halt_iff]
  obtain ⟨i, u, hi, hu, rfl⟩ | ⟨hi, e, rfl⟩ := hnext
  · by_cases hhalt : i = .halt
    · subst hhalt
      cases hu
      simp [hi]
    · obtain ⟨rfl, -⟩ | ⟨hmode, -⟩ := (ruleIn_effect hu).mode_done
      · exact absurd rfl hhalt
      · simp [hi, hhalt, hmode, hx]
  · simpa [hi] using e.cause.code_range.1

/-! ### The host port (20_memory.md R75) -/

@[simp] theorem writeReal_mode (r : RealCsr) (v : α) (s : State.Of α) : (writeReal r v s).mode = s.mode := by
  cases r <;> rfl

/-- An operation allowed where the sequencer has stopped answers as it does there. -/
theorem whenStopped_eq_answer {s t : State.Of α} {r : HostResult.Of α} {a : HostAnswer.Of α}
    (h : whenStopped s r = .answer a t) : r = .answer a t := by
  unfold whenStopped at h
  split at h
  · cases h
  · exact h

/-- A rule's writes as a host operation are made, or nothing changes. -/
theorem hostWrite_eq_answer {s t : State.Of α} {r : Rule (State.Of α)} {a : HostAnswer.Of α}
    (h : hostWrite s r = .answer a t) : r = .ok t ∨ t = s := by
  cases r with
  | ok s' => cases h; exact .inl rfl
  | error e => cases h; exact .inr rfl

/-- Reading a control register changes nothing (R71). -/
theorem hostReadCsr_eq_answer {n : BitVec 12} {s t : State.Of α} {a : HostAnswer.Of α}
    (h : hostReadCsr n s = .answer a t) : t = s := by
  unfold hostReadCsr at h
  split at h
  · cases h; rfl
  · cases h; rfl
  · cases h

/-- Reading a tap changes nothing (R77). -/
theorem hostReadT_eq_answer {id : Word} {j : Nat} {s t : State.Of α} {a : HostAnswer.Of α}
    (h : hostReadT id j s = .answer a t) : t = s := by
  unfold hostReadT at h
  split at h
  · split at h <;> cases h <;> rfl
  · cases h; rfl

/-- Writing a control register is the write of one register of its kind, or nothing changes (R75). -/
theorem hostWriteCsr_eq_answer {n : BitVec 12} {v : CsrValue.Of α} {s t : State.Of α} {a : HostAnswer.Of α}
    (h : hostWriteCsr n v s = .answer a t) :
    (∃ r u, t = writeCsr r u s) ∨ (∃ r u, t = writeReal r u s) ∨ t = s := by
  unfold hostWriteCsr at h
  split at h
  · split at h
    · split at h
      · cases h; exact .inl ⟨_, _, rfl⟩
      · cases h; exact .inr (.inr rfl)
    · cases h; exact .inr (.inr rfl)
  · split at h
    · cases h; exact .inr (.inl ⟨_, _, rfl⟩)
    · cases h; exact .inr (.inr rfl)

/-- `HostStart` (R75). -/
theorem hostStart_eq_answer {stream : List CmdWord} {s t : State.Of α} {a : HostAnswer.Of α}
    (h : hostStart stream s = .answer a t) :
    s.mode = .idle ∧ stream.length < 2 ^ 32 ∧ t = { s with stream := stream, pc := 0, done := false, mode := .exec } := by
  unfold hostStart at h
  split at h
  · rename_i hc; cases h; exact ⟨hc.1, hc.2, rfl⟩
  · cases h

/-- `HostFclr` (R75, 60_exceptions.md R313). -/
theorem hostFclr_eq_answer {s t : State.Of α} {a : HostAnswer.Of α} (h : hostFclr s = .answer a t) :
    s.mode = .fault ∧ t = clearFault s := by
  unfold hostFclr at h
  split at h
  · rename_i hf; cases h; exact ⟨hf, rfl⟩
  · cases h

/-- A host operation changes the mode only where it is reset, a start from `IDLE` or the clearing of a fault. -/
theorem hostStepIn_mode {op : HostOp.Of α} {s t : State.Of α} {a : HostAnswer.Of α} (h : hostStepIn P op s = .answer a t) :
    t.mode = s.mode ∨ (op = .reset ∧ t.mode = .idle) ∨
      ((∃ stream, op = .start stream) ∧ s.mode = .idle ∧ t.mode = .exec ∧ t.pc = 0 ∧ t.done = false) ∨
      (op = .fclr ∧ s.mode = .fault ∧ t.mode = .idle) := by
  cases op with
  | reset => cases h; exact .inr (.inl ⟨rfl, rfl⟩)
  | start stream =>
    obtain ⟨hidle, -, rfl⟩ := hostStart_eq_answer h
    exact .inr (.inr (.inl ⟨⟨stream, rfl⟩, hidle, rfl, rfl, rfl⟩))
  | fclr =>
    obtain ⟨hf, rfl⟩ := hostFclr_eq_answer h
    exact .inr (.inr (.inr ⟨rfl, hf, rfl⟩))
  | readX r => cases whenStopped_eq_answer h; exact .inl rfl
  | writeX r v => cases whenStopped_eq_answer h; exact .inl rfl
  | readCsr n => cases hostReadCsr_eq_answer (whenStopped_eq_answer h); exact .inl rfl
  | writeCsr n v =>
    obtain ⟨r, u, rfl⟩ | ⟨r, u, rfl⟩ | rfl := hostWriteCsr_eq_answer (whenStopped_eq_answer h)
    · exact .inl (writeCsr_mode ..)
    · exact .inl (writeReal_mode ..)
    · exact .inl rfl
  | readB d => cases whenStopped_eq_answer h; exact .inl rfl
  | writeB d v =>
    obtain hset | rfl := hostWrite_eq_answer (whenStopped_eq_answer h)
    · obtain ⟨-, rfl⟩ := (setB_eq_ok ..).1 hset
      exact .inl rfl
    · exact .inl rfl
  | readW d => cases whenStopped_eq_answer h; exact .inl rfl
  | writeW d v rate =>
    obtain hset | rfl := hostWrite_eq_answer (whenStopped_eq_answer h)
    · obtain ⟨-, rfl⟩ := (setW_eq_ok ..).1 hset
      exact .inl rfl
    · exact .inl rfl
  | readT id j => cases hostReadT_eq_answer (whenStopped_eq_answer h); exact .inl rfl

/-- Settles O9: the fetch says where there is a step, the effect of the word's rule where it ends, and the host's
operations the rest. -/
theorem modeChangesAreExactlyThese : Obligations.ModeChangesAreExactlyThese := by
  refine ⟨fun s => ?_, fun s t h => ?_, fun op s t a h hne => ?_⟩
  · rw [step_eq_stepIn, exists_stepIn_next_iff, exists_fetch_iff]
  · exact stepIn_mode (step_eq_stepIn s ▸ h)
  · exact (hostStepIn_mode h).resolve_left hne

/-! ### `STATUS` -/

/-- A bit of a number written as five bits is the one there. -/
theorem ofNat_fiveBits_getLsbD (b0 b1 b2 b3 b4 : Bool) (j : Nat) :
    (BitVec.ofNat 64 (b0.toNat + 2 * b1.toNat + 4 * b2.toNat + 8 * b3.toNat + 16 * b4.toNat)).getLsbD j
      = [b0, b1, b2, b3, b4].getD j false := by
  obtain hj | hj := Nat.lt_or_ge j 5
  · revert b0 b1 b2 b3 b4
    interval_cases j <;> decide
  · have hsum : b0.toNat + 2 * b1.toNat + 4 * b2.toNat + 8 * b3.toNat + 16 * b4.toNat < 2 ^ 5 := by
      have h0 := b0.toNat_lt
      have h1 := b1.toNat_lt
      have h2 := b2.toNat_lt
      have h3 := b3.toNat_lt
      have h4 := b4.toNat_lt
      omega
    rw [BitVec.getLsbD_ofNat, Nat.testBit_lt_two_pow (hsum.trans_le (Nat.pow_le_pow_right (by decide) hj)), Bool.and_false,
      List.getD_eq_default _ _ hj]

/-- Settles O19: the five flags are the five low bits. -/
theorem statusBits : Obligations.StatusBits := by
  intro s
  simp only [statusWord, ofNat_fiveBits_getLsbD]
  refine ⟨rfl, by simp [faultFlag], rfl, rfl, by simp [execFlag], fun j hj => ?_⟩
  exact List.getD_eq_default _ _ hj

end Sys2Proof.Machine
end

section
/-! SUPPORT. The host port keeps the invariant of Safety.lean (20_memory.md R75): what each of its writes does to it. -/

namespace Sys2Proof.Machine

variable {α : Type} {P : Params α}

/-- `HostReset` leaves the reset state but for the draws, of which the invariant says nothing (70_reset_and_hazards.md R342). -/
theorem InvIn.hostReset (s : State.Of α) : InvIn P (hostReset P.num s) :=
  { (InvIn.reset : InvIn P (State.resetOf P.num)) with }

/-- `HostStart` begins a short stream at its first word, with no fault pending. -/
theorem InvIn.start {s : State.Of α} (h : InvIn P s) (hidle : s.mode = .idle) {stream : List CmdWord}
    (hshort : stream.length < 2 ^ 32) :
    InvIn P { s with stream := stream, pc := 0, done := false, mode := .exec } where
  buffers := h.buffers
  streamShort := hshort
  pcInStream := Nat.zero_le _
  pcAtFault := nofun
  doneIsIdle := nofun
  causeOfFault := by
    have hcause : s.cause = 0 := by_contra fun hc => by simpa [hidle] using h.causeOfFault.2 hc
    simp [hcause]
  causeCode := h.causeCode
  faultIndex := nofun
  fpcIndex := h.fpcIndex
  beforeFirstRun := h.beforeFirstRun
  tapRates := h.tapRates
  tapLengths := h.tapLengths

/-- `HostFclr` (60_exceptions.md R313) leaves no fault pending and no cause. -/
theorem InvIn.clearFault {s : State.Of α} (h : InvIn P s) : InvIn P (clearFault s) where
  buffers := h.buffers
  streamShort := h.streamShort
  pcInStream := h.pcInStream
  pcAtFault := nofun
  doneIsIdle _ := rfl
  causeOfFault := by simp
  causeCode := by simp
  faultIndex := nofun
  fpcIndex := h.fpcIndex
  beforeFirstRun := h.beforeFirstRun
  tapRates := h.tapRates
  tapLengths := h.tapLengths

/-! The invariant says nothing of the scalar registers and of the control registers that the host can write. -/

theorem InvIn.writeX {s : State.Of α} (h : InvIn P s) (r : XReg) (v : Word) : InvIn P (writeX r v s) := { h with }

theorem InvIn.writeCsr {s : State.Of α} (h : InvIn P s) (r : IntCsr) (v : Word) : InvIn P (writeCsr r v s) := by
  cases r <;> exact { h with }

theorem InvIn.writeReal {s : State.Of α} (h : InvIn P s) (r : RealCsr) (v : α) : InvIn P (writeReal r v s) := by
  cases r <;> exact { h with }

/-- A bit buffer is replaced by one that fits (20_memory.md R64). -/
theorem InvIn.setB {s t : State.Of α} (h : InvIn P s) {d : BBuf} {v : BitSeq} (hset : setB P d v s = .ok t) : InvIn P t := by
  obtain ⟨hfit, rfl⟩ := (setB_eq_ok ..).1 hset
  exact { h with buffers := Memory.wf_setB s d v h.buffers hfit }

/-- A sample buffer is replaced by one that fits (20_memory.md R64). -/
theorem InvIn.setW {s t : State.Of α} (h : InvIn P s) {d : WBuf} {v : List α} {r : α} (hset : setW P d v r s = .ok t) :
    InvIn P t := by
  obtain ⟨hfit, rfl⟩ := (setW_eq_ok ..).1 hset
  exact { h with buffers := Memory.wf_setW s d ⟨v, r⟩ h.buffers hfit }

/-- Every operation of the host port keeps the invariant, in every instance. -/
theorem hostStepIn_keepsInv {op : HostOp.Of α} {s t : State.Of α} {a : HostAnswer.Of α} (h : InvIn P s)
    (hop : hostStepIn P op s = .answer a t) : InvIn P t := by
  cases op with
  | reset => cases hop; exact .hostReset s
  | start stream =>
    obtain ⟨hidle, hshort, rfl⟩ := hostStart_eq_answer hop
    exact h.start hidle hshort
  | fclr =>
    obtain ⟨-, rfl⟩ := hostFclr_eq_answer hop
    exact h.clearFault
  | readX r => cases whenStopped_eq_answer hop; exact h
  | writeX r v => cases whenStopped_eq_answer hop; exact h.writeX r v
  | readCsr n => cases hostReadCsr_eq_answer (whenStopped_eq_answer hop); exact h
  | writeCsr n v =>
    obtain ⟨r, u, rfl⟩ | ⟨r, u, rfl⟩ | rfl := hostWriteCsr_eq_answer (whenStopped_eq_answer hop)
    · exact h.writeCsr r u
    · exact h.writeReal r u
    · exact h
  | readB d => cases whenStopped_eq_answer hop; exact h
  | writeB d v =>
    obtain hset | rfl := hostWrite_eq_answer (whenStopped_eq_answer hop)
    · exact h.setB hset
    · exact h
  | readW d => cases whenStopped_eq_answer hop; exact h
  | writeW d v rate =>
    obtain hset | rfl := hostWrite_eq_answer (whenStopped_eq_answer hop)
    · exact h.setW hset
    · exact h
  | readT id j => cases hostReadT_eq_answer (whenStopped_eq_answer hop); exact h

/-- Settles O12: the core instance is one of them. -/
theorem hostPortKeepsInv : Obligations.HostPortKeepsInv := fun _ _ _ _ => hostStepIn_keepsInv

end Sys2Proof.Machine
end

section
/-! SUPPORT. What each operation of the host port answers, where it does what its row of 20_memory.md R75 says and where it
is refused. -/

namespace Sys2Proof.Machine

variable {α : Type} {P : Params α}

/-! ### The modes (R76) -/

/-- While the sequencer executes, the host has reset alone. -/
theorem hostStepIn_of_exec {op : HostOp.Of α} {s : State.Of α} (hx : s.mode = .exec) (hop : op ≠ .reset) :
    hostStepIn P op s = .noMove := by
  have hstop (r : HostResult.Of α) : whenStopped s r = .noMove := if_pos hx
  cases op with
  | reset => exact absurd rfl hop
  | start stream => simp [hostStepIn, hostStart, hx]
  | fclr => simp [hostStepIn, hostFclr, hx]
  | _ => exact hstop _

/-- Where the sequencer has stopped, an operation answers what it answers. -/
theorem whenStopped_of_ne {s : State.Of α} (hx : s.mode ≠ .exec) (r : HostResult.Of α) : whenStopped s r = r := if_neg hx

theorem hostStart_of_idle {stream : List CmdWord} {s : State.Of α} (hidle : s.mode = .idle) (hshort : stream.length < 2 ^ 32) :
    hostStart stream s = .answer .done { s with stream := stream, pc := 0, done := false, mode := .exec } :=
  if_pos ⟨hidle, hshort⟩

theorem hostFclr_of_fault {s : State.Of α} (hf : s.mode = .fault) : hostFclr s = .answer .done (clearFault s) := if_pos hf

/-- A tap is read under the id of the latest completed run, where there is one, and under no other (R77). -/
theorem hostReadT_eq (id : Word) (j : Nat) (s : State.Of α) : hostReadT id j s =
    if h : s.tapv = true ∧ id = s.runid ∧ j < 6 then .answer (.wave (s.t[j]'h.2.2)) s else .answer .notFound s := by
  unfold hostReadT
  by_cases hj : j < 6
  · by_cases hid : s.tapv = true ∧ id = s.runid
    · rw [dif_pos hj, if_pos hid, dif_pos ⟨hid.1, hid.2, hj⟩]
    · rw [dif_pos hj, if_neg hid, dif_neg fun h => hid ⟨h.1, h.2.1⟩]
  · rw [dif_neg hj, dif_neg fun h => hj h.2.2]

/-! ### Registers and buffers read back (R75) -/

/-- A scalar register reads back. -/
theorem hostStepIn_writeX (r : XReg) (v : Word) {s : State.Of α} (hx : s.mode ≠ .exec) :
    hostStepIn P (.writeX r v) s = .answer .done (writeX r v s) ∧
      hostStepIn P (.readX r) (writeX r v s) = .answer (.word v) (writeX r v s) := by
  refine ⟨whenStopped_of_ne hx _, (whenStopped_of_ne (s := writeX r v s) hx _).trans ?_⟩
  rw [readX_writeX, if_pos rfl]

/-- A bit buffer that can hold the bits reads back. -/
theorem hostStepIn_writeB_of_le (d : BBuf) {v : BitSeq} {s : State.Of α} (hx : s.mode ≠ .exec) (hv : v.length ≤ bcapOf P) :
    hostStepIn P (.writeB d v) s = .answer .done { s with b := s.b.set d v } ∧
      hostStepIn P (.readB d) { s with b := s.b.set d v } = .answer (.bits v) { s with b := s.b.set d v } := by
  refine ⟨(whenStopped_of_ne hx _).trans (by rw [setB_of_le d v s hv]; rfl), ?_⟩
  simp [hostStepIn, whenStopped_of_ne, hx, readB]

theorem hostStepIn_writeB_of_lt (d : BBuf) {v : BitSeq} {s : State.Of α} (hx : s.mode ≠ .exec) (hv : bcapOf P < v.length) :
    hostStepIn P (.writeB d v) s = .answer .refused s :=
  (whenStopped_of_ne hx _).trans (by rw [setB_of_lt d v s hv]; rfl)

/-- A sample buffer that can hold the samples reads back, with its rate. -/
theorem hostStepIn_writeW_of_le (d : WBuf) {v : List α} (rate : α) {s : State.Of α} (hx : s.mode ≠ .exec)
    (hv : v.length ≤ P.wcap) :
    hostStepIn P (.writeW d v rate) s = .answer .done { s with w := s.w.set d ⟨v, rate⟩ } ∧
      hostStepIn P (.readW d) { s with w := s.w.set d ⟨v, rate⟩ }
        = .answer (.wave ⟨v, rate⟩) { s with w := s.w.set d ⟨v, rate⟩ } := by
  refine ⟨(whenStopped_of_ne hx _).trans (by rw [setW_of_le d v rate s hv]; rfl), ?_⟩
  simp [hostStepIn, whenStopped_of_ne, hx, readW]

theorem hostStepIn_writeW_of_lt (d : WBuf) {v : List α} (rate : α) {s : State.Of α} (hx : s.mode ≠ .exec)
    (hv : P.wcap < v.length) : hostStepIn P (.writeW d v rate) s = .answer .refused s :=
  (whenStopped_of_ne hx _).trans (by rw [(setW_eq_error d v rate s _).2 ⟨hv, rfl⟩]; rfl)

/-! ### The numbers of the control registers (10_state.md R30, R32) -/

/-- The number of a real control register (R32). -/
def RealCsr.number : RealCsr → BitVec 12
  | .chiprate => 0x020
  | .fc => 0x021
  | .npow => 0x022
  | .nbw => 0x023

/-- The numbers of the real control registers (R32). -/
def realCsrNumbers : List Nat := [0x020, 0x021, 0x022, 0x023]

@[simp] theorem RealCsr.ofNumber_number (r : RealCsr) : RealCsr.ofNumber r.number = some r := by cases r <;> rfl

/-- No number names registers of both kinds. -/
theorem IntCsr.ofNumber_real (r : RealCsr) : IntCsr.ofNumber r.number = none := by cases r <;> rfl

theorem IntCsr.eq_number_of_ofNumber {n : BitVec 12} {r : IntCsr} (h : IntCsr.ofNumber n = some r) : n = r.number := by
  unfold IntCsr.ofNumber at h
  split at h <;> cases h <;> exact BitVec.eq_of_toNat_eq ‹_›

theorem RealCsr.eq_number_of_ofNumber {n : BitVec 12} {r : RealCsr} (h : RealCsr.ofNumber n = some r) : n = r.number := by
  unfold RealCsr.ofNumber at h
  split at h <;> cases h <;> exact BitVec.eq_of_toNat_eq ‹_›

theorem IntCsr.writable_iff_number_mem (r : IntCsr) : r.writable = true ↔ r.number.toNat ∈ csrWriteNumbers := by
  cases r <;> decide

theorem RealCsr.number_mem (r : RealCsr) : r.number.toNat ∈ realCsrNumbers := by cases r <;> decide

theorem csrWriteNumbers_disjoint_real : List.Disjoint csrWriteNumbers realCsrNumbers := by
  unfold List.Disjoint
  decide

/-- `NSEEDEN` alone has the number 0x019. -/
theorem IntCsr.number_eq_nseeden_iff (r : IntCsr) : r.number = 0x019 ↔ r = .nseeden := by cases r <;> decide

/-! ### Control registers (R75, 10_state.md R33) -/

theorem hostStepIn_readCsr_number (r : IntCsr) {s : State.Of α} (hx : s.mode ≠ .exec) :
    hostStepIn P (.readCsr r.number) s = .answer (.word (readCsr r s)) s := by
  refine (whenStopped_of_ne hx _).trans ?_
  rw [hostReadCsr, ofNumber_number]

theorem hostStepIn_readCsr_realNumber (r : RealCsr) {s : State.Of α} (hx : s.mode ≠ .exec) :
    hostStepIn P (.readCsr r.number) s = .answer (.real (readReal r s)) s := by
  refine (whenStopped_of_ne hx _).trans ?_
  rw [hostReadCsr, IntCsr.ofNumber_real, RealCsr.ofNumber_number]

/-- A writable integer control register reads back, `NSEEDEN` its one bit (R33). -/
theorem hostStepIn_writeCsr_number {r : IntCsr} (hw : r.writable = true) (v : Word) {s : State.Of α} (hx : s.mode ≠ .exec) :
    hostStepIn P (.writeCsr r.number (.int v)) s = .answer .done (writeCsr r v s) ∧
      hostStepIn P (.readCsr r.number) (writeCsr r v s)
        = .answer (.word (if r.number = 0x019 then v &&& 1 else v)) (writeCsr r v s) := by
  have hbit : BitVec.ofNat 64 (v.getLsbD 0).toNat = v &&& 1 := by
    rw [show v &&& 1 = _ from BitVec.and_one_eq_setWidth_ofBool_getLsbD]
    cases v.getLsbD 0 <;> rfl
  constructor
  · refine (whenStopped_of_ne hx _).trans ?_
    simp [hostWriteCsr, hw]
  · rw [hostStepIn_readCsr_number r (by rwa [writeCsr_mode]), readCsr_writeCsr r r v s hw, if_pos rfl, hbit]
    simp only [r.number_eq_nseeden_iff]

/-- A real control register reads back (R32, R33). -/
theorem hostStepIn_writeCsr_realNumber (r : RealCsr) (v : α) {s : State.Of α} (hx : s.mode ≠ .exec) :
    hostStepIn P (.writeCsr r.number (.real v)) s = .answer .done (writeReal r v s) ∧
      hostStepIn P (.readCsr r.number) (writeReal r v s) = .answer (.real v) (writeReal r v s) := by
  constructor
  · refine (whenStopped_of_ne hx _).trans ?_
    rw [hostWriteCsr, RealCsr.ofNumber_number]
  · rw [hostStepIn_readCsr_realNumber r (by rwa [writeReal_mode])]
    cases r <;> rfl

/-- An integer is refused by every number but those of the writable integer registers. -/
theorem hostStepIn_writeCsr_int_refused {n : BitVec 12} (hn : n.toNat ∉ csrWriteNumbers) (v : Word) {s : State.Of α}
    (hx : s.mode ≠ .exec) : hostStepIn P (.writeCsr n (.int v)) s = .answer .refused s := by
  refine (whenStopped_of_ne hx _).trans ?_
  cases hr : IntCsr.ofNumber n with
  | none => rw [hostWriteCsr, hr]
  | some r =>
    have hw : r.writable ≠ true := mt r.writable_iff_number_mem.1 (IntCsr.eq_number_of_ofNumber hr ▸ hn)
    simp [hostWriteCsr, hr, hw]

/-- A `Num` is refused by every number but those of the real registers. -/
theorem hostStepIn_writeCsr_real_refused {n : BitVec 12} (hn : n.toNat ∉ realCsrNumbers) (v : α) {s : State.Of α}
    (hx : s.mode ≠ .exec) : hostStepIn P (.writeCsr n (.real v)) s = .answer .refused s := by
  refine (whenStopped_of_ne hx _).trans ?_
  cases hr : RealCsr.ofNumber n with
  | none => rw [hostWriteCsr, hr]
  | some r => exact absurd (RealCsr.eq_number_of_ofNumber hr ▸ r.number_mem) hn

/-! ### The statement -/

/-- The integer control registers with access "read, write", in the order of their numbers (R30). -/
def writableCsrs : List IntCsr :=
  [.scheme, .cpb, .ovs, .nmode, .payload, .padlen, .repeatFactor, .seedtx, .seedrx, .nseeden, .nseed]

theorem writable_of_mem_writableCsrs : ∀ r ∈ writableCsrs, r.writable = true := by decide

/-- Settles O57: the answers of the operations above; the statement's tables of registers are the registers' numbers, each
with what its write leaves or its read gives. -/
theorem hostPortOperations : Obligations.HostPortOperations := by
  refine ⟨fun op s => hostStepIn_of_exec, fun stream s => hostStart_of_idle, fun s => hostFclr_of_fault,
    fun id j s hx => (whenStopped_of_ne hx _).trans (hostReadT_eq id j s),
    fun r v s hx => ?scalar, fun d v s hx hv => ?bits, fun d v rate s hx hv => ?samples,
    fun d v s => hostStepIn_writeB_of_lt d, fun d v rate s => hostStepIn_writeW_of_lt d rate,
    fun v s hx e he => ?intCsr, fun v s hx e he => ?realCsr, fun s hx e he => ?readOnly,
    fun n v s hx hint hreal => ?unknown, fun n s hx => ⟨fun v hreal => ?intToReal, fun v hint => ?realToInt⟩⟩
  case scalar =>
    obtain ⟨hwrite, hread⟩ := hostStepIn_writeX (P := machine) r v hx
    exact ⟨_, hwrite, rfl, hread⟩
  case bits =>
    obtain ⟨hwrite, hread⟩ := hostStepIn_writeB_of_le d hx hv
    exact ⟨_, hwrite, rfl, hread⟩
  case samples =>
    obtain ⟨hwrite, hread⟩ := hostStepIn_writeW_of_le d rate hx hv
    exact ⟨_, hwrite, rfl, hread⟩
  case intCsr =>
    change e ∈ writableCsrs.map fun r => (r.number, writeCsr r v s) at he
    obtain ⟨r, hr, rfl⟩ := List.mem_map.1 he
    exact hostStepIn_writeCsr_number (writable_of_mem_writableCsrs r hr) v hx
  case realCsr =>
    change e ∈ [RealCsr.chiprate, .fc, .npow, .nbw].map fun r => (r.number, writeReal r v s) at he
    obtain ⟨r, -, rfl⟩ := List.mem_map.1 he
    exact hostStepIn_writeCsr_realNumber r v hx
  case readOnly =>
    change e ∈ [IntCsr.status, .cause, .fpc, .finfo, .runid].map fun r => (r.number, readCsr r s) at he
    obtain ⟨r, -, rfl⟩ := List.mem_map.1 he
    exact hostStepIn_readCsr_number r hx
  case unknown =>
    cases v with
    | int v => exact hostStepIn_writeCsr_int_refused hint v hx
    | real v => exact hostStepIn_writeCsr_real_refused hreal v hx
  case intToReal => exact hostStepIn_writeCsr_int_refused (fun hint => csrWriteNumbers_disjoint_real hint hreal) v hx
  case realToInt => exact hostStepIn_writeCsr_real_refused (csrWriteNumbers_disjoint_real hint) v hx

end Sys2Proof.Machine
end

section
/-! SUPPORT. The encoding of 30_encoding.md: the layouts of the operands in a command's word, and the three readings of a
layout, by the decoder, by the encoder and by the masks of R99. -/

namespace Sys2Proof

/-! ### The fields of a word (R91) -/

/-- A word is given by its fields. -/
theorem eq_packFields_iff (w : CmdWord) (op : BitVec 8) (a b c : BitVec 4) (k : BitVec 12) :
    w = packFields op a b c k ↔
      fieldOp w = op ∧ fieldA w = a ∧ fieldB w = b ∧ fieldC w = c ∧ fieldK w = k := by
  constructor
  · rintro rfl
    simp
  · rintro ⟨rfl, rfl, rfl, rfl, rfl⟩
    exact (packFields_fields w).symm

/-- A masked word is an opcode alone exactly when the word has that opcode and each of its operand fields avoids its part
of the mask (R99). -/
theorem and_mask_eq_iff (w : CmdWord) (op : BitVec 8) (ma mb mc : BitVec 4) (mk : BitVec 12) :
    w &&& packFields 255#8 ma mb mc mk = packFields op 0#4 0#4 0#4 0#12 ↔
      fieldOp w = op ∧
        fieldA w &&& ma = 0#4 ∧ fieldB w &&& mb = 0#4 ∧ fieldC w &&& mc = 0#4 ∧ fieldK w &&& mk = 0#12 := by
  have hop : fieldOp w &&& 255#8 = fieldOp w := BitVec.and_allOnes
  conv_lhs => rw [← packFields_fields w, packFields_and, hop]
  simp [eq_packFields_iff]

/-- Registers with the same operand field are the same. -/
@[simp] theorem operandField_inj (r r' : Fin 8) : operandField r = operandField r' ↔ r = r' := by
  revert r r'
  decide

/-- An operand field names a register exactly when its top bit is clear (R98). -/
theorem and_top_eq_zero_iff (f : BitVec 4) : f &&& 8#4 = 0#4 ↔ ∃ r, f = operandField r := by
  revert f
  decide

/-- A field under a full mask is itself. -/
@[simp] theorem and_full_four (f : BitVec 4) : f &&& 15#4 = f := BitVec.and_allOnes

@[simp] theorem and_full_twelve (f : BitVec 12) : f &&& 4095#12 = f := BitVec.and_allOnes

/-- The two fields of an immediate put together are the immediate (R96). -/
@[simp] theorem imm_join (imm : BitVec 16) :
    (imm.extractLsb' 12 4 ++ imm.extractLsb' 0 12 : BitVec 16) = imm := by
  ext i hi
  simp
  grind

/-- The bit count in a word whose field `k` is a count is that count (R96). -/
@[simp] theorem fieldCount_packFields (op : BitVec 8) (a b c : BitVec 4) (n : BitVec 6) :
    fieldCount (packFields op a b c (n.setWidth 12)) = n := by
  unfold fieldCount packFields
  ext i hi
  simp
  grind

/-- The padding above a bit count is the upper half of field `k` (R91). -/
theorem fieldCountPad_eq (w : CmdWord) : fieldCountPad w = (fieldK w).extractLsb' 6 6 := by
  unfold fieldCountPad fieldK
  ext i hi
  simp

/-- The padding above a bit count is zero exactly where field `k` avoids the mask's bits 11:6 (R97, R99). -/
theorem fieldCountPad_eq_zero_iff (w : CmdWord) : fieldCountPad w = 0#6 ↔ fieldK w &&& 4032#12 = 0#12 := by
  rw [fieldCountPad_eq]
  generalize fieldK w = k
  revert k
  decide

/-! ### The layouts (R91, R96) -/

/-- Where the operands of a command stand in its word, with the command they make (R95, R96). -/
inductive Layout where
  | none (i : Instr)
  | a (i : Fin 8 → Instr)
  | ab (i : Fin 8 → Fin 8 → Instr)
  | ac (i : Fin 8 → Fin 8 → Instr)
  | abc (i : Fin 8 → Fin 8 → Fin 8 → Instr)
  | imm (i : Fin 8 → BitVec 16 → Instr)
  | csrRead
  | csrWrite
  | get
  | push

/-- The decoder's reading of a word of the layout. -/
def Layout.decode : Layout → CmdWord → Except DecodeError Instr
  | .none i => decodeNone i
  | .a i => decodeA i
  | .ab i => decodeAB i
  | .ac i => decodeAC i
  | .abc i => decodeABC i
  | .imm i => decodeImm i
  | .csrRead => decodeCsrRead
  | .csrWrite => decodeCsrWrite
  | .get => decodeGet
  | .push => decodePush

/-- `l.Word op i w`: the command `i` of the layout `l` with the opcode `op` has the word `w`, as the encoder writes it. -/
inductive Layout.Word (op : BitVec 8) : Layout → Instr → CmdWord → Prop
  | none (i : Instr) : Word op (.none i) i (encodeR op 0 0 0)
  | a (i : Fin 8 → Instr) (a) : Word op (.a i) (i a) (encodeR op (operandField a) 0 0)
  | ab (i : Fin 8 → Fin 8 → Instr) (a b) : Word op (.ab i) (i a b) (encodeR op (operandField a) (operandField b) 0)
  | ac (i : Fin 8 → Fin 8 → Instr) (a c) : Word op (.ac i) (i a c) (encodeR op (operandField a) 0 (operandField c))
  | abc (i : Fin 8 → Fin 8 → Fin 8 → Instr) (a b c) :
    Word op (.abc i) (i a b c) (encodeR op (operandField a) (operandField b) (operandField c))
  | imm (i : Fin 8 → BitVec 16 → Instr) (a n) : Word op (.imm i) (i a n) (encodeImm op a n)
  | csrRead (a n) : Word op .csrRead (.csrr a n) (packFields op (operandField a) 0 0 n)
  | csrWrite (b n) : Word op .csrWrite (.csrw b n) (packFields op 0 (operandField b) 0 n)
  | get (a b c n) : Word op .get (.bget a b c n)
      (packFields op (operandField a) (operandField b) (operandField c) (BitVec.setWidth 12 n))
  | push (a b n) : Word op .push (.bpush a b n)
      (packFields op (operandField a) (operandField b) 0 (BitVec.setWidth 12 n))

/-- The bits of a word that the layout fixes: the opcode, the must-be-zero fields and the operands' top bits (R99). -/
def Layout.mask : Layout → CmdWord
  | .none _ => packFields 0xFF 0xF 0xF 0xF 0xFFF
  | .a _ => packFields 0xFF 0x8 0xF 0xF 0xFFF
  | .ab _ => packFields 0xFF 0x8 0x8 0xF 0xFFF
  | .ac _ => packFields 0xFF 0x8 0xF 0x8 0xFFF
  | .abc _ => packFields 0xFF 0x8 0x8 0x8 0xFFF
  | .imm _ => packFields 0xFF 0x8 0xF 0x0 0x000
  | .csrRead => packFields 0xFF 0x8 0xF 0xF 0x000
  | .csrWrite => packFields 0xFF 0xF 0x8 0xF 0x000
  | .get => packFields 0xFF 0x8 0x8 0x8 0xFC0
  | .push => packFields 0xFF 0x8 0x8 0xF 0xFC0

/-- The word of a command has the command's opcode. -/
theorem Layout.Word.fieldOp_eq {op : BitVec 8} {l : Layout} {i : Instr} {w : CmdWord} (h : l.Word op i w) :
    fieldOp w = op := by
  cases h <;> exact fieldOp_packFields ..

/-- The decoder's reading of a command's word is the command. -/
theorem Layout.Word.decode_eq {op : BitVec 8} {l : Layout} {i : Instr} {w : CmdWord} (h : l.Word op i w) :
    l.decode w = .ok i := by
  cases h with
  | none i => simp [Layout.decode, decodeNone_eq_ok, encodeR]
  | a i a => simp [Layout.decode, decodeA_eq_ok, encodeR]
  | ab i a b => simp [Layout.decode, decodeAB_eq_ok, encodeR]
  | ac i a c => simp [Layout.decode, decodeAC_eq_ok, encodeR]
  | abc i a b c => simp [Layout.decode, decodeABC_eq_ok, encodeR]
  | imm i a n => simp [Layout.decode, decodeImm_eq_ok, encodeImm]
  | csrRead a n => simp [Layout.decode, decodeCsrRead_eq_ok]
  | csrWrite b n => simp [Layout.decode, decodeCsrWrite_eq_ok]
  | get a b c n => simp [Layout.decode, decodeGet_eq_ok, fieldCountPad_eq_zero_iff]
  | push a b n => simp [Layout.decode, decodePush_eq_ok, fieldCountPad_eq_zero_iff]

/-- A word that the layout's decoder reads as a command is that command's word: what the decoder asks of each field is what
the encoder writes there (R97, R98). -/
theorem Layout.word_of_decode {l : Layout} {i : Instr} {w : CmdWord} (h : l.decode w = .ok i) :
    l.Word (fieldOp w) i w := by
  generalize hop : fieldOp w = op
  cases l with
  | none i =>
    obtain ⟨ha, hb, hc, hk, rfl⟩ := (decodeNone_eq_ok ..).1 h
    obtain rfl := (eq_packFields_iff ..).2 ⟨hop, ha, hb, hc, hk⟩
    exact .none i
  | a i =>
    obtain ⟨hb, hc, hk, a, ha, rfl⟩ := (decodeA_eq_ok ..).1 h
    obtain rfl := (eq_packFields_iff ..).2 ⟨hop, ha, hb, hc, hk⟩
    exact .a i a
  | ab i =>
    obtain ⟨hc, hk, a, ha, b, hb, rfl⟩ := (decodeAB_eq_ok ..).1 h
    obtain rfl := (eq_packFields_iff ..).2 ⟨hop, ha, hb, hc, hk⟩
    exact .ab i a b
  | ac i =>
    obtain ⟨hb, hk, a, ha, c, hc, rfl⟩ := (decodeAC_eq_ok ..).1 h
    obtain rfl := (eq_packFields_iff ..).2 ⟨hop, ha, hb, hc, hk⟩
    exact .ac i a c
  | abc i =>
    obtain ⟨hk, a, ha, b, hb, c, hc, rfl⟩ := (decodeABC_eq_ok ..).1 h
    obtain rfl := (eq_packFields_iff ..).2 ⟨hop, ha, hb, hc, hk⟩
    exact .abc i a b c
  | imm i =>
    obtain ⟨hb, a, ha, rfl⟩ := (decodeImm_eq_ok ..).1 h
    obtain ⟨hc, hk⟩ := imm_split (fieldC w) (fieldK w)
    have hw : w = encodeImm op a (fieldC w ++ fieldK w) := (eq_packFields_iff ..).2 ⟨hop, ha, hb, hc.symm, hk.symm⟩
    conv => arg 4; rw [hw]
    exact .imm i a _
  | csrRead =>
    obtain ⟨hb, hc, a, ha, rfl⟩ := (decodeCsrRead_eq_ok ..).1 h
    generalize hk : fieldK w = k
    obtain rfl := (eq_packFields_iff ..).2 ⟨hop, ha, hb, hc, hk⟩
    exact .csrRead a k
  | csrWrite =>
    obtain ⟨ha, hc, b, hb, rfl⟩ := (decodeCsrWrite_eq_ok ..).1 h
    generalize hk : fieldK w = k
    obtain rfl := (eq_packFields_iff ..).2 ⟨hop, ha, hb, hc, hk⟩
    exact .csrWrite b k
  | get =>
    obtain ⟨hpad, a, ha, b, hb, c, hc, rfl⟩ := (decodeGet_eq_ok ..).1 h
    have hk := fieldK_eq_count w hpad
    generalize fieldCount w = n at hk ⊢
    obtain rfl := (eq_packFields_iff ..).2 ⟨hop, ha, hb, hc, hk⟩
    exact .get a b c n
  | push =>
    obtain ⟨hc, hpad, a, ha, b, hb, rfl⟩ := (decodePush_eq_ok ..).1 h
    have hk := fieldK_eq_count w hpad
    generalize fieldCount w = n at hk ⊢
    obtain rfl := (eq_packFields_iff ..).2 ⟨hop, ha, hb, hc, hk⟩
    exact .push a b n

/-- The layout's decoder reads a command from a word of an opcode exactly when the bits of its mask are that opcode alone
(R99). -/
theorem Layout.and_mask_iff (l : Layout) (w : CmdWord) (op : BitVec 8) :
    w &&& l.mask = packFields op 0 0 0 0 ↔ fieldOp w = op ∧ ∃ i, l.decode w = .ok i := by
  cases l with
  | none i =>
    simp [Layout.mask, Layout.decode, and_mask_eq_iff, decodeNone_eq_ok, and_assoc, and_left_comm, and_comm]
  | a i =>
    simp [Layout.mask, Layout.decode, and_mask_eq_iff, and_top_eq_zero_iff, decodeA_eq_ok,
      and_assoc, and_left_comm, and_comm]
  | ab i =>
    simp [Layout.mask, Layout.decode, and_mask_eq_iff, and_top_eq_zero_iff, decodeAB_eq_ok,
      and_assoc, and_left_comm, and_comm]
  | ac i =>
    simp [Layout.mask, Layout.decode, and_mask_eq_iff, and_top_eq_zero_iff, decodeAC_eq_ok, and_left_comm, and_comm]
  | abc i =>
    simp [Layout.mask, Layout.decode, and_mask_eq_iff, and_top_eq_zero_iff, decodeABC_eq_ok, and_left_comm, and_comm]
  | imm i =>
    simp [Layout.mask, Layout.decode, and_mask_eq_iff, and_top_eq_zero_iff, decodeImm_eq_ok, and_left_comm, and_comm]
  | csrRead =>
    simp [Layout.mask, Layout.decode, and_mask_eq_iff, and_top_eq_zero_iff, decodeCsrRead_eq_ok,
      and_assoc, and_left_comm, and_comm]
  | csrWrite =>
    simp [Layout.mask, Layout.decode, and_mask_eq_iff, and_top_eq_zero_iff, decodeCsrWrite_eq_ok,
      and_left_comm, and_comm]
  | get =>
    simp [Layout.mask, Layout.decode, and_mask_eq_iff, and_top_eq_zero_iff, fieldCountPad_eq_zero_iff, decodeGet_eq_ok,
      and_left_comm, and_comm]
  | push =>
    simp [Layout.mask, Layout.decode, and_mask_eq_iff, and_top_eq_zero_iff, fieldCountPad_eq_zero_iff, decodePush_eq_ok,
      and_assoc, and_left_comm, and_comm]

/-! ### The opcode map (R95, R99) -/

/-- The layout of each opcode, as the decoder selects it; a reserved opcode has none (R95, R99). -/
def layoutOf (op : BitVec 8) : Option Layout :=
  match op.toNat with
  | 0x01 => some (.none .nop)
  | 0x02 => some (.none .halt)
  | 0x03 => some (.none .run)
  | 0x10 => some (.imm .li)
  | 0x11 => some (.imm .lih)
  | 0x12 => some .csrRead
  | 0x13 => some .csrWrite
  | 0x14 => some (.a .bclr)
  | 0x15 => some (.ab .blen)
  | 0x16 => some .get
  | 0x17 => some .push
  | 0x18 => some (.ac .bflip)
  | 0x19 => some (.ab .wlen)
  | 0x1A => some (.abc .bcmp)
  | 0x20 => some (.ab .nrzenc)
  | 0x21 => some (.ab .nrzdec)
  | 0x22 => some (.ab .manenc)
  | 0x23 => some (.ab .mandec)
  | 0x24 => some (.ab .repenc)
  | 0x25 => some (.ab .repdec)
  | 0x2E => some (.ab .fecenc)
  | 0x2F => some (.ab .fecdec)
  | 0x30 => some (.ab .henc4)
  | 0x31 => some (.ab .hsyn7)
  | 0x32 => some (.ab .hcor7)
  | 0x33 => some (.ab .hdec7)
  | 0x34 => some (.ab .hamenc)
  | 0x35 => some (.ab .hamdec)
  | 0x40 => some (.ab .dseed)
  | 0x41 => some (.ab .prngen)
  | 0x50 => some (.abc .spread)
  | 0x51 => some (.ab .ovsamp)
  | 0x52 => some (.abc .chmean)
  | 0x53 => some (.abc .desprd)
  | 0x54 => some (.ab .slice)
  | 0x60 => some (.ab .modul)
  | 0x61 => some (.ab .demod)
  | 0x70 => some (.ab .noisew)
  | 0x71 => some (.ab .noiseb)
  | 0x72 => some (.ab .addnoise)
  | _ => none

/-- Decoding is the reading of the opcode's layout; without one the word is refused as reserved. -/
theorem decode_eq_layoutOf (w : CmdWord) :
    decode w = (layoutOf (fieldOp w)).elim (.error .reservedOpcode) fun l => l.decode w := by
  unfold decode layoutOf
  generalize (fieldOp w).toNat = n
  split
  case h_41 => simp
  all_goals rfl

/-- A word decodes to a command exactly when its opcode has a layout in which the command has that word. -/
theorem decode_eq_ok_iff (w : CmdWord) (i : Instr) :
    decode w = .ok i ↔ ∃ l, layoutOf (fieldOp w) = some l ∧ l.Word (fieldOp w) i w := by
  rw [decode_eq_layoutOf]
  cases layoutOf (fieldOp w) with
  | none => simp
  | some l => simpa using ⟨Layout.word_of_decode, Layout.Word.decode_eq⟩

/-- The encoder writes every command in the layout of its opcode. -/
theorem encode_word (i : Instr) : ∃ op l, layoutOf op = some l ∧ l.Word op i (encode i) := by
  cases i with
  | nop => exact ⟨0x01, _, rfl, .none _⟩
  | halt => exact ⟨0x02, _, rfl, .none _⟩
  | run => exact ⟨0x03, _, rfl, .none _⟩
  | li xd imm => exact ⟨0x10, _, rfl, .imm _ xd imm⟩
  | lih xd imm => exact ⟨0x11, _, rfl, .imm _ xd imm⟩
  | csrr xd csr => exact ⟨0x12, _, rfl, .csrRead xd csr⟩
  | csrw xs csr => exact ⟨0x13, _, rfl, .csrWrite xs csr⟩
  | bclr bd => exact ⟨0x14, _, rfl, .a _ bd⟩
  | blen xd bs => exact ⟨0x15, _, rfl, .ab _ xd bs⟩
  | bget xd bs xi nm1 => exact ⟨0x16, _, rfl, .get xd bs xi nm1⟩
  | bpush bd xs nm1 => exact ⟨0x17, _, rfl, .push bd xs nm1⟩
  | bflip bd xi => exact ⟨0x18, _, rfl, .ac _ bd xi⟩
  | wlen xd ws => exact ⟨0x19, _, rfl, .ab _ xd ws⟩
  | bcmp xd bs bt => exact ⟨0x1A, _, rfl, .abc _ xd bs bt⟩
  | nrzenc bd bs => exact ⟨0x20, _, rfl, .ab _ bd bs⟩
  | nrzdec bd bs => exact ⟨0x21, _, rfl, .ab _ bd bs⟩
  | manenc bd bs => exact ⟨0x22, _, rfl, .ab _ bd bs⟩
  | mandec bd bs => exact ⟨0x23, _, rfl, .ab _ bd bs⟩
  | repenc bd bs => exact ⟨0x24, _, rfl, .ab _ bd bs⟩
  | repdec bd bs => exact ⟨0x25, _, rfl, .ab _ bd bs⟩
  | fecenc bd bs => exact ⟨0x2E, _, rfl, .ab _ bd bs⟩
  | fecdec bd bs => exact ⟨0x2F, _, rfl, .ab _ bd bs⟩
  | henc4 xd xs => exact ⟨0x30, _, rfl, .ab _ xd xs⟩
  | hsyn7 xd xs => exact ⟨0x31, _, rfl, .ab _ xd xs⟩
  | hcor7 xd xs => exact ⟨0x32, _, rfl, .ab _ xd xs⟩
  | hdec7 xd xs => exact ⟨0x33, _, rfl, .ab _ xd xs⟩
  | hamenc bd bs => exact ⟨0x34, _, rfl, .ab _ bd bs⟩
  | hamdec bd bs => exact ⟨0x35, _, rfl, .ab _ bd bs⟩
  | dseed xd bs => exact ⟨0x40, _, rfl, .ab _ xd bs⟩
  | prngen wd xs => exact ⟨0x41, _, rfl, .ab _ wd xs⟩
  | spread wd bs wp => exact ⟨0x50, _, rfl, .abc _ wd bs wp⟩
  | ovsamp wd ws => exact ⟨0x51, _, rfl, .ab _ wd ws⟩
  | chmean wd ws xw => exact ⟨0x52, _, rfl, .abc _ wd ws xw⟩
  | desprd wd ws wp => exact ⟨0x53, _, rfl, .abc _ wd ws wp⟩
  | slice bd ws => exact ⟨0x54, _, rfl, .ab _ bd ws⟩
  | modul wd ws => exact ⟨0x60, _, rfl, .ab _ wd ws⟩
  | demod wd ws => exact ⟨0x61, _, rfl, .ab _ wd ws⟩
  | noisew wd ws => exact ⟨0x70, _, rfl, .ab _ wd ws⟩
  | noiseb wd ws => exact ⟨0x71, _, rfl, .ab _ wd ws⟩
  | addnoise wd ws => exact ⟨0x72, _, rfl, .ab _ wd ws⟩

/-- A command with a word in its opcode's layout is encoded as that word: the two maps have the same rows (R95). -/
theorem encode_eq_of_word {op : BitVec 8} {l : Layout} {i : Instr} {w : CmdWord} (hl : layoutOf op = some l)
    (h : l.Word op i w) : encode i = w := by
  have hself : BitVec.ofNat 8 op.toNat = op := by simp
  rw [← hself] at h
  unfold layoutOf at hl
  split at hl
  case h_41 => cases hl
  all_goals
    rename_i hop
    rw [hop] at h
    cases hl
    cases h
    rfl

/-- Settles O2: the encoder writes the command in the layout that the decoder reads. -/
theorem decodeOfEncode : Obligations.DecodeOfEncode := by
  intro i
  obtain ⟨op, l, hl, h⟩ := encode_word i
  obtain rfl := h.fieldOp_eq
  exact (decode_eq_ok_iff ..).2 ⟨l, hl, h⟩

/-- Settles O3: the decoder reads a command only from the word that the encoder writes for it. -/
theorem encodeOfDecode : Obligations.EncodeOfDecode := by
  intro w i hi
  obtain ⟨l, hl, h⟩ := (decode_eq_ok_iff ..).1 hi
  exact encode_eq_of_word hl h

/-! ### The table of masks (R99) -/

/-- A row's mask is its layout's, and its pattern the opcode alone. -/
theorem opcodeTable_layout : ∀ r ∈ opcodeTable,
    r.pattern = packFields (fieldOp r.pattern) 0 0 0 0 ∧
      (layoutOf (fieldOp r.pattern)).map Layout.mask = some r.mask := by
  decide

/-- No two rows have the same opcode. -/
theorem opcodeTable_nodup : (opcodeTable.map fun r => fieldOp r.pattern).Nodup := by
  decide

/-- The opcodes with a layout are those of the rows. -/
theorem exists_row_of_layoutOf {op : BitVec 8} {l : Layout} (hl : layoutOf op = some l) :
    ∃ r ∈ opcodeTable, op = fieldOp r.pattern := by
  have hall : ∀ op, (layoutOf op).isSome → ∃ r ∈ opcodeTable, op = fieldOp r.pattern := by decide
  exact hall op (by simp [hl])

/-- A word matches a row exactly when it has the row's opcode and decodes. -/
theorem and_mask_eq_pattern_iff {r : OpcodeRow} (hr : r ∈ opcodeTable) (w : CmdWord) :
    w &&& r.mask = r.pattern ↔ fieldOp w = fieldOp r.pattern ∧ ∃ i, decode w = .ok i := by
  obtain ⟨hpattern, hmask⟩ := opcodeTable_layout r hr
  obtain ⟨l, hl, hlm⟩ := Option.map_eq_some_iff.1 hmask
  rw [← hlm, hpattern, l.and_mask_iff, fieldOp_packFields]
  refine and_congr_right fun hop => ?_
  rw [decode_eq_layoutOf, hop, hl, Option.elim_some]

/-- Settles O4: a row and the decoder agree on the words of the row's opcode, and the rows' opcodes are distinct and are
all that the decoder knows. -/
theorem legalWordsMatchExactlyOneRow : Obligations.LegalWordsMatchExactlyOneRow := by
  refine ⟨fun w => ⟨?row, ?legal⟩, fun w r r' hr hr' h h' => ?unique, fun w hw => ?reserved⟩
  case row =>
    rintro ⟨i, hi⟩
    obtain ⟨l, hl, -⟩ := (decode_eq_ok_iff ..).1 hi
    obtain ⟨r, hr, hop⟩ := exists_row_of_layoutOf hl
    exact ⟨r, hr, (and_mask_eq_pattern_iff hr w).2 ⟨hop, i, hi⟩⟩
  case legal =>
    rintro ⟨r, hr, h⟩
    exact ((and_mask_eq_pattern_iff hr w).1 h).2
  case unique =>
    obtain ⟨hop, -⟩ := (and_mask_eq_pattern_iff hr w).1 h
    obtain ⟨hop', -⟩ := (and_mask_eq_pattern_iff hr' w).1 h'
    exact List.inj_on_of_nodup_map opcodeTable_nodup hr hr' (hop.symm.trans hop')
  case reserved =>
    have hnone : layoutOf (fieldOp w) = none := by
      refine Option.eq_none_iff_forall_ne_some.2 fun l hl => ?_
      obtain ⟨r, hr, hop⟩ := exists_row_of_layoutOf hl
      exact hw r hr hop
    rw [decode_eq_layoutOf, hnone, Option.elim_none]

/-- Settles O5: each of the words, run through the decoder. -/
theorem decodeOfWrittenWords : Obligations.DecodeOfWrittenWords := by
  unfold Obligations.DecodeOfWrittenWords
  decide

end Sys2Proof

namespace Sys2Proof.Machine

/-! ### The step (R93) -/

/-- Settles O6: in `EXEC` the word at `pc` is the one fetched; the core's execution and step are the generic ones at its
parameters. -/
theorem stepRunsDecodedCommand : Obligations.StepRunsDecodedCommand := by
  refine ⟨fun s w i hx hw hi => ?_, exec_eq_execIn, step_eq_stepIn⟩
  have hfetch : fetch s = .ok w := (fetch_eq_ok s w).2 ⟨hx, hw⟩
  simp only [step, hfetch, hi]

end Sys2Proof.Machine
end

section
/-! SUPPORT. The bit codings (40_fec_bitcoding.md): what each code and each decoded sequence holds, element by element, that
decoding the code of a payload gives the payload, and from these the commands. -/

namespace Sys2Proof.Machine

variable {α : Type} {P : Params α}

/-! ### A command by the answer of its rule (30_encoding.md R93) -/

theorem exec_of_rule_ok {i : Instr} {s u : State} (h : ruleIn machine i s = .ok u) :
    exec i s = .next { u with pc := s.pc + 1 } := by
  rw [exec_eq_finish, h, finish_ok]

theorem exec_of_rule_error {i : Instr} {s : State} {e : Raise} (h : ruleIn machine i s = .error e) :
    exec i s = .next (takeFault e s) := by
  rw [exec_eq_finish, h, finish_error]

/-- Commands whose rules agree do the same. -/
theorem exec_congr_rule {i j : Instr} {s : State} (h : ruleIn machine i s = ruleIn machine j s) : exec i s = exec j s := by
  rw [exec_eq_finish, exec_eq_finish, h]

/-! ### Where an encoder raises `Capacity` (20_memory.md R64) -/

/-- A bit buffer replaced, then registers written: it raises where the buffer does not fit. -/
theorem setB_bind_pure_of_lt (f : State.Of α → State.Of α) (d : BBuf) {v : BitSeq} (s : State.Of α)
    (h : bcapOf P < v.length) : (setB P d v s >>= fun u => pure (f u)) = .error ⟨.capacity, v.length⟩ := by
  rw [setB_of_lt d v s h, error_bind]

theorem ruleManenc_of_lt (bd bs : BBuf) {s : State.Of α} (h : bcapOf P < 2 * (readB bs s).length) :
    ruleManenc P bd bs s = .error ⟨.capacity, 2 * (readB bs s).length⟩ := by
  rw [Nat.mul_comm, ← manEncode_length] at h ⊢
  exact setB_bind_pure_of_lt (fun u => { u with payload := BitVec.ofNat 64 (readB bs s).length }) bd s h

theorem ruleRepenc_of_lt (bd bs : BBuf) {s : State.Of α} (h : bcapOf P < 3 * (readB bs s).length) :
    ruleRepenc P bd bs s = .error ⟨.capacity, 3 * (readB bs s).length⟩ := by
  rw [Nat.mul_comm, ← repEncode_length] at h ⊢
  exact setB_bind_pure_of_lt (fun u => { u with payload := BitVec.ofNat 64 (readB bs s).length, repeatFactor := 3 }) bd s h

/-! ### Truncation (R121) -/

@[simp] theorem trunc_length (v : BitSeq) (n : Nat) : (trunc v n).length = min n v.length := List.length_take

theorem trunc_getElem? {v : BitSeq} {n k : Nat} (h : k < (trunc v n).length) : (trunc v n)[k]? = v[k]? := by
  rw [trunc_length] at h
  exact List.getElem?_take_of_lt (by omega)

/-! ### Manchester coding, bit by bit (R124, R125) -/

/-- The two code bits of a source bit. -/
theorem manEncode_getElem? {v : BitSeq} {i : Nat} {bit : Bool} (h : v[i]? = some bit) :
    (manEncode v)[2 * i]? = some bit ∧ (manEncode v)[2 * i + 1]? = some (!bit) := by
  have hcode (j : Nat) (hj : j < 2) : (manEncode v)[i * 2 + j]? = [bit, !bit][j]? := by
    rw [manEncode, getElem?_pieces 2 _ v (fun _ _ => rfl) i j hj, h, Option.bind_some]
  rw [Nat.mul_comm]
  exact ⟨hcode 0 (by decide), hcode 1 (by decide)⟩

@[simp] theorem manDecode_length (r : BitSeq) : (manDecode r).length = r.length / 2 := by simp [manDecode]

/-- A whole pair is two elements in succession. -/
theorem take_two_drop {r : BitSeq} {k : Nat} (h : k + 1 < r.length) :
    (r.drop k).take 2 = [r.getD k false, r.getD (k + 1) false] := by
  rw [List.drop_eq_getElem_cons (by omega), List.drop_eq_getElem_cons h, List.getD_eq_getElem _ _ h,
    List.getD_eq_getElem _ _ (by omega)]
  rfl

/-- The decision on a whole pair. -/
theorem manDecode_getElem? {r : BitSeq} {k : Nat} (h : k < r.length / 2) :
    (manDecode r)[k]? = some (r.getD (2 * k) false && !r.getD (2 * k + 1) false) := by
  rw [manDecode, List.getElem?_map, groups_getElem? 2 r k h, Nat.mul_comm, take_two_drop (by omega)]
  rfl

/-! ### Repeat coding, group by group (R126, R127) -/

/-- The three code bits of a source bit. -/
theorem repEncode_getElem? (v : BitSeq) (i : Nat) {u : Nat} (hu : u < 3) : (repEncode v)[3 * i + u]? = v[i]? := by
  rw [Nat.mul_comm]
  exact hold_getElem? 3 v i u hu

@[simp] theorem repDecode_length (g : Nat) (r : BitSeq) : (repDecode g r).length = r.length / g := by simp [repDecode]

/-- The vote of a whole group. -/
theorem repDecode_getElem? {g k : Nat} {r : BitSeq} (h : k < r.length / g) :
    (repDecode g r)[k]? = some (majority g ((r.drop (k * g)).take g)) := by
  rw [repDecode, List.getElem?_map, groups_getElem? g r k h, Option.map_some]

theorem majority_eq_true_iff (g : Nat) (p : BitSeq) : majority g p = true ↔ (g + 1) / 2 ≤ p.count true := decide_eq_true_iff

/-! ### Decoding the code of a payload (R131) -/

theorem manDecode_manEncode (v : BitSeq) : manDecode (manEncode v) = v := by
  have hgroups : groups 2 (manEncode v) = v.map fun bit => [bit, !bit] := by
    simpa [manEncode] using groups_pieces 2 (fun bit => [bit, !bit]) v [] (fun _ _ => rfl) (by simp)
  have hpair : manPair ∘ (fun bit => [bit, !bit]) = id := funext (by decide)
  rw [manDecode, hgroups, List.map_map, hpair, List.map_id]

theorem repDecode_repEncode (v : BitSeq) : repDecode 3 (repEncode v) = v := by
  have hgroups : groups 3 (repEncode v) = v.map (List.replicate 3) := by
    simpa only [repEncode, hold, List.append_nil] using
      groups_pieces 3 (List.replicate 3) v [] (fun _ _ => List.length_replicate) (by simp)
  have hvote : majority 3 ∘ List.replicate 3 = id := funext (by decide)
  rw [repDecode, hgroups, List.map_map, hvote, List.map_id]

/-- The whole groups in succession are the elements they are made of. -/
theorem groups_flatten {β : Type} (g : Nat) (v : List β) : (groups g v).flatten = v.take (v.length / g * g) := by
  have hfirst (n : Nat) : ((List.range n).map fun k => (v.drop (k * g)).take g).flatten = v.take (n * g) := by
    induction n with
    | zero => simp
    | succ n ih =>
      rw [List.range_succ, List.map_append, List.flatten_append, ih, Nat.succ_mul, List.take_add]
      simp
  exact hfirst _

/-- A codeword without an error decodes to its block (41_hamming74.md R144). -/
theorem dec7_encBlock {p : BitSeq} (h : p.length = 4) : dec7 (encBlock p) = p := by
  match p, h with
  | [d1, d2, d3, d4], _ => revert d1 d2 d3 d4; decide

/-- The blocks of a code are the payload and its pad (41_hamming74.md R150, R153). -/
theorem hamBlocks_hamEncode (v : BitSeq) :
    hamBlocks (hamEncode v) = v ++ List.replicate (hamPad v.length) false := by
  have hlen : ∀ p ∈ groups 4 (v ++ List.replicate (hamPad v.length) false), p.length = 4 := fun p => group_length 4 _ p
  have hwords := groups_pieces 7 encBlock _ [] (fun p hp => encBlock_length p (hlen p hp)) (by simp)
  rw [List.append_nil] at hwords
  generalize hw : v ++ List.replicate (hamPad v.length) false = w at hlen hwords ⊢
  have hblocks : (groups 4 w).map (dec7 ∘ encBlock) = groups 4 w :=
    (List.map_congr_left fun p hp => dec7_encBlock (hlen p hp)).trans (List.map_id _)
  have hwhole : w.length = w.length / 4 * 4 := by
    rw [← hw, List.length_append, List.length_replicate, add_hamPad, Nat.mul_div_cancel _ (by decide)]
  rw [hamBlocks, hamEncode, hw, hwords, List.flatMap_def, List.map_map, hblocks, groups_flatten, ← hwhole, List.take_length]

theorem hamDecode_hamEncode (v : BitSeq) : hamDecode (hamEncode v) (hamPad v.length) v.length = v := by
  simp [hamDecode, hamBlocks_hamEncode, trunc]

/-- Decoding a code with the metadata its encoder recorded gives the payload. -/
theorem decodeOf_codeOf (scheme padlen factor : Nat) (v : BitSeq) (hs : scheme ≤ 3)
    (hpad : scheme = 3 → padlen = hamPad v.length) (hfactor : scheme = 2 → factor = 3) :
    decodeOf scheme padlen factor v.length (codeOf scheme v) = v := by
  match scheme with
  | 0 => exact List.take_length
  | 1 => exact (congrArg (trunc · v.length) (manDecode_manEncode v)).trans List.take_length
  | 2 =>
    rw [hfactor rfl]
    exact (congrArg (trunc · v.length) (repDecode_repEncode v)).trans List.take_length
  | 3 =>
    rw [hpad rfl]
    exact hamDecode_hamEncode v

/-! ### The single codings -/

/-- Settles O25: a source within the capacity can be copied, and so can its first bits. -/
theorem nrzCommands : Obligations.NrzCommands := by
  intro bd bs s hs
  have htrunc : (trunc (readB bs s) s.payload.toNat).length ≤ bcap := by
    rw [trunc_length]
    exact (Nat.min_le_right _ _).trans hs
  exact ⟨exec_of_rule_ok (i := .nrzenc bd bs) ((ruleNrzenc_eq_ok ..).2 ⟨hs, rfl⟩),
    exec_of_rule_ok (i := .nrzdec bd bs) (setB_of_le bd _ s htrunc)⟩

/-- Settles O26: the code and the decisions bit by bit. -/
theorem manchesterCommands : Obligations.ManchesterCommands := by
  refine fun bd bs s => ⟨fun hfit => ?encode, fun hlt => exec_of_rule_error (ruleManenc_of_lt bd bs hlt), fun hs => ?decode⟩
  case encode =>
    have hlen : (manEncode (readB bs s)).length = 2 * s.b[bs].length := (manEncode_length _).trans (Nat.mul_comm ..)
    exact ⟨_, exec_of_rule_ok (i := .manenc bd bs) ((ruleManenc_eq_ok ..).2 ⟨hlen.trans_le hfit, rfl⟩), hlen,
      fun i bit => manEncode_getElem?⟩
  case decode =>
    have hlen : (trunc (manDecode (readB bs s)) s.payload.toNat).length = min (s.b[bs].length / 2) s.payload.toNat := by
      rw [trunc_length, manDecode_length, Nat.min_comm]
      rfl
    have hfit : (trunc (manDecode (readB bs s)) s.payload.toNat).length ≤ bcap := by omega
    refine ⟨_, exec_of_rule_ok (i := .mandec bd bs) (setB_of_le bd _ s hfit), hlen, fun k hk => ?_⟩
    rw [trunc_getElem? hk]
    exact manDecode_getElem? (by rw [hlen] at hk; exact hk.trans_le (Nat.min_le_left _ _))

/-- `REPDEC` where its group size is not 0 (R127). -/
theorem ruleRepdec_of_ne (bd bs : BBuf) {s : State.Of α} (hr : s.repeatFactor ≠ 0) (hs : (readB bs s).length ≤ bcapOf P) :
    ruleRepdec P bd bs s =
      .ok { s with b := s.b.set bd (trunc (repDecode s.repeatFactor.toNat (readB bs s)) s.payload.toNat) } := by
  rw [ruleRepdec, if_neg hr]
  refine setB_of_le bd _ s ?_
  rw [trunc_length, repDecode_length]
  exact (Nat.min_le_right _ _).trans ((Nat.div_le_self _ _).trans hs)

/-- Settles O27: the code bit by bit and the vote of each group. -/
theorem repeatCommands : Obligations.RepeatCommands := by
  refine fun bd bs s => ⟨fun hfit => ?encode, fun hlt => exec_of_rule_error (ruleRepenc_of_lt bd bs hlt),
    fun hr => exec_of_rule_error (if_pos hr), fun hr hs => ?decode⟩
  case encode =>
    have hlen : (repEncode (readB bs s)).length = 3 * s.b[bs].length := (repEncode_length _).trans (Nat.mul_comm ..)
    exact ⟨_, exec_of_rule_ok (i := .repenc bd bs) ((ruleRepenc_eq_ok ..).2 ⟨hlen.trans_le hfit, rfl⟩), hlen,
      fun i u => repEncode_getElem? (readB bs s) i⟩
  case decode =>
    have hlen : (trunc (repDecode s.repeatFactor.toNat (readB bs s)) s.payload.toNat).length =
        min (s.b[bs].length / s.repeatFactor.toNat) s.payload.toNat := by
      rw [trunc_length, repDecode_length, Nat.min_comm]
      rfl
    refine ⟨_, exec_of_rule_ok (i := .repdec bd bs) (ruleRepdec_of_ne bd bs hr hs), hlen, fun k hk => ?_⟩
    have hgroup : k < (readB bs s).length / s.repeatFactor.toNat := by
      rw [hlen] at hk
      exact hk.trans_le (Nat.min_le_left _ _)
    rw [trunc_getElem? hk, repDecode_getElem? hgroup, Option.some.injEq, majority_eq_true_iff]
    rfl

/-! ### The dispatch on `SCHEME` (R128, R129) -/

theorem ruleFecenc_nrz (bd bs : BBuf) {s : State.Of α} (h : s.scheme = 0) : ruleFecenc P bd bs s = ruleNrzenc P bd bs s := by
  simp [ruleFecenc, h]

theorem ruleFecenc_manchester (bd bs : BBuf) {s : State.Of α} (h : s.scheme = 1) :
    ruleFecenc P bd bs s = ruleManenc P bd bs s := by
  simp [ruleFecenc, h]

theorem ruleFecenc_repeat (bd bs : BBuf) {s : State.Of α} (h : s.scheme = 2) :
    ruleFecenc P bd bs s = ruleRepenc P bd bs s := by
  simp [ruleFecenc, h]

theorem ruleFecenc_hamming (bd bs : BBuf) {s : State.Of α} (h : s.scheme = 3) :
    ruleFecenc P bd bs s = ruleHamenc P bd bs s := by
  simp [ruleFecenc, h]

theorem ruleFecenc_unsupported (bd bs : BBuf) {s : State.Of α} (h : 3 < s.scheme.toNat) :
    ruleFecenc P bd bs s = .error ⟨.invalidArgumentScheme, s.scheme.toNat⟩ := by
  unfold ruleFecenc
  split
  case h_5 => rfl
  all_goals omega

theorem ruleFecdec_nrz (bd bs : BBuf) {s : State.Of α} (h : s.scheme = 0) : ruleFecdec P bd bs s = ruleNrzdec P bd bs s := by
  simp [ruleFecdec, h]

theorem ruleFecdec_manchester (bd bs : BBuf) {s : State.Of α} (h : s.scheme = 1) :
    ruleFecdec P bd bs s = ruleMandec P bd bs s := by
  simp [ruleFecdec, h]

theorem ruleFecdec_repeat (bd bs : BBuf) {s : State.Of α} (h : s.scheme = 2) :
    ruleFecdec P bd bs s = ruleRepdec P bd bs s := by
  simp [ruleFecdec, h]

theorem ruleFecdec_hamming (bd bs : BBuf) {s : State.Of α} (h : s.scheme = 3) :
    ruleFecdec P bd bs s = ruleHamdec P bd bs s := by
  simp [ruleFecdec, h]

theorem ruleFecdec_unsupported (bd bs : BBuf) {s : State.Of α} (h : 3 < s.scheme.toNat) :
    ruleFecdec P bd bs s = .error ⟨.invalidArgumentScheme, s.scheme.toNat⟩ := by
  unfold ruleFecdec
  split
  case h_5 => rfl
  all_goals omega

/-- A decoder gives no more bits than `PAYLOAD` says (R121). -/
theorem decodeOf_length_le_payload (scheme padlen factor payload : Nat) (r : BitSeq) :
    (decodeOf scheme padlen factor payload r).length ≤ payload := by
  unfold decodeOf
  split <;> exact (trunc_length ..).trans_le (Nat.min_le_left _ _)

/-- Settles O28: each scheme's encoder, and the closed form of the dispatch where the code fits. -/
theorem fecencDispatch : Obligations.FecencDispatch := by
  refine fun bd bs s => ⟨fun h => exec_congr_rule (ruleFecenc_nrz bd bs h),
    fun h => exec_congr_rule (ruleFecenc_manchester bd bs h),
    fun h => exec_congr_rule (ruleFecenc_repeat bd bs h), fun h => exec_congr_rule (ruleFecenc_hamming bd bs h),
    fun h => exec_of_rule_error (ruleFecenc_unsupported bd bs h), fun hs hfit => ?_⟩
  refine ⟨codeOf s.scheme.toNat (readB bs s), ?_, codeOf_length ..⟩
  simp only [← BitVec.toNat_inj]
  exact exec_of_rule_ok (i := .fecenc bd bs) ((ruleFecenc_eq_ok ..).2 ⟨hs, hfit, rfl⟩)

/-- Settles O29: each scheme's decoder, and the closed form of the dispatch, which never lengthens its source. -/
theorem fecdecDispatch : Obligations.FecdecDispatch := by
  refine fun bd bs s => ⟨fun h => exec_congr_rule (ruleFecdec_nrz bd bs h),
    fun h => exec_congr_rule (ruleFecdec_manchester bd bs h),
    fun h => exec_congr_rule (ruleFecdec_repeat bd bs h), fun h => exec_congr_rule (ruleFecdec_hamming bd bs h),
    fun h => exec_of_rule_error (ruleFecdec_unsupported bd bs h), fun hs hr hfit => ?_⟩
  have hlen := decodeOf_length_le s.scheme.toNat s.padlen.toNat s.repeatFactor.toNat s.payload.toNat (readB bs s)
  have hr' : s.scheme.toNat = 2 → s.repeatFactor ≠ 0 := fun h => hr (BitVec.eq_of_toNat_eq h)
  exact ⟨_, exec_of_rule_ok (i := .fecdec bd bs) ((ruleFecdec_eq_ok ..).2 ⟨hs, hr', hlen.trans hfit, rfl⟩), hlen,
    decodeOf_length_le_payload ..⟩

/-! ### The round trip (R131) -/

/-- Two commands executed one after another, the first of which does not leave `EXEC`. -/
theorem execAll_pair {i j : Instr} {s t u : State} (hi : exec i s = .next t) (ht : t.mode = .exec)
    (hj : exec j t = .next u) : execAll [i, j] s = .next u := by
  simp [execAll, hi, ht, hj]

/-- No scheme's code is shorter than the payload (R130). -/
theorem le_codeLength (scheme n : Nat) : n ≤ codeLength scheme n := by
  unfold codeLength
  split <;> omega

/-- After `FECENC` the decoder finds the code and its metadata and gives the payload, wherever `pc` stands. -/
theorem ruleFecdec_of_ruleFecenc {bs bc : BBuf} {s t : State.Of α} (bd : BBuf) (pc : BitVec 32) (hword : bcapOf P < 2 ^ 64)
    (h : ruleFecenc P bc bs s = .ok t) :
    ruleFecdec P bd bc { t with pc := pc } = .ok { t with b := t.b.set bd (readB bs s), pc := pc } := by
  obtain ⟨hs, hfit, rfl⟩ := (ruleFecenc_eq_ok ..).1 h
  have hlen : (readB bs s).length ≤ bcapOf P := (le_codeLength ..).trans hfit
  have hpayload : (BitVec.ofNat 64 (readB bs s).length).toNat = (readB bs s).length :=
    (BitVec.toNat_ofNat ..).trans (Nat.mod_eq_of_lt (hlen.trans_lt hword))
  have hpad : (BitVec.ofNat 64 (hamPad (readB bs s).length)).toNat = hamPad (readB bs s).length :=
    (BitVec.toNat_ofNat ..).trans (Nat.mod_eq_of_lt ((hamPad_lt _).trans (by decide)))
  have hdecode (padlen factor : Word) := decodeOf_codeOf s.scheme.toNat padlen.toNat factor.toNat (readB bs s) hs
  rw [ruleFecdec_eq_ok]
  simp only [readB, Fin.getElem_fin, Vector.getElem_set_self] at hlen hpayload hpad hdecode ⊢
  rw [hpayload, hdecode _ _ (fun h => by rw [if_pos h, hpad]) (fun h => by rw [if_pos h]; rfl)]
  exact ⟨hs, fun h => by rw [if_pos h]; decide, hlen, rfl⟩

/-- Settles O30: the encoder leaves the code in `b1` and its metadata in the registers, from which the decoder computes
the payload. -/
theorem fecRoundTrip : Obligations.FecRoundTrip := by
  intro b0 b1 b3 s hx hs hfit
  obtain ⟨t, ht⟩ : ∃ t, ruleFecenc machine b1 b0 s = .ok t := ⟨_, (ruleFecenc_eq_ok ..).2 ⟨hs, hfit, rfl⟩⟩
  have hmode : t.mode = .exec := by
    obtain ⟨d, v, p, q, r, -, rfl⟩ := ruleFecenc_codeWrite ht
    exact hx
  have hdec := ruleFecdec_of_ruleFecenc b3 (s.pc + 1) bcap_lt_word ht
  exact ⟨_, execAll_pair (exec_of_rule_ok (i := .fecenc b1 b0) ht) hmode (exec_of_rule_ok (i := .fecdec b3 b1) hdec), hmode,
    by simp [readB]⟩

end Sys2Proof.Machine
end

section
/-! SUPPORT. The Hamming(7,4) commands (41_hamming74.md): the single-error law of a block, what the block commands leave in
their register, what each block of an encoded and of a decoded stream is, and that a stream with at most one error in each
block decodes to its payload. -/

namespace Sys2Proof.Machine

variable {α : Type} {P : Params α}

/-! ### Packed and unpacked bits (00_scope.md R10) -/

/-- The first element is the most significant bit, so position `i` is bit `length - 1 - i`. -/
theorem pack_modify_not {c : BitSeq} {i : Nat} (hi : i < c.length) :
    pack (c.modify i fun bit => !bit) = pack c ^^^ 2 ^ (c.length - 1 - i) := by
  apply Nat.eq_of_testBit_eq
  intro j
  rw [Nat.testBit_xor, pack_testBit, pack_testBit, List.length_modify, Nat.testBit_two_pow]
  by_cases hj : j < c.length
  · rw [if_pos hj, if_pos hj, List.getD_eq_getElem _ _ (by rw [List.length_modify]; omega),
      List.getD_eq_getElem _ _ (by omega), List.getElem_modify]
    by_cases hij : i = c.length - 1 - j
    · rw [if_pos hij, decide_eq_true (by omega), Bool.xor_true]
    · rw [if_neg hij, decide_eq_false (by omega), Bool.xor_false]
  · rw [if_neg hj, if_neg hj, decide_eq_false (by omega), Bool.xor_false]

/-- A sequence of at most 64 bits is determined by its length and its packed value. -/
theorem eq_of_pack_eq {c d : BitSeq} (hlen : c.length = d.length) (hd : d.length ≤ 64) (h : pack c = pack d) : c = d := by
  rw [← unpack_pack c _ hlen hd, h, unpack_pack d _ rfl hd]

/-- A packed sequence of at most 64 bits is held whole in a word. -/
theorem toNat_ofNat_pack {c : BitSeq} (hc : c.length ≤ 64) : (BitVec.ofNat 64 (pack c)).toNat = pack c := by
  rw [BitVec.toNat_ofNat, Nat.mod_eq_of_lt ((pack_lt c).trans_le (Nat.pow_le_pow_right (by decide) hc))]

/-- The seven elements of a block in a register (R145): the first is bit 6. -/
theorem unpack_seven (v : Word) : unpack 7 v = [v.getLsbD 6, v.getLsbD 5, v.getLsbD 4, v.getLsbD 3, v.getLsbD 2,
    v.getLsbD 1, v.getLsbD 0] := rfl

/-! ### One block (R140 to R144) -/

theorem syn7_lt (c : BitSeq) : syn7 c < 8 := by
  unfold syn7
  split
  · rename_i c1 c2 c3 c4 c5 c6 c7
    have h1 := Bool.toNat_le (c1 ^^ c3 ^^ c5 ^^ c7)
    have h2 := Bool.toNat_le (c2 ^^ c3 ^^ c6 ^^ c7)
    have h3 := Bool.toNat_le (c4 ^^ c5 ^^ c6 ^^ c7)
    omega
  · decide

@[simp] theorem cor7_length (c : BitSeq) : (cor7 c).length = c.length := by
  unfold cor7
  split
  · rfl
  · exact List.length_modify ..

/-- The correction of a packed block (R148): a non-zero syndrome inverts the bit `7 - syndrome`. -/
theorem pack_cor7 {c : BitSeq} (hc : c.length = 7) :
    pack (cor7 c) = if syn7 c = 0 then pack c else pack c ^^^ 2 ^ (7 - syn7 c) := by
  have hlt := syn7_lt c
  unfold cor7
  split
  · rfl
  · rw [pack_modify_not (by omega), hc, show 7 - 1 - (syn7 c - 1) = 7 - syn7 c by omega]

/-- A codeword with the element at position `q` inverted has syndrome `q + 1` (R155). -/
theorem syn7_modify_encBlock {p : BitSeq} (hp : p.length = 4) {q : Nat} (hq : q < 7) :
    syn7 ((encBlock p).modify q fun bit => !bit) = q + 1 := by
  match p, hp with
  | [d1, d2, d3, d4], _ => revert d1 d2 d3 d4 q; decide

/-- Inverting an element twice gives the sequence back. -/
theorem modify_not_modify_not (r : BitSeq) (q : Nat) :
    (r.modify q fun bit => !bit).modify q (fun bit => !bit) = r := by
  have hnot : (fun bit => !bit) ∘ (fun bit => !bit) = (id : Bool → Bool) := funext Bool.not_not
  rw [List.modify_modify_eq, hnot, List.modify_id]

/-- The single-error law (R155): the correction inverts the element at position `q` back. -/
theorem dec7_modify_encBlock {p : BitSeq} (hp : p.length = 4) {q : Nat} (hq : q < 7) :
    dec7 ((encBlock p).modify q fun bit => !bit) = p := by
  have hdata : dat7 (encBlock p) = p := by
    match p, hp with
    | [_, _, _, _], _ => rfl
  rw [dec7, cor7, syn7_modify_encBlock hp hq, if_neg (Nat.succ_ne_zero q), Nat.add_sub_cancel, modify_not_modify_not, hdata]

/-- Two sequences of `n` elements that differ in at most one place are equal, or one is the other with that element
inverted. -/
theorem eq_or_eq_modify_not {r d : BitSeq} {n : Nat} (hr : r.length = n) (hd : d.length = n)
    (h : ((List.range n).filter fun j => r[j]? != d[j]?).length ≤ 1) :
    r = d ∨ ∃ q < n, r = d.modify q fun bit => !bit := by
  have hmem (j : Nat) : j ∈ (List.range n).filter (fun j => r[j]? != d[j]?) ↔ j < n ∧ r[j]? ≠ d[j]? := by simp
  generalize (List.range n).filter (fun j => r[j]? != d[j]?) = places at h hmem
  match places, h with
  | [], _ =>
    refine .inl (List.ext_getElem? fun j => ?_)
    by_cases hj : j < n
    · exact not_not.1 fun hne => List.not_mem_nil ((hmem j).2 ⟨hj, hne⟩)
    · rw [List.getElem?_eq_none (by omega), List.getElem?_eq_none (by omega)]
  | [q], _ =>
    obtain ⟨hq, hne⟩ := (hmem q).1 List.mem_cons_self
    refine .inr ⟨q, hq, List.ext_getElem (by rw [List.length_modify, hr, hd]) fun j hjr _ => ?_⟩
    have hjd : j < d.length := by omega
    rw [List.getElem_modify]
    split
    · subst q
      rw [List.getElem?_eq_getElem hjr, List.getElem?_eq_getElem hjd] at hne
      exact Bool.eq_not.2 fun h => hne (congrArg some h)
    · rename_i hqj
      have heq : r[j]? = d[j]? := not_not.1 fun hdiff =>
        hqj (List.mem_singleton.1 ((hmem j).2 ⟨by omega, hdiff⟩)).symm
      rwa [List.getElem?_eq_getElem hjr, List.getElem?_eq_getElem hjd, Option.some.injEq] at heq

/-- A codeword received with at most one inverted element decodes to its block (R144, R155). -/
theorem dec7_of_differs_once {r p : BitSeq} (hr : r.length = 7) (hp : p.length = 4)
    (h : ((List.range 7).filter fun j => r[j]? != (encBlock p)[j]?).length ≤ 1) : dec7 r = p := by
  obtain rfl | ⟨q, hq, rfl⟩ := eq_or_eq_modify_not hr (encBlock_length p hp) h
  · exact dec7_encBlock hp
  · exact dec7_modify_encBlock hp hq

/-! ### The block commands (R146 to R149) -/

theorem exec_henc4 (xd xs : XReg) (s : State) : exec (.henc4 xd xs) s =
    .next { s with x := s.x.set xd (BitVec.ofNat 64 (pack (encBlock (unpack 4 s.x[xs])))), pc := s.pc + 1 } :=
  exec_of_rule_ok (i := .henc4 xd xs) rfl

theorem exec_hsyn7 (xd xs : XReg) (s : State) : exec (.hsyn7 xd xs) s =
    .next { s with x := s.x.set xd (BitVec.ofNat 64 (syn7 (unpack 7 s.x[xs]))), pc := s.pc + 1 } :=
  exec_of_rule_ok (i := .hsyn7 xd xs) rfl

theorem exec_hcor7 (xd xs : XReg) (s : State) : exec (.hcor7 xd xs) s =
    .next { s with x := s.x.set xd (BitVec.ofNat 64 (pack (cor7 (unpack 7 s.x[xs])))), pc := s.pc + 1 } :=
  exec_of_rule_ok (i := .hcor7 xd xs) rfl

theorem exec_hdec7 (xd xs : XReg) (s : State) : exec (.hdec7 xd xs) s =
    .next { s with x := s.x.set xd (BitVec.ofNat 64 (pack (dec7 (unpack 7 s.x[xs])))), pc := s.pc + 1 } :=
  exec_of_rule_ok (i := .hdec7 xd xs) rfl

/-- The table of R154 is the encoder (R140), the block read as a number. -/
theorem ofNat_pack_encBlock {p : BitSeq} (hp : p.length = 4) :
    BitVec.ofNat 64 (pack (encBlock p)) =
      ([0x00, 0x69, 0x2A, 0x43, 0x4C, 0x25, 0x66, 0x0F, 0x70, 0x19, 0x5A, 0x33, 0x3C, 0x55, 0x16, 0x7F] :
        List Word).getD (pack p) 0 := by
  match p, hp with
  | [d1, d2, d3, d4], _ => revert d1 d2 d3 d4; decide

/-- Settles O31: the table row by row. -/
theorem hammingBlockEncode : Obligations.HammingBlockEncode := by
  intro xd xs s
  rw [exec_henc4, ofNat_pack_encBlock (unpack_length 4 _), pack_unpack]
  rfl

theorem toNat_ofNat_syn7 (c : BitSeq) : (BitVec.ofNat 64 (syn7 c)).toNat = syn7 c :=
  (BitVec.toNat_ofNat ..).trans (Nat.mod_eq_of_lt ((syn7_lt c).trans (by decide)))

/-- Settles O32: the seven code bits are the register's low bits, and the syndrome fits in a word. -/
theorem hammingSyndrome : Obligations.HammingSyndrome := by
  intro xd xs s c hc
  refine ⟨_, exec_hsyn7 xd xs s, ?_⟩
  simp only [toNat_ofNat_syn7, hc]
  rfl

/-- The data bits of a block in a register, packed (R149). -/
theorem pack_dat7_unpack (v : Word) : pack (dat7 (unpack 7 v)) =
    8 * (v.getLsbD 4).toNat + 4 * (v.getLsbD 2).toNat + 2 * (v.getLsbD 1).toNat + (v.getLsbD 0).toNat := by
  simp only [unpack_seven, dat7, pack, List.foldl]
  omega

/-- Settles O33: `HCOR7` by the packed correction, and `HDEC7` gathers the data bits of the block that `HCOR7` packs. -/
theorem hammingCorrectAndDecode : Obligations.HammingCorrectAndDecode := by
  intro xd xs s
  have hlen : (cor7 (unpack 7 s.x[xs])).length = 7 := by rw [cor7_length, unpack_length]
  refine ⟨_, _, exec_hsyn7 xd xs s, exec_hcor7 xd xs s, ?_, ?_⟩
  · simp only [← BitVec.toNat_inj, toNat_ofNat_syn7]
    rw [toNat_ofNat_pack (by omega), pack_cor7 (unpack_length 7 _), pack_unpack]
    rfl
  · rw [exec_hdec7, ← pack_dat7_unpack, unpack_pack _ 7 hlen (by decide)]
    rfl

/-- Settles O34: the register holds the codeword with one element inverted, and the single-error law applies. -/
theorem singleErrorIsCorrected : Obligations.SingleErrorIsCorrected := by
  intro s t u xs xc xd q hq ht hu
  rw [exec_henc4] at ht
  injection ht with ht
  have hp : (unpack 4 s.x[xs]).length = 4 := unpack_length 4 _
  have hcode := encBlock_length _ hp
  have hblock : unpack 7 u.x[xc] = (encBlock (unpack 4 s.x[xs])).modify q fun bit => !bit := by
    refine eq_of_pack_eq (by rw [unpack_length, List.length_modify, hcode]) (by rw [List.length_modify]; omega) ?_
    rw [pack_unpack, pack_modify_not (by omega), hcode]
    refine hu.trans ?_
    rw [← ht, Fin.getElem_fin, Vector.getElem_set_self, toNat_ofNat_pack (by omega)]
  rw [exec_hsyn7, exec_hdec7, hblock, syn7_modify_encBlock hp hq, dec7_modify_encBlock hp hq, pack_unpack]
  exact ⟨rfl, rfl⟩

/-! ### Streams, block by block (R150, R151) -/

/-- The `k`-th piece of a sequence built of pieces of one length. -/
theorem take_drop_pieces {β γ : Type} {g : Nat} {f : β → List γ} {l : List β} (h : ∀ a ∈ l, (f a).length = g) {k : Nat}
    {a : β} (ha : l[k]? = some a) : ((l.flatMap f).drop (k * g)).take g = f a := by
  obtain ⟨hk, rfl⟩ := List.getElem?_eq_some_iff.1 ha
  rw [drop_pieces g f l h, List.drop_eq_getElem_cons hk, List.flatMap_cons, List.take_left' (h _ (List.getElem_mem hk))]

/-- The payload padded with zeros to a whole number of blocks (R150). -/
def hamPadded (v : BitSeq) : BitSeq := v ++ List.replicate (hamPad v.length) false

theorem hamEncode_eq_flatMap (v : BitSeq) : hamEncode v = (groups 4 (hamPadded v)).flatMap encBlock := rfl

@[simp] theorem hamPadded_length (v : BitSeq) : (hamPadded v).length = (v.length + 3) / 4 * 4 := by
  rw [hamPadded, List.length_append, List.length_replicate, add_hamPad]

/-- The pad reads as the zeros past the end of the payload. -/
theorem hamPadded_getD (v : BitSeq) (j : Nat) : (hamPadded v).getD j false = v.getD j false := by
  by_cases hj : j < v.length
  · exact List.getD_append _ _ _ _ hj
  · rw [hamPadded, List.getD_append_right _ _ _ _ (by omega), List.getD_eq_default v _ (by omega)]
    simp [List.getD_eq_getElem?_getD]

/-- Block `k` of the padded payload. -/
def hamBlock (v : BitSeq) (k : Nat) : BitSeq := ((hamPadded v).drop (k * 4)).take 4

theorem hamPadded_groups_getElem? {v : BitSeq} {k : Nat} (hk : k < (v.length + 3) / 4) :
    (groups 4 (hamPadded v))[k]? = some (hamBlock v k) :=
  groups_getElem? 4 _ k (by rw [hamPadded_length, Nat.mul_div_cancel _ (by decide)]; exact hk)

theorem hamBlock_length {v : BitSeq} {k : Nat} (hk : k < (v.length + 3) / 4) : (hamBlock v k).length = 4 :=
  group_length 4 _ _ (List.mem_of_getElem? (hamPadded_groups_getElem? hk))

/-- Four elements in succession. -/
theorem take_four_drop {r : BitSeq} {k : Nat} (h : k + 3 < r.length) :
    (r.drop k).take 4 = [r.getD k false, r.getD (k + 1) false, r.getD (k + 2) false, r.getD (k + 3) false] := by
  rw [show (4 : Nat) = 2 + 2 from rfl, List.take_add, take_two_drop (by omega), List.drop_drop, take_two_drop h]
  rfl

/-- The elements of a block, those of the pad zero. -/
theorem hamBlock_eq {v : BitSeq} {k : Nat} (hk : k < (v.length + 3) / 4) :
    hamBlock v k =
      [v.getD (4 * k) false, v.getD (4 * k + 1) false, v.getD (4 * k + 2) false, v.getD (4 * k + 3) false] := by
  rw [hamBlock, take_four_drop (by rw [hamPadded_length]; omega)]
  simp only [hamPadded_getD, Nat.mul_comm k 4]

/-- Block `k` of the code is the codeword of block `k` of the padded payload. -/
theorem hamEncode_block {v : BitSeq} {k : Nat} (hk : k < (v.length + 3) / 4) :
    ((hamEncode v).drop (k * 7)).take 7 = encBlock (hamBlock v k) := by
  rw [hamEncode_eq_flatMap]
  exact take_drop_pieces (fun p hp => encBlock_length p (group_length 4 _ p hp)) (hamPadded_groups_getElem? hk)

/-- Block `k` of the decoded data is what block `k` of the source decodes to. -/
theorem hamBlocks_block {r : BitSeq} {k : Nat} (hk : k < r.length / 7) :
    ((hamBlocks r).drop (k * 4)).take 4 = dec7 ((r.drop (k * 7)).take 7) :=
  take_drop_pieces (fun c hc => dec7_length c (group_length 7 _ c hc)) (groups_getElem? 7 r k hk)

theorem hamEncode_length_eq_seven_mul (v : BitSeq) : (hamEncode v).length = 7 * ((v.length + 3) / 4) :=
  (hamEncode_length v).trans (Nat.mul_comm ..)

theorem ruleHamenc_of_lt (bd bs : BBuf) {s : State.Of α} (h : bcapOf P < 7 * (((readB bs s).length + 3) / 4)) :
    ruleHamenc P bd bs s = .error ⟨.capacity, 7 * (((readB bs s).length + 3) / 4)⟩ := by
  rw [← hamEncode_length_eq_seven_mul] at h ⊢
  exact setB_bind_pure_of_lt (fun u => { u with payload := BitVec.ofNat 64 (readB bs s).length,
                                                padlen := BitVec.ofNat 64 (hamPad (readB bs s).length) }) bd s h

/-- Settles O35: the code block by block, the parities written out. -/
theorem hammingStreamEncode : Obligations.HammingStreamEncode := by
  refine fun bd bs s d hd => ⟨fun hfit => ?_, fun hlt => exec_of_rule_error (ruleHamenc_of_lt bd bs hlt)⟩
  have hlen := hamEncode_length_eq_seven_mul (readB bs s)
  refine ⟨_, exec_of_rule_ok (i := .hamenc bd bs) ((ruleHamenc_eq_ok ..).2 ⟨hlen.trans_le hfit, rfl⟩), hlen,
    fun k (hk : k < ((readB bs s).length + 3) / 4) => ?_⟩
  rw [Nat.mul_comm, hamEncode_block hk, hamBlock_eq hk]
  simp only [hd]
  rfl

/-- Settles O36: the decoded blocks, before the pad is dropped, are the data the command truncates. -/
theorem hammingStreamDecode : Obligations.HammingStreamDecode := by
  intro bd bs s hs
  have hfit := (hamDecode_length_le (readB bs s) s.padlen.toNat s.payload.toNat).trans hs
  refine ⟨hamBlocks (readB bs s), exec_of_rule_ok (i := .hamdec bd bs) (setB_of_le bd _ s hfit),
    (hamBlocks_length _).trans (Nat.mul_comm ..), fun k hk => ?_⟩
  rw [Nat.mul_comm, Nat.mul_comm 7]
  exact hamBlocks_block hk

/-! ### One error in each block (R155) -/

/-- No 7-bit block of `r` differs from the same block of `w` in more than one place. -/
def DiffersOncePerBlock (r w : BitSeq) : Prop :=
  ∀ k, ((List.range 7).filter fun j => r[7 * k + j]? != w[7 * k + j]?).length ≤ 1

/-- A sequence with as many elements as a code, differing from it at most once in each block, has the same decoded data. -/
theorem hamBlocks_of_differs_once {r v : BitSeq} (hlen : r.length = (hamEncode v).length)
    (h : DiffersOncePerBlock r (hamEncode v)) : hamBlocks r = hamBlocks (hamEncode v) := by
  have hcount : r.length / 7 = (v.length + 3) / 4 := by
    rw [hlen, hamEncode_length, Nat.mul_div_cancel _ (by decide)]
  have hblock : ∀ k < (v.length + 3) / 4,
      dec7 ((r.drop (k * 7)).take 7) = dec7 (((hamEncode v).drop (k * 7)).take 7) := by
    intro k hk
    have hp := hamBlock_length hk
    have hc : ((r.drop (k * 7)).take 7).length = 7 := by
      rw [List.length_take, List.length_drop]
      omega
    rw [hamEncode_block hk, dec7_encBlock hp]
    refine dec7_of_differs_once hc hp ((congrArg List.length (List.filter_congr fun j hj => ?_)).trans_le (h k))
    rw [← hamEncode_block hk, List.getElem?_take_of_lt (List.mem_range.1 hj), List.getElem?_take_of_lt (List.mem_range.1 hj),
      List.getElem?_drop, List.getElem?_drop, Nat.mul_comm k]
  simp only [hamBlocks, groups, List.flatMap_map, ← hlen, hcount]
  exact List.flatMap_congr fun k hk => hblock k (List.mem_range.1 hk)

/-- The payload recovered with the metadata of its encoder (R151, R155). -/
theorem hamDecode_of_differs_once {r v : BitSeq} (hlen : r.length = (hamEncode v).length)
    (h : DiffersOncePerBlock r (hamEncode v)) : hamDecode r (hamPad v.length) v.length = v := by
  rw [hamDecode, hamBlocks_of_differs_once hlen h]
  exact hamDecode_hamEncode v

/-- A command that did not leave `FAULT` behind is the end of its rule's writes. -/
theorem exec_eq_next_of_mode_ne_fault {i : Instr} {s t : State} (h : exec i s = .next t) (ht : t.mode ≠ .fault) :
    ∃ u, ruleIn machine i s = .ok u ∧ t = { u with pc := s.pc + 1 } := by
  rw [exec_eq_finish] at h
  obtain h | ⟨e, -, rfl⟩ := (finish_eq_next ..).1 h
  · exact h
  · exact absurd rfl ht

/-- Settles O37: the encoder left the code and its metadata, with which the received blocks decode to the payload. -/
theorem hammingStreamCorrectsOneErrorPerBlock : Obligations.HammingStreamCorrectsOneErrorPerBlock := by
  intro s t u bp bc br bd henc ht hpayload hpadlen hlen hdiffer
  obtain ⟨t', hrule, rfl⟩ := exec_eq_next_of_mode_ne_fault henc ht
  obtain ⟨hfit, rfl⟩ := (ruleHamenc_eq_ok (P := machine) bc bp s t').1 hrule
  simp only [Fin.getElem_fin, Vector.getElem_set_self] at hlen hdiffer
  have hle : (readB bp s).length ≤ bcap := by
    have hcode := hamEncode_length (readB bp s)
    have hcap : (hamEncode (readB bp s)).length ≤ bcap := hfit
    omega
  have hn : u.payload.toNat = (readB bp s).length := by
    rw [hpayload]
    exact (BitVec.toNat_ofNat ..).trans (Nat.mod_eq_of_lt (hle.trans_lt bcap_lt_word))
  have hpad : u.padlen.toNat = hamPad (readB bp s).length := by
    rw [hpadlen]
    exact (BitVec.toNat_ofNat ..).trans (Nat.mod_eq_of_lt ((hamPad_lt _).trans (by decide)))
  have hdec : hamDecode (readB br u) u.padlen.toNat u.payload.toNat = readB bp s := by
    rw [hn, hpad]
    exact hamDecode_of_differs_once hlen hdiffer
  have hset : ruleHamdec machine bd br u = .ok { u with b := u.b.set bd (readB bp s) } := by
    rw [ruleHamdec, hdec]
    exact setB_of_le bd _ u hle
  exact exec_of_rule_ok (i := .hamdec bd br) hset

end Sys2Proof.Machine
end

section
/-! SUPPORT. Seeds and chips (42_prn.md): the bytes of a buffer that holds a byte string are that string, a big-endian number
is the sum of its weighted bytes, and from these `DSEED`; `PRNGEN` and the agreement of the reference generator. -/

namespace Sys2Proof.Machine

variable {α : Type}

/-! ### The bits of a byte string (R168, 20_memory.md R65) -/

@[simp] theorem byteBits_length (y : BitVec 8) : (byteBits y).length = 8 := by simp [byteBits]

/-- The bits of a byte are those of the word it extends to. -/
theorem byteBits_eq_unpack (y : BitVec 8) : byteBits y = unpack 8 (y.setWidth 64) := by
  refine List.map_congr_left fun i _ => ?_
  have hi : 7 - i < 64 := by omega
  rw [BitVec.getLsbD_setWidth, decide_eq_true hi, Bool.true_and]

theorem ofNat_pack_byteBits (y : BitVec 8) : BitVec.ofNat 8 (pack (byteBits y)) = y := by
  have hy := y.isLt
  rw [byteBits_eq_unpack, pack_unpack, BitVec.toNat_setWidth, Nat.mod_eq_of_lt (hy.trans (by decide)), Nat.mod_eq_of_lt hy,
    BitVec.ofNat_toNat, BitVec.setWidth_eq]

@[simp] theorem textToBits_length (m : List (BitVec 8)) : (textToBits m).length = m.length * 8 :=
  length_pieces 8 _ m fun y _ => byteBits_length y

/-- The bytes of the bits of a byte string are the byte string. -/
theorem bitsToBytes_textToBits (m : List (BitVec 8)) : bitsToBytes (textToBits m) = m := by
  have hgroups := groups_pieces 8 byteBits m [] (fun y _ => byteBits_length y) (by decide)
  rw [List.append_nil] at hgroups
  have hbyte : (fun p => BitVec.ofNat 8 (pack p)) ∘ byteBits = id := funext ofNat_pack_byteBits
  rw [bitsToBytes, textToBits, hgroups, List.map_map, hbyte, List.map_id]

/-! ### Big-endian numbers (20_memory.md R66) -/

theorem ofBigEndian_append (m : List (BitVec 8)) (y : BitVec 8) : ofBigEndian (m ++ [y]) = 256 * ofBigEndian m + y.toNat := by
  simp [ofBigEndian]

/-- The first byte is the most significant. -/
theorem ofBigEndian_cons (y : BitVec 8) (m : List (BitVec 8)) :
    ofBigEndian (y :: m) = y.toNat * 256 ^ m.length + ofBigEndian m := by
  induction m using List.reverseRecOn with
  | nil => simp [ofBigEndian]
  | append_singleton m z ih =>
    rw [← List.cons_append, ofBigEndian_append, ofBigEndian_append, ih, List.length_append, List.length_singleton, Nat.pow_succ]
    ring

/-- A big-endian number fits in its bytes. -/
theorem ofBigEndian_lt (m : List (BitVec 8)) : ofBigEndian m < 256 ^ m.length := by
  induction m using List.reverseRecOn with
  | nil => simp [ofBigEndian]
  | append_singleton m y ih =>
    have hy := y.isLt
    rw [ofBigEndian_append, List.length_append, List.length_singleton, Nat.pow_succ]
    omega

/-- A big-endian number is the sum of its bytes, each weighted by its position. -/
theorem ofBigEndian_eq_sum (m : List (BitVec 8)) :
    ofBigEndian m = ((List.range m.length).map fun j => (m.getD j 0).toNat * 256 ^ (m.length - 1 - j)).sum := by
  induction m with
  | nil => rfl
  | cons y m ih =>
    rw [ofBigEndian_cons, ih, List.length_cons, List.range_succ_eq_map, List.map_cons, List.sum_cons, List.map_map]
    congr 2
    refine List.map_congr_left fun j _ => ?_
    have hj : m.length + 1 - 1 - (j + 1) = m.length - 1 - j := by omega
    rw [Function.comp_apply, Nat.succ_eq_add_one, List.getD_cons_succ, hj]

/-! ### The seed of a byte string (R161, R167) -/

@[simp] theorem bigEndian_length (n v : Nat) : (bigEndian n v).length = n := by
  induction n with
  | zero => rfl
  | succ n ih => rw [bigEndian, List.length_cons, ih]

/-- A digest has 32 bytes (R167). -/
@[simp] theorem sha256_length (m : List (BitVec 8)) : (sha256 m).length = 32 :=
  length_pieces 4 _ _ fun w _ => bigEndian_length 4 w.toNat

/-- The seed is the number of the first 8 digest bytes, the first one the most significant (R161). -/
theorem deriveSeed_toNat (m : List (BitVec 8)) : (deriveSeed m).toNat =
    ((List.range 8).map fun j => ((sha256 m).getD j 0).toNat * 2 ^ (56 - 8 * j)).sum := by
  have hlen : ((sha256 m).take 8).length = 8 := by simp
  have hlt := ofBigEndian_lt ((sha256 m).take 8)
  rw [hlen] at hlt
  rw [deriveSeed, BitVec.toNat_ofNat, Nat.mod_eq_of_lt (hlt.trans_eq (by decide)), ofBigEndian_eq_sum, hlen]
  refine congrArg List.sum (List.map_congr_left fun j hj => ?_)
  have hj : j < 8 := List.mem_range.1 hj
  have hbyte : ((sha256 m).take 8).getD j 0 = (sha256 m).getD j 0 := by
    simp only [List.getD_eq_getElem?_getD, List.getElem?_take_of_lt hj]
  have hweight : 256 ^ (8 - 1 - j) = 2 ^ (56 - 8 * j) := by
    rw [show 256 = 2 ^ 8 from rfl, ← Nat.pow_mul, show 8 * (8 - 1 - j) = 56 - 8 * j by omega]
  rw [hbyte, hweight]

/-! ### `DSEED` (R162) -/

theorem ruleDseed_of_mod_ne (xd : XReg) {bs : BBuf} {s : State.Of α} (h : (readB bs s).length % 8 ≠ 0) :
    ruleDseed xd bs s = .error ⟨.operand, (readB bs s).length⟩ := if_pos h

/-- On the bits of a byte string `DSEED` writes the string's seed. -/
theorem ruleDseed_of_textToBits (xd : XReg) {bs : BBuf} {s : State.Of α} {m : List (BitVec 8)}
    (h : readB bs s = textToBits m) : ruleDseed xd bs s = .ok (writeX xd (deriveSeed m) s) := by
  have hlen : (readB bs s).length = m.length * 8 := by rw [h, textToBits_length]
  have hwhole : ¬(readB bs s).length % 8 ≠ 0 := by omega
  rw [← bitsToBytes_textToBits m, ← h]
  exact if_neg hwhole

/-- Settles O38: the buffer's bytes are the byte string, of whose digest the seed is the weighted sum of the first 8 bytes. -/
theorem deriveSeedCommand : Obligations.DeriveSeedCommand := by
  refine fun xd bs s => ⟨fun m hm => ⟨deriveSeed m, ?_, deriveSeed_toNat m⟩, fun hpartial => ?_⟩
  · exact exec_of_rule_ok (i := .dseed xd bs) (ruleDseed_of_textToBits xd hm)
  · exact exec_of_rule_error (i := .dseed xd bs) (ruleDseed_of_mod_ne xd hpartial)

/-! ### `PRNGEN` (R164) -/

/-- Where `CPB` fits, `PRNGEN` leaves the chips of its seed at the chip rate. -/
theorem exec_prngen_of_le (wd : WBuf) (xs : XReg) {s : State} (h : s.cpb.toNat ≤ wcap) : exec (.prngen wd xs) s =
    .next { s with w := s.w.set wd ⟨chipGen s.x[xs] s.cpb.toNat, s.chiprate⟩, pc := s.pc + 1 } :=
  exec_of_rule_ok (i := .prngen wd xs) ((genChips_eq_ok ..).2 ⟨h, rfl⟩)

/-- Settles O39: the chips are a function of the seed and `CPB` alone. -/
theorem generateChips : Obligations.GenerateChips := by
  refine fun wd wd' xs xs' s s' => ⟨fun hfit hseed hcpb => ?fits, fun habove => ?above⟩
  case fits =>
    refine ⟨chipGen s.x[xs] s.cpb.toNat, exec_prngen_of_le wd xs hfit, ?_, chipGenOf_length .., chipsOf_range _ _ _ _⟩
    rw [exec_prngen_of_le wd' xs' (hcpb ▸ hfit), hseed, hcpb]
  case above => exact exec_of_rule_error (i := .prngen wd xs) ((genChips_eq_error ..).2 ⟨habove, rfl⟩)

/-! ### The reference generator (R165, R169) -/

/-- The 20 chips of the two seeds of `ImpostorProperty` agree in 8 positions and differ in 12. -/
theorem chipAgreement_xs64Sign_impostor :
    chipAgreement xs64Sign 0x8ED3F6AD685B959E 0x6D4A29A6DA82457C 20 = -4 := by decide +kernel

/-- Settles O40: the agreement is negative. -/
theorem referenceGeneratorHasImpostorProperty : Obligations.ReferenceGeneratorHasImpostorProperty := by
  refine ⟨chipAgreement_xs64Sign_impostor, ?_⟩
  rw [ImpostorProperty, chipAgreement_xs64Sign_impostor]
  decide

end Sys2Proof.Machine
end

section
/-! SUPPORT. Spreading, oversampling, the windowed mean, despreading and slicing (43_spread_despread.md): what each result
holds, sample by sample, where each command raises, and from these the commands. -/

namespace Sys2Proof.Machine

variable {α : Type} {P : Params α}

/-! ### The results, sample by sample -/

/-- Sample `k * n + j` of the spread chips is the level of bit `k` times chip `j` (R181, R182). -/
theorem spreadBits_getElem? (N : NumOps α) {n k j : Nat} {v : BitSeq} {p : List α} {bit : Bool} {chip : α}
    (hp : p.length = n) (hk : v[k]? = some bit) (hj : p[j]? = some chip) :
    (spreadBits N n v p)[k * n + j]? = some (N.mul (lvl N bit) chip) := by
  have hne : v ≠ [] := by rintro rfl; cases hk
  have hlt : j < n := hp ▸ (List.getElem?_eq_some_iff.1 hj).1
  rw [spreadBits, if_neg hne, getElem?_pieces n _ v (fun _ _ => by rw [List.length_map, hp]) k j hlt, hk, Option.bind_some,
    List.getElem?_map, hj, Option.map_some]

@[simp] theorem spreadLength_nil (n : Nat) : spreadLength n [] = n := if_pos rfl

theorem spreadLength_of_ne_nil (n : Nat) {v : BitSeq} (h : v ≠ []) : spreadLength n v = v.length * n := if_neg h

/-- Sample `k` of the windowed mean is the mean of window `k` (R184). -/
theorem chunkMean_getElem? (N : NumOps α) {v : List α} {w k : Nat} (h : k < v.length / w) :
    (chunkMean N v w)[k]? = some (meanOf N w ((v.drop (k * w)).take w)) := by
  rw [chunkMean, List.getElem?_map, groups_getElem? w v k h, Option.map_some]

/-- There are no more means than samples. -/
theorem chunkMean_length_le (N : NumOps α) (v : List α) (w : Nat) : (chunkMean N v w).length ≤ v.length :=
  (chunkMean_length ..).trans_le (Nat.div_le_self ..)

/-- Sample `i` of the product with the tiled chips takes chip `i mod n` (R187). -/
theorem tileMul_getElem? (N : NumOps α) (a q : List α) (n i : Nat) :
    (tileMul N a q n)[i]? = a[i]?.map fun y => N.mul y (q.getD (i % n) N.zero) := by
  simp [tileMul, Function.comp_def]

theorem sliceBits_getElem? (N : NumOps α) (m : List α) (k : Nat) : (sliceBits N m)[k]? = m[k]?.map N.gt0 :=
  List.getElem?_map ..

/-! ### Where the rules raise -/

theorem setW_of_lt (d : WBuf) (v : List α) (r : α) (s : State.Of α) (h : P.wcap < v.length) :
    setW P d v r s = .error ⟨.capacity, v.length⟩ := (setW_eq_error ..).2 ⟨h, rfl⟩

theorem checkW_of_lt {n : Nat} (h : P.wcap < n) : checkW P n = .error ⟨.capacity, n⟩ := (checkW_eq_error ..).2 ⟨h, rfl⟩

theorem ruleSpread_of_chips_ne (wd : WBuf) (bs : BBuf) {wp : WBuf} {s : State.Of α}
    (h : (readW wp s).data.length ≠ s.cpb.toNat) :
    ruleSpread P wd bs wp s = .error ⟨.operand, (readW wp s).data.length⟩ := by
  simp [ruleSpread, h, throw, throwThe, MonadExceptOf.throw]

theorem ruleSpread_of_lt (wd : WBuf) {bs : BBuf} {wp : WBuf} {s : State.Of α}
    (hp : (readW wp s).data.length = s.cpb.toNat) (h : P.wcap < spreadLength s.cpb.toNat (readB bs s)) :
    ruleSpread P wd bs wp s = .error ⟨.capacity, spreadLength s.cpb.toNat (readB bs s)⟩ := by
  simp [ruleSpread, hp, checkW_of_lt h]

theorem ruleOvsamp_of_lt (wd : WBuf) {ws : WBuf} {s : State.Of α}
    (h : P.wcap < (readW ws s).data.length * s.ovs.toNat) :
    ruleOvsamp P wd ws s = .error ⟨.capacity, (readW ws s).data.length * s.ovs.toNat⟩ := by
  simp [ruleOvsamp, checkW_of_lt h]

theorem ruleChmean_of_nonpos (wd ws : WBuf) {xw : XReg} {s : State.Of α} (h : (readX xw s).toInt ≤ 0) :
    ruleChmean P wd ws xw s = .error ⟨.invalidArgumentWindow, (readX xw s).toNat⟩ := if_pos h

/-- A positive window gives the means, which fit where the source does (R186). -/
theorem ruleChmean_of_pos (wd : WBuf) {ws : WBuf} {xw : XReg} {s : State.Of α} (h : 0 < (readX xw s).toInt)
    (hs : (readW ws s).data.length ≤ P.wcap) :
    ruleChmean P wd ws xw s =
      .ok { s with w := s.w.set wd ⟨chunkMean P.num (readW ws s).data (readX xw s).toNat,
                                    P.num.div (readW ws s).rate (P.num.ofNat (readX xw s).toNat)⟩ } :=
  (if_neg (Int.not_le.2 h)).trans (setW_of_le _ _ _ _ ((chunkMean_length_le ..).trans hs))

theorem ruleDesprd_of_ovs_zero (wd ws wp : WBuf) {s : State.Of α} (hf : s.ovs.toNat = 0) :
    ruleDesprd P wd ws wp s = .error ⟨.invalidArgumentWindow, 0⟩ := if_pos hf

theorem ruleDesprd_of_chips_ne (wd ws : WBuf) {wp : WBuf} {s : State.Of α} (hf : s.ovs.toNat ≠ 0)
    (hq : (readW wp s).data.length ≠ s.cpb.toNat) :
    ruleDesprd P wd ws wp s = .error ⟨.operand, (readW wp s).data.length⟩ := (if_neg hf).trans (if_pos hq)

theorem ruleDesprd_of_cpb_zero (wd ws : WBuf) {wp : WBuf} {s : State.Of α} (hf : s.ovs.toNat ≠ 0)
    (hq : (readW wp s).data.length = s.cpb.toNat) (hn : s.cpb.toNat = 0) :
    ruleDesprd P wd ws wp s = .error ⟨.invalidArgumentWindow, 0⟩ :=
  (if_neg hf).trans ((if_neg (not_not.2 hq)).trans (if_pos hn))

/-! ### The commands -/

/-- Settles O41: the checks of `SPREAD` in their order, and the spread chips sample by sample. -/
theorem spreadCommand : Obligations.SpreadCommand := by
  rintro wd bs wp s v p n rfl rfl rfl
  have completes (hp : s.w[wp].data.length = s.cpb.toNat) (hfit : spreadLength s.cpb.toNat s.b[bs] ≤ wcap) :
      exec (.spread wd bs wp) s = .next { s with
        w := s.w.set wd ⟨spreadBits num s.cpb.toNat s.b[bs] s.w[wp].data, s.chiprate⟩, pc := s.pc + 1 } :=
    exec_of_rule_ok (i := .spread wd bs wp) ((ruleSpread_eq_ok ..).2 ⟨hp, hfit, rfl⟩)
  have raises (hp : s.w[wp].data.length = s.cpb.toNat) (hlt : wcap < spreadLength s.cpb.toNat s.b[bs]) :
      exec (.spread wd bs wp) s = .next (takeFault ⟨.capacity, spreadLength s.cpb.toNat s.b[bs]⟩ s) :=
    exec_of_rule_error (i := .spread wd bs wp) (ruleSpread_of_lt wd hp hlt)
  refine ⟨fun hp => ?chips, fun hp hv hfit => ?zeros, fun hp hv hlt => ?zerosAbove, fun hp hv hfit => ?spread,
    fun hp hv hlt => ?spreadAbove⟩
  case chips => exact exec_of_rule_error (i := .spread wd bs wp) (ruleSpread_of_chips_ne wd bs hp)
  case zeros => rw [completes hp (by rwa [hv, spreadLength_nil]), spreadBits, if_pos hv]
  case zerosAbove =>
    rw [hv, spreadLength_nil] at raises
    exact raises hp hlt
  case spread =>
    have hlen := spreadLength_of_ne_nil s.cpb.toNat hv
    exact ⟨_, completes hp (hlen.trans_le hfit), (spreadBits_length _ _ _ _ hp).trans hlen,
      fun k j bit chip => spreadBits_getElem? num hp⟩
  case spreadAbove =>
    rw [spreadLength_of_ne_nil _ hv] at raises
    exact raises hp hlt

/-- Settles O42: the held samples, or the check made before they are built. -/
theorem oversampleCommand : Obligations.OversampleCommand := by
  rintro wd ws s v f rfl rfl
  refine ⟨fun hfit => ?_, fun hlt => exec_of_rule_error (i := .ovsamp wd ws) (ruleOvsamp_of_lt wd hlt)⟩
  exact ⟨_, exec_of_rule_ok (i := .ovsamp wd ws) ((ruleOvsamp_eq_ok ..).2 ⟨hfit, rfl⟩), hold_length .., hold_getElem? _ _⟩

/-- Settles O43: the mean of each whole window, or the fault of a window that is not positive. -/
theorem windowedMeanCommand : Obligations.WindowedMeanCommand := by
  rintro wd ws xw s v w rfl rfl
  refine ⟨fun h => exec_of_rule_error (i := .chmean wd ws xw) (ruleChmean_of_nonpos wd ws h), fun h hs => ?_⟩
  exact ⟨_, exec_of_rule_ok (i := .chmean wd ws xw) (ruleChmean_of_pos wd h hs), chunkMean_length ..,
    fun k => chunkMean_getElem? num⟩

/-- Settles O44: the three checks in their order, and the three steps sample by sample. -/
theorem despreadCommand : Obligations.DespreadCommand := by
  rintro wd ws wp s r q f n rfl rfl rfl rfl
  refine ⟨fun hf => exec_of_rule_error (i := .desprd wd ws wp) (ruleDesprd_of_ovs_zero wd ws wp hf),
    fun hf hq => exec_of_rule_error (i := .desprd wd ws wp) (ruleDesprd_of_chips_ne wd ws hf hq),
    fun hf hq hn => exec_of_rule_error (i := .desprd wd ws wp) (ruleDesprd_of_cpb_zero wd ws hf hq hn),
    fun hf hq hn hs => ?_⟩
  have hfit : s.w[ws].data.length / s.ovs.toNat / s.cpb.toNat ≤ wcap :=
    (Nat.div_le_self ..).trans ((Nat.div_le_self ..).trans hs)
  have hdesprd := exec_of_rule_ok (i := .desprd wd ws wp) ((ruleDesprd_eq_ok ..).2 ⟨hf, hq, hn, hfit, rfl⟩)
  have hmean (v : List Sys2Proof.Num) (w : Nat) : ∀ k < (chunkMean num v w).length, (chunkMean num v w)[k]? =
      some (num.div (((v.drop (k * w)).take w).foldl num.add num.zero) (num.ofNat w)) :=
    fun k hk => chunkMean_getElem? num (hk.trans_eq (chunkMean_length ..))
  refine ⟨chunkMean num s.w[ws].data s.ovs.toNat, tileMul num _ s.w[wp].data s.cpb.toNat, _, hdesprd, chunkMean_length ..,
    hmean _ _, tileMul_length .., fun i y chip hy hchip => ?_, chunkMean_length .., hmean _ _⟩
  rw [tileMul_getElem?, hy, Option.map_some, List.getD_eq_getElem?_getD, hchip, Option.getD_some]

/-- Settles O45: one decision for each metric, or the fault where they do not fit. -/
theorem sliceCommand : Obligations.SliceCommand := by
  rintro bd ws s m rfl
  have hlen : (sliceBits num s.w[ws].data).length = s.w[ws].data.length := sliceBits_length ..
  refine ⟨fun hfit => ?fits, fun hlt => ?above⟩
  case fits =>
    refine ⟨_, exec_of_rule_ok (i := .slice bd ws) (setB_of_le bd _ s (hlen.trans_le hfit)), hlen, fun k y hy => ?_⟩
    exact (sliceBits_getElem? num s.w[ws].data k).trans (by rw [hy, Option.map_some])
  case above =>
    rw [← hlen]
    exact exec_of_rule_error (i := .slice bd ws) (setB_of_lt bd _ s (hlt.trans_eq hlen.symm))

end Sys2Proof.Machine
end

section
/-! SUPPORT. The despreading law in Num-real (43_spread_despread.md R189): the windowed mean and the despreader as sums over
samples, the despreader on spread and oversampled bits, and the decisions on its metrics. -/

namespace Sys2Proof.Machine

/-! ### The despreader as a linear form -/

/-- The sum of a window, sample by sample; past the end of the sequence the samples read 0. -/
theorem sum_take_drop (v : List ℝ) (a w : ℕ) : ((v.drop a).take w).sum = ∑ u ∈ Finset.range w, v.getD (a + u) 0 := by
  induction w with
  | zero => simp
  | succ w ih =>
    rw [List.take_add_one, List.sum_append, ih, Finset.sum_range_succ, List.getElem?_drop, List.getD_eq_getElem?_getD]
    cases v[a + w]? <;> simp

theorem meanOf_real (w : ℕ) (v : List ℝ) : meanOf realOps w v = v.sum / w := by
  rw [meanOf, sumOf_real]
  rfl

/-- Sample `k` of the windowed mean in Num-real (R184). -/
theorem chunkMean_real_getElem? {v : List ℝ} {w k : ℕ} (h : k < v.length / w) :
    (chunkMean realOps v w)[k]? = some ((∑ u ∈ Finset.range w, v.getD (k * w + u) 0) / w) := by
  rw [chunkMean_getElem? realOps h, meanOf_real, sum_take_drop]

/-- Sample `j` of block `k` of `n` samples lies within the blocks. -/
theorem block_index_lt {len n k j : ℕ} (hk : k < len) (hj : j < n) : k * n + j < len * n :=
  calc k * n + j < k * n + n := Nat.add_lt_add_left hj _
    _ = (k + 1) * n := (Nat.succ_mul ..).symm
    _ ≤ len * n := Nat.mul_le_mul_right n hk

theorem block_index_mod {n j : ℕ} (k : ℕ) (hj : j < n) : (k * n + j) % n = j := by
  rw [Nat.mul_comm, Nat.mul_add_mod, Nat.mod_eq_of_lt hj]

/-- Metric `k` of `len` bits of `n` chips of `f` samples: the correlation of their samples with the chips (R189). -/
theorem despread_real_getElem? {r q : List ℝ} {len n f k : ℕ} (hn : 1 ≤ n) (hf : 1 ≤ f) (hr : r.length = len * n * f)
    (hk : k < len) :
    (despread realOps r q f n)[k]? = some ((1 / ((n : ℝ) * f)) *
      ∑ j ∈ Finset.range n, ∑ u ∈ Finset.range f, q.getD j 0 * r.getD ((k * n + j) * f + u) 0) := by
  have hchips : r.length / f = len * n := by rw [hr, Nat.mul_div_cancel _ hf]
  have hproduct : ∀ j ∈ Finset.range n, (tileMul realOps (chunkMean realOps r f) q n).getD (k * n + j) 0 =
      (∑ u ∈ Finset.range f, q.getD j 0 * r.getD ((k * n + j) * f + u) 0) / f := by
    intro j hj
    have hj := Finset.mem_range.1 hj
    rw [List.getD_eq_getElem?_getD, tileMul_getElem?, chunkMean_real_getElem? (hchips ▸ block_index_lt hk hj),
      block_index_mod k hj, ← Finset.mul_sum]
    exact (div_mul_eq_mul_div ..).trans (congrArg (· / (f : ℝ)) (mul_comm ..))
  have hwhole : k < (tileMul realOps (chunkMean realOps r f) q n).length / n := by
    rw [tileMul_length, chunkMean_length, hchips, Nat.mul_div_cancel _ hn]
    exact hk
  rw [despread, chunkMean_real_getElem? hwhole, Finset.sum_congr rfl hproduct, ← Finset.sum_div]
  congr 1
  field_simp

/-! ### On spread and oversampled bits -/

/-- The level of a bit in Num-real (R182). -/
theorem lvl_real (bit : Bool) : lvl realOps bit = if bit then 1 else -1 := rfl

theorem hold_spreadBits_length {α : Type} (N : NumOps α) {v : BitSeq} {p : List α} {n : ℕ} (f : ℕ) (hv : v ≠ [])
    (hp : p.length = n) : (hold f (spreadBits N n v p)).length = v.length * n * f := by
  rw [hold_length, spreadBits_length N n v p hp, spreadLength_of_ne_nil n hv]

/-- Each of the `f` samples of chip `j` of bit `k` is the bit's level times the chip. -/
theorem hold_spreadBits_getD {v : BitSeq} {p : List ℝ} {n f k j u : ℕ} {bit : Bool} (hp : p.length = n)
    (hk : v[k]? = some bit) (hj : j < n) (hu : u < f) :
    (hold f (spreadBits realOps n v p)).getD ((k * n + j) * f + u) 0 = lvl realOps bit * p.getD j 0 := by
  have hchip : p[j]? = some (p.getD j 0) := by
    rw [List.getD_eq_getElem _ _ (by omega), List.getElem?_eq_getElem]
  rw [List.getD_eq_getElem?_getD, hold_getElem? f _ _ u hu, spreadBits_getElem? realOps hp hk hchip]
  rfl

/-- The despreader gives each bit's level times the correlation of the two chip sequences (R189). -/
theorem despread_hold_spreadBits {v : BitSeq} {p q : List ℝ} {n f : ℕ} (hv : v ≠ []) (hn : 1 ≤ n) (hf : 1 ≤ f)
    (hp : p.length = n) :
    despread realOps (hold f (spreadBits realOps n v p)) q f n =
      v.map fun bit => lvl realOps bit * ((∑ j ∈ Finset.range n, p.getD j 0 * q.getD j 0) / n) := by
  have hlen := hold_spreadBits_length realOps f hv hp
  refine List.ext_getElem? fun k => ?_
  by_cases hk : k < v.length
  · have hbit := List.getElem?_eq_getElem hk
    have hsum : ∀ j ∈ Finset.range n, (∑ u ∈ Finset.range f,
        q.getD j 0 * (hold f (spreadBits realOps n v p)).getD ((k * n + j) * f + u) 0) =
        f * (lvl realOps v[k] * (p.getD j 0 * q.getD j 0)) := by
      intro j hj
      rw [Finset.sum_congr rfl fun u hu => by
        rw [hold_spreadBits_getD hp hbit (Finset.mem_range.1 hj) (Finset.mem_range.1 hu)]]
      rw [Finset.sum_const, Finset.card_range, nsmul_eq_mul]
      ring
    rw [despread_real_getElem? hn hf hlen hk, Finset.sum_congr rfl hsum, ← Finset.mul_sum, ← Finset.mul_sum,
      List.getElem?_map, hbit, Option.map_some]
    congr 1
    field_simp
  · rw [List.getElem?_eq_none, List.getElem?_eq_none]
    · rw [List.length_map]; omega
    · rw [despread_length, hlen, Nat.mul_div_cancel _ hf, Nat.mul_div_cancel _ hn]; omega

/-- Chips correlate with themselves in every position. -/
theorem correlation_self {p : List ℝ} {n : ℕ} (hn : 1 ≤ n) (hp : p.length = n) (hchips : ∀ c ∈ p, c = 1 ∨ c = -1) :
    (∑ j ∈ Finset.range n, p.getD j 0 * p.getD j 0) / n = 1 := by
  have hone : ∀ j ∈ Finset.range n, p.getD j 0 * p.getD j 0 = 1 := by
    intro j hj
    have hj : j < p.length := hp ▸ Finset.mem_range.1 hj
    rw [List.getD_eq_getElem _ _ hj]
    obtain h | h := hchips _ (List.getElem_mem hj) <;> norm_num [h]
  have hn0 : (n : ℝ) ≠ 0 := Nat.cast_ne_zero.2 (by omega)
  rw [Finset.sum_congr rfl hone, Finset.sum_const, Finset.card_range, nsmul_eq_mul, mul_one, div_self hn0]

/-! ### The decisions (R188) -/

theorem sliceBits_levels (v : BitSeq) (rho : ℝ) :
    sliceBits realOps (v.map fun bit => lvl realOps bit * rho) = v.map fun bit => decide (0 < lvl realOps bit * rho) := by
  rw [sliceBits, List.map_map]
  rfl

/-- With a positive correlation the decision on a bit's metric is the bit. -/
theorem decide_level_of_pos (bit : Bool) {rho : ℝ} (h : 0 < rho) : decide (0 < lvl realOps bit * rho) = bit := by
  cases bit <;> simp [lvl_real, h, h.le]

/-- With a negative one it is the complement. -/
theorem decide_level_of_neg (bit : Bool) {rho : ℝ} (h : rho < 0) : decide (0 < lvl realOps bit * rho) = !bit := by
  cases bit <;> simp [lvl_real, h, h.le]

/-- Settles O46: the linear form, its value on spread bits, and the sign of each metric. -/
theorem despreadingLaw : Obligations.DespreadingLaw := by
  rintro v p q n f rho hv hn hf hp hq hchips - rfl
  have hmetrics := despread_hold_spreadBits (q := q) hv hn hf hp
  generalize hrho : (∑ j ∈ Finset.range n, p.getD j 0 * q.getD j 0) / (n : ℝ) = rho at hmetrics ⊢
  refine ⟨fun r hr k hk => despread_real_getElem? hn hf hr hk, hmetrics, ?equal, fun hpos => ?pos, fun hzero => ?zero,
    fun hneg => ?neg⟩
  case equal =>
    rintro rfl
    rw [← hrho, correlation_self hn hp hchips]
  all_goals rw [hmetrics, sliceBits_levels]
  case pos => exact (List.map_congr_left fun bit _ => decide_level_of_pos bit hpos).trans (List.map_id _)
  case zero => exact List.map_congr_left fun bit _ => by rw [hzero, mul_zero, decide_eq_false (lt_irrefl _)]
  case neg => exact List.map_congr_left fun bit _ => decide_level_of_neg bit hneg

end Sys2Proof.Machine
end

section
/-! SUPPORT. A completed `RUN` (47_system_run.md R252, R257 to R259): the state of the buffers and metadata it leaves, in which
each of its commands makes again the buffer that stands there, with the lengths of the buffers and of the taps. -/

namespace Sys2Proof.Machine

variable {α : Type} {P : Params α}

/-! ### Where `RUN` completes (R256) -/

/-- The premises of a `RUN` without a fault, in the core instance: a positive sample rate rules out `OVS = 0`, and the last
capacity check implies the two before it. -/
theorem runFits_of_oversampled {s : State} (hb : readB 0 s ≠ []) (hs : s.scheme.toNat ≤ 3) (hm : s.nmode.toNat ≤ 1)
    (hn : 1 ≤ s.cpb.toNat) (hcode : codeLength s.scheme.toNat (readB 0 s).length ≤ bcap)
    (hfit : codeLength s.scheme.toNat (readB 0 s).length * s.cpb.toNat * s.ovs.toNat ≤ wcap)
    (hrate : num.gt0 (runRate machine s) = true) : RunFits machine s := by
  have hovs := ovs_ne_zero_of_rate s hrate
  have hcodePos := Nat.pos_of_ne_zero (codeLength_pos s.scheme.toNat _ (mt List.length_eq_zero_iff.1 hb))
  have hspread := (Nat.le_mul_of_pos_right _ (Nat.pos_of_ne_zero hovs)).trans hfit
  exact {
    scheme := hs
    code := hcode
    chips := (Nat.le_mul_of_pos_left _ hcodePos).trans hspread
    spread := hspread
    oversampled := hfit
    ovs := hovs
    rate := hrate
    nmode := hm
    cpb := Nat.ne_of_gt hn }

/-! ### The decoded bits (40_fec_bitcoding.md R121, R131) -/

/-- As many bits as a payload's code has, decoded with the metadata of its encoder, are as many as the payload's. -/
theorem decodeOf_length_of_codeLength {scheme padlen factor payload : Nat} {r : BitSeq} (hs : scheme ≤ 3)
    (hr : r.length = codeLength scheme payload) (hpad : scheme = 3 → padlen = hamPad payload)
    (hfactor : scheme = 2 → factor = 3) : (decodeOf scheme padlen factor payload r).length = payload := by
  match scheme with
  | 0 =>
    have hr : r.length = payload := hr
    simp [decodeOf, hr]
  | 1 =>
    have hr : r.length = 2 * payload := hr
    simp [decodeOf, hr]
  | 2 =>
    have hr : r.length = 3 * payload := hr
    simp [decodeOf, hfactor, hr]
  | 3 =>
    have hr : r.length = 7 * ((payload + 3) / 4) := hr
    have hdata := add_hamPad payload
    simp only [decodeOf, hamDecode, trunc_length, List.length_take, hamBlocks_length, hr, hpad]
    omega

/-- `B3` has as many bits as `B0` (R259), where `PAYLOAD` can hold their number. -/
theorem runDecoded_length {s : State.Of α} (hb : readB 0 s ≠ []) (hfit : RunFits P s) (hlt : (readB 0 s).length < 2 ^ 64) :
    (runDecoded P s).length = (readB 0 s).length := by
  have hpayload : (BitVec.ofNat 64 (readB 0 s).length).toNat = (readB 0 s).length :=
    (BitVec.toNat_ofNat ..).trans (Nat.mod_eq_of_lt hlt)
  have hpad : (BitVec.ofNat 64 (hamPad (readB 0 s).length)).toNat = hamPad (readB 0 s).length :=
    (BitVec.toNat_ofNat ..).trans (Nat.mod_eq_of_lt ((hamPad_lt _).trans (by decide)))
  rw [runDecoded, hpayload]
  refine decodeOf_length_of_codeLength hfit.scheme (runHard_length hb hfit) (fun h => ?_) (fun h => ?_)
  · rw [runPadlen, if_pos h, hpad]
  · rw [runFactor, if_pos h]
    rfl

/-! ### The buffers and the metadata that `RUN` leaves -/

/-- The state before a `RUN` with the buffers and the metadata that it leaves, the draws not yet taken. -/
def runBuffers (P : Params α) (s : State.Of α) : State.Of α := { runScratch P s with draws := s.draws }

theorem readB_zero_runBuffers (s : State.Of α) : readB 0 (runBuffers P s) = readB 0 s := by simp [readB, runBuffers, runScratch]

theorem readB_one_runBuffers (s : State.Of α) : readB 1 (runBuffers P s) = runCode s := by simp [readB, runBuffers, runScratch]

theorem readB_two_runBuffers (s : State.Of α) : readB 2 (runBuffers P s) = runHard P s := by simp [readB, runBuffers, runScratch]

theorem readB_three_runBuffers (s : State.Of α) : readB 3 (runBuffers P s) = runDecoded P s := by
  simp [readB, runBuffers, runScratch]

/-- `RUN` writes no bit buffer from `B4` on. -/
theorem readB_runBuffers_of_ge (s : State.Of α) {d : BBuf} (h : 4 ≤ d.val) : readB d (runBuffers P s) = readB d s := by
  have h1 : (1 : Nat) ≠ d := by omega
  have h2 : (2 : Nat) ≠ d := by omega
  have h3 : (3 : Nat) ≠ d := by omega
  simp [readB, runBuffers, runScratch, h1, h2, h3]

/-- A bit buffer replaced by what it holds. -/
theorem eq_set_readB {d : BBuf} {v : BitSeq} {s : State.Of α} (h : readB d s = v) : s = { s with b := s.b.set d v } := by
  rw [← h, readB, Fin.getElem_fin, Vector.set_getElem_self]

/-- A sample buffer replaced by what it holds. -/
theorem eq_set_readW {d : WBuf} {v : Wave.Of α} {s : State.Of α} (h : readW d s = v) : s = { s with w := s.w.set d v } := by
  rw [← h, readW, Fin.getElem_fin, Vector.set_getElem_self]

/-! ### Its commands executed again (R252) -/

/-- Step 1: the code stands in `B1` and its metadata in the registers. -/
theorem ruleFecenc_runBuffers {s : State.Of α} (hfit : RunFits P s) :
    ruleFecenc P 1 0 (runBuffers P s) = .ok (runBuffers P s) := by
  have hpadlen : runPadlen s = if s.scheme.toNat = 3 then BitVec.ofNat 64 (hamPad (readB 0 s).length) else runPadlen s := by
    unfold runPadlen
    split <;> rfl
  have hfactor : runFactor s = if s.scheme.toNat = 2 then 3 else runFactor s := by
    unfold runFactor
    split <;> rfl
  rw [ruleFecenc_eq_ok, readB_zero_runBuffers]
  exact ⟨hfit.scheme, hfit.code, (eq_set_readB (readB_one_runBuffers s)).trans (congrArg₂ (fun p r =>
    { runBuffers P s with b := (runBuffers P s).b.set 1 (runCode s), padlen := p, repeatFactor := r }) hpadlen hfactor)⟩

/-- Step 3: the chips of `B1` and `W0` stand in `W2`. -/
theorem ruleSpread_runBuffers {s : State.Of α} (hb : readB 0 s ≠ []) (hfit : RunFits P s) :
    ruleSpread P 2 1 0 (runBuffers P s) = .ok (runBuffers P s) := by
  have hlen : spreadLength s.cpb.toNat (runCode s) ≤ P.wcap := by
    rw [← spreadBits_length P.num _ _ _ (chipGenOf_length P s.seedtx _)]
    exact (runChips_length s hb).trans_le hfit.spread
  rw [ruleSpread_eq_ok, readB_one_runBuffers]
  exact ⟨chipGenOf_length .., hlen, eq_set_readW rfl⟩

/-- Step 4: the oversampled chips of `W2` stand in `W3`. -/
theorem ruleOvsamp_runBuffers {s : State.Of α} (hb : readB 0 s ≠ []) (hfit : RunFits P s) :
    ruleOvsamp P 3 2 (runBuffers P s) = .ok (runBuffers P s) :=
  (ruleOvsamp_eq_ok ..).2
    ⟨(congrArg (· * s.ovs.toNat) (runChips_length s hb)).trans_le hfit.oversampled, eq_set_readW rfl⟩

/-- The signals of `W3` to `W6` fit. -/
theorem runBase_length_le {s : State.Of α} (hb : readB 0 s ≠ []) (hfit : RunFits P s) : (runBase P s).length ≤ P.wcap :=
  (runBase_length s hb).trans_le hfit.oversampled

/-- Step 5: the modulated `W3` stands in `W4`. -/
theorem ruleModul_runBuffers {s : State.Of α} (hb : readB 0 s ≠ []) (hfit : RunFits P s) :
    ruleModul P 4 3 (runBuffers P s) = .ok (runBuffers P s) :=
  (mixCarrier_eq_ok ..).2 ⟨hfit.rate, runBase_length_le hb hfit, eq_set_readW rfl⟩

/-- Step 6: the noisy `W4` stands in `W5`, and the draws are the ones that `RUN` took (log 8). -/
theorem ruleAddnoise_runBuffers {s : State.Of α} (hb : readB 0 s ≠ []) (hfit : RunFits P s) :
    ruleAddnoise P 5 4 (runBuffers P s) = .ok { runBuffers P s with draws := (runScratch P s).draws } := by
  refine (ruleAddnoise_eq_ok ..).2 ⟨hfit.nmode, fun _ _ _ => hfit.rate,
    (runModulated_length s).trans_le (runBase_length_le hb hfit), ?_⟩
  have hnoise : noisySamples P (runBuffers P s) ⟨runModulated P s, runRate P s⟩ = runChannel P s :=
    noisySamples_update s (runBuffers P s).b (runWaves P s) (runBuffers P s).payload (runPadlen s) (runFactor s) _
  exact congrArg (fun u => { u with draws := (runScratch P s).draws })
    (eq_set_readW (s := runBuffers P s) (d := 5) (congrArg (Wave.Of.mk · (runRate P s)) hnoise.symm))

/-- Step 7: the demodulated `W5` stands in `W6`. -/
theorem ruleDemod_runBuffers {s : State.Of α} (hb : readB 0 s ≠ []) (hfit : RunFits P s) :
    ruleDemod P 6 5 (runBuffers P s) = .ok (runBuffers P s) :=
  (mixCarrier_eq_ok ..).2 ⟨hfit.rate, (runChannel_length s).trans_le (runBase_length_le hb hfit), eq_set_readW rfl⟩

/-- Step 8: the metrics of `W6` and the chips of `W1` stand in `W7`. -/
theorem ruleDesprd_runBuffers {s : State.Of α} (hb : readB 0 s ≠ []) (hfit : RunFits P s) :
    ruleDesprd P 7 6 1 (runBuffers P s) = .ok (runBuffers P s) := by
  have hlen : (runDemodulated P s).length / s.ovs.toNat / s.cpb.toNat ≤ P.wcap := by
    rw [runDemodulated_length]
    exact (Nat.div_le_self ..).trans ((Nat.div_le_self ..).trans (runBase_length_le hb hfit))
  exact (ruleDesprd_eq_ok ..).2 ⟨hfit.ovs, chipGenOf_length .., hfit.cpb, hlen, eq_set_readW rfl⟩

/-- Step 9: the decisions on `W7` stand in `B2`. -/
theorem ruleSlice_runBuffers {s : State.Of α} (hb : readB 0 s ≠ []) (hfit : RunFits P s) :
    ruleSlice P 2 7 (runBuffers P s) = .ok (runBuffers P s) :=
  (setB_eq_ok ..).2 ⟨(runHard_length hb hfit).trans_le hfit.code, eq_set_readB (readB_two_runBuffers s)⟩

/-- Step 10: what `B2` decodes to with the metadata registers stands in `B3`. -/
theorem ruleFecdec_runBuffers {s : State.Of α} (hb : readB 0 s ≠ []) (hfit : RunFits P s) :
    ruleFecdec P 3 2 (runBuffers P s) = .ok (runBuffers P s) := by
  have hfactor : s.scheme.toNat = 2 → runFactor s ≠ 0 := fun h => by
    rw [runFactor, if_pos h]
    decide
  rw [ruleFecdec_eq_ok, readB_two_runBuffers]
  exact ⟨hfit.scheme, hfactor, (decodeOf_length_le ..).trans ((runHard_length hb hfit).trans_le hfit.code),
    eq_set_readB (readB_three_runBuffers s)⟩

/-- Each command of `RUN` but `ADDNOISE` makes again the buffer that stands there. -/
theorem ruleIn_runBuffers {s : State.Of α} (hb : readB 0 s ≠ []) (hfit : RunFits P s) :
    ∀ i ∈ [Instr.fecenc 1 0, .spread 2 1 0, .ovsamp 3 2, .modul 4 3, .demod 6 5, .desprd 7 6 1, .slice 2 7, .fecdec 3 2],
      ruleIn P i (runBuffers P s) = .ok (runBuffers P s) := by
  simp only [List.forall_mem_cons]
  exact ⟨ruleFecenc_runBuffers hfit, ruleSpread_runBuffers hb hfit, ruleOvsamp_runBuffers hb hfit,
    ruleModul_runBuffers hb hfit, ruleDemod_runBuffers hb hfit, ruleDesprd_runBuffers hb hfit, ruleSlice_runBuffers hb hfit,
    ruleFecdec_runBuffers hb hfit, List.forall_mem_nil _⟩

/-! ### The taps (R257) -/

theorem readB_zero_runScratch (s : State.Of α) : readB 0 (runScratch P s) = readB 0 s := readB_zero_runBuffers s

/-- The source tap holds each payload bit for all samples of a code bit. -/
theorem tapsOf_zero_length (s : State.Of α) :
    (tapsOf P (runScratch P s))[0].data.length = (readB 0 s).length * (s.cpb.toNat * s.ovs.toNat) :=
  (hold_length ..).trans (by rw [List.length_map, readB_zero_runScratch]; rfl)

/-- All taps fit: the payload is no longer than its code. -/
theorem tapsOf_runScratch_length_le {s : State.Of α} (hb : readB 0 s ≠ []) (hfit : RunFits P s) (j : Fin 6) :
    (tapsOf P (runScratch P s))[j].data.length ≤ P.wcap := by
  by_cases hj : j = 0
  · subst hj
    calc (tapsOf P (runScratch P s))[0].data.length
        = (readB 0 s).length * (s.cpb.toNat * s.ovs.toNat) := tapsOf_zero_length s
      _ ≤ codeLength s.scheme.toNat (readB 0 s).length * (s.cpb.toNat * s.ovs.toNat) :=
        Nat.mul_le_mul_right _ (le_codeLength ..)
      _ ≤ P.wcap := (Nat.mul_assoc ..).symm.trans_le hfit.oversampled
  · exact (tapsOf_runScratch_length hb hfit j hj).trans_le (runBase_length_le hb hfit)

/-- The elements of a held and mapped sequence. -/
theorem hold_map_getElem? {β γ : Type} (g : β → γ) (v : List β) {h : Nat} (i : Nat) {m : Nat} (hm : m < h) :
    (hold h (v.map g))[i * h + m]? = v[i]?.map g := by
  rw [hold_getElem? h _ i m hm, List.getElem?_map]

/-! ### The whole of `RUN` -/

theorem ruleRun_of_fits {s : State.Of α} (hb : readB 0 s ≠ []) (hfit : RunFits P s) : ruleRun P s = .ok (runResult P s) :=
  (ruleRun_eq_ok ..).2 ⟨hb, _, (runPipeline_eq_ok s _ hb).2 ⟨hfit, rfl⟩, tapsOf_runScratch_length_le hb hfit, rfl⟩

theorem bitsDiffer_eq_true_iff (v v' : BitSeq) : bitsDiffer v v' = true ↔ v ≠ v' := bne_iff_ne

/-- Settles O53: `RUN` leaves `runResult`, whose buffers are those of `runBuffers`. -/
theorem runCompletes : Obligations.RunCompletes := by
  rintro s n f L h rate rfl rfl rfl rfl hdef hb hs hm hn hcode hwcap hrate
  -- by the equation of `runRate`: compared by evaluation, the two rates run into the arithmetic of binary64
  obtain rfl : rate = runRate machine s := by rw [hdef, runRate]
  have hfit : RunFits machine s := runFits_of_oversampled hb hs hm hn hcode hwcap hrate
  have hlt : (readB 0 s).length < 2 ^ 64 := ((le_codeLength ..).trans hcode).trans_lt bcap_lt_word
  have hbase : (runBase machine s).length = _ := runBase_length s hb
  have htap (j : Fin 6) (hj : j ≠ 0) : (tapsOf machine (runScratch machine s))[j].data.length =
      codeLength s.scheme.toNat s.b[0].length * (s.cpb.toNat * s.ovs.toNat) := by
    rw [tapsOf_runScratch_length hb hfit j hj, hbase, Nat.mul_assoc]
    rfl
  have hkept (d : BBuf) (hd : 4 ≤ d.val) := readB_runBuffers_of_ge (P := machine) s hd
  refine ⟨(runBuffers machine s).b, runWaves machine s, tapsOf machine (runScratch machine s), _, runPadlen s, runFactor s, _,
    runBuffers machine s, rfl, exec_of_rule_ok (i := .run) (ruleRun_of_fits hb hfit), ?kept, ?bitLengths, ?waveLengths,
    ⟨rfl, rfl, rfl, rfl, rfl, rfl, rfl, rfl⟩, ?padlen, ?factor, ⟨rfl, rfl⟩,
    fun i hi => exec_of_rule_ok (ruleIn_runBuffers hb hfit i hi),
    exec_of_rule_ok (i := .addnoise 5 4) (ruleAddnoise_runBuffers hb hfit), tapsOf_rate _,
    ⟨tapsOf_zero_length s, htap 1 (by decide), htap 2 (by decide), htap 3 (by decide), htap 4 (by decide),
      htap 5 (by decide)⟩,
    ⟨rfl, rfl, rfl⟩, fun i m hm => ?held, bitsDiffer_eq_true_iff ..⟩
  case kept =>
    exact ⟨readB_zero_runBuffers s, hkept 4 (by decide), hkept 5 (by decide), hkept 6 (by decide), hkept 7 (by decide)⟩
  case bitLengths =>
    exact ⟨(congrArg List.length (readB_one_runBuffers s)).trans (runCode_length s),
      (congrArg List.length (readB_two_runBuffers s)).trans (runHard_length hb hfit),
      (congrArg List.length (readB_three_runBuffers s)).trans (runDecoded_length hb hfit hlt)⟩
  case waveLengths =>
    exact ⟨chipGenOf_length .., chipGenOf_length .., runChips_length s hb, hbase, (runModulated_length s).trans hbase,
      (runChannel_length s).trans hbase, (runDemodulated_length s).trans hbase,
      runMetrics_length s hb hfit.ovs hfit.cpb⟩
  case padlen =>
    simp only [← BitVec.toNat_inj]
    rfl
  case factor =>
    simp only [← BitVec.toNat_inj]
    rfl
  case held =>
    exact ⟨hold_map_getElem? _ (readB 0 (runScratch machine s)) i hm, hold_getElem? _ _ i m hm,
      hold_map_getElem? _ (readB 2 (runScratch machine s)) i hm⟩

end Sys2Proof.Machine
end

section
/-! SUPPORT. The carrier commands (44_carrier.md): the modulated samples one by one and where the commands raise, and in
Num-real the weight of a bit under the squared carrier, which is positive, so that every decision is the bit sent (R204). -/

namespace Sys2Proof.Machine

variable {α : Type} {P : Params α}

/-! ### The commands (R201, R202) -/

/-- Sample `i` of the product takes sample `i` of the carrier. -/
theorem carrierMul_getElem? (N : NumOps α) (fc rate : α) (v : List α) (i : Nat) :
    (carrierMul N fc rate v)[i]? = v[i]?.map fun y => N.mul y (carrierAt N fc rate i) := by
  by_cases hi : i < v.length
  · simp [carrierMul, carrier, hi]
  · rw [List.getElem?_eq_none (by simpa using hi), List.getElem?_eq_none (by simpa using hi), Option.map_none]

theorem mixCarrier_of_rate_not_pos (wd : WBuf) {ws : WBuf} {s : State.Of α} (h : P.num.gt0 (readW ws s).rate = false) :
    mixCarrier P wd ws s = .error ⟨.operand, 0⟩ := if_neg (Bool.not_eq_true _ ▸ h)

/-- Settles O47: both commands are the one transition `mixCarrier`, which completes or raises by the sign of the rate. -/
theorem carrierCommands : Obligations.CarrierCommands := by
  rintro wd ws s v rfl
  refine ⟨fun hrate hfit => ?product, fun hrate => ?raises⟩
  case product =>
    have hmix := (mixCarrier_eq_ok (P := machine) wd ws s _).2 ⟨hrate, hfit, rfl⟩
    exact ⟨carrierMul num s.fc s.w[ws].rate s.w[ws].data, exec_of_rule_ok (i := .modul wd ws) hmix,
      exec_of_rule_ok (i := .demod wd ws) hmix, carrierMul_length ..,
      fun i y hy => (carrierMul_getElem? ..).trans (by rw [hy, Option.map_some, carrierAt])⟩
  case raises =>
    have hmix := mixCarrier_of_rate_not_pos (P := machine) wd hrate
    exact ⟨exec_of_rule_error (i := .modul wd ws) hmix, exec_of_rule_error (i := .demod wd ws) hmix⟩

/-! ### The zeros of the carrier in Num-real -/

/-- The phase of sample `i` is `i` phase steps of `2 * pi * fc / rate`. -/
theorem carrierAt_real (fc rate : ℝ) (i : ℕ) : carrierAt realOps fc rate i = Real.cos (i * (2 * Real.pi * fc / rate)) := by
  simp only [carrierAt, realOps, Nat.cast_ofNat]
  congr 1
  ring

/-- Where the sine of an angle vanishes, so does that of its multiples. -/
theorem sin_natCast_mul_eq_zero {x : ℝ} (h : Real.sin x = 0) (i : ℕ) : Real.sin (i * x) = 0 := by
  obtain ⟨m, rfl⟩ := Real.sin_eq_zero_iff.1 h
  exact Real.sin_eq_zero_iff.2 ⟨i * m, by push_cast; ring⟩

/-- Two consecutive samples of the carrier are not both zero: else the phase step were a whole multiple of `pi`, and so
every phase (R204). -/
theorem carrierAt_succ_ne_zero {fc rate : ℝ} {i : ℕ} (h : carrierAt realOps fc rate i = 0) :
    carrierAt realOps fc rate (i + 1) ≠ 0 := by
  simp only [carrierAt_real] at h ⊢
  generalize 2 * Real.pi * fc / rate = step at h ⊢
  intro hnext
  have hstep : Real.sin step = 0 := by
    rw [show step = ((i + 1 : ℕ) : ℝ) * step - i * step by push_cast; ring, Real.sin_sub, h, hnext, mul_zero, zero_mul,
      sub_zero]
  have hsin := sin_natCast_mul_eq_zero hstep i
  simpa [h, hsin] using Real.sin_sq_add_cos_sq (i * step)

/-! ### The weight of a bit (R204) -/

/-- `rho_k` with equal chips: the mean of the squared carrier over the `n * f` samples of bit `k` (R204). -/
noncomputable def carrierWeight (fc rate : ℝ) (n f k : ℕ) : ℝ :=
  (1 / ((n : ℝ) * f)) *
    ∑ j ∈ Finset.range n, ∑ u ∈ Finset.range f, carrierAt realOps fc rate ((k * n + j) * f + u) ^ 2

/-- With two samples or more in a bit the weight is positive: the first two do not both vanish. -/
theorem carrierWeight_pos (fc rate : ℝ) {n f : ℕ} (k : ℕ) (hn : 1 ≤ n) (hf : 1 ≤ f) (hnf : 2 ≤ n * f) :
    0 < carrierWeight fc rate n f k := by
  have hinner : ∀ j ∈ Finset.range n,
      0 ≤ ∑ u ∈ Finset.range f, carrierAt realOps fc rate ((k * n + j) * f + u) ^ 2 :=
    fun j _ => Finset.sum_nonneg fun u _ => sq_nonneg _
  have hscale : (0 : ℝ) < 1 / ((n : ℝ) * f) := by positivity
  refine mul_pos hscale ((Finset.sum_nonneg hinner).lt_of_ne' fun hsum => ?_)
  have hzero (i : ℕ) (hi : i < n * f) : carrierAt realOps fc rate (k * n * f + i) = 0 := by
    have hchip := (Finset.sum_eq_zero_iff_of_nonneg hinner).1 hsum (i / f)
      (Finset.mem_range.2 (Nat.div_lt_of_lt_mul (hi.trans_eq (Nat.mul_comm ..))))
    have hsample := (Finset.sum_eq_zero_iff_of_nonneg fun u _ => sq_nonneg _).1 hchip (i % f)
      (Finset.mem_range.2 (Nat.mod_lt i hf))
    rwa [Nat.add_mul, Nat.add_assoc, Nat.div_add_mod', sq_eq_zero_iff] at hsample
  exact carrierAt_succ_ne_zero (hzero 0 (by omega)) (hzero 1 hnf)

/-! ### The chain from bits to bits -/

/-- `DEMOD` after `MODUL` weights each sample by the squared carrier (R203). -/
theorem carrierMul_carrierMul_getD (fc rate : ℝ) (v : List ℝ) (i : ℕ) :
    (carrierMul realOps fc rate (carrierMul realOps fc rate v)).getD i 0 = v.getD i 0 * carrierAt realOps fc rate i ^ 2 := by
  simp only [List.getD_eq_getElem?_getD, carrierMul_getElem?]
  cases v[i]? with
  | none => simp
  | some y =>
    simp only [realOps, Option.map_some, Option.getD_some]
    ring

/-- What the despreader of the chain without noise receives: the bits spread, oversampled, modulated and demodulated (R204). -/
noncomputable def linkSamples (fc rate : ℝ) (n f : ℕ) (v : BitSeq) (p : List ℝ) : List ℝ :=
  carrierMul realOps fc rate (carrierMul realOps fc rate (hold f (spreadBits realOps n v p)))

section

variable {v : BitSeq} {p : List ℝ} {n f k : ℕ} (fc rate : ℝ)

theorem linkSamples_length (hv : v ≠ []) (hp : p.length = n) :
    (linkSamples fc rate n f v p).length = v.length * n * f := by
  rw [linkSamples, carrierMul_length, carrierMul_length, hold_spreadBits_length realOps f hv hp]

/-- Each received sample is the bit's level times the chip, weighted by the squared carrier. -/
theorem linkSamples_getD {j u : ℕ} {bit : Bool} (hp : p.length = n) (hbit : v[k]? = some bit) (hj : j < n) (hu : u < f) :
    (linkSamples fc rate n f v p).getD ((k * n + j) * f + u) 0 =
      lvl realOps bit * p.getD j 0 * carrierAt realOps fc rate ((k * n + j) * f + u) ^ 2 := by
  rw [linkSamples, carrierMul_carrierMul_getD, hold_spreadBits_getD hp hbit hj hu]

/-- A chip is its own inverse. -/
theorem chip_mul_self {j : ℕ} (hj : j < p.length) (hchips : ∀ c ∈ p, c = 1 ∨ c = -1) : p.getD j 0 * p.getD j 0 = 1 := by
  rw [List.getD_eq_getElem _ _ hj]
  exact mul_self_eq_one_iff.2 (hchips _ (List.getElem_mem hj))

/-- The metric of a bit sent over the carrier is its level times its weight (R204). -/
theorem despread_linkSamples_getElem? {bit : Bool} (hn : 1 ≤ n) (hf : 1 ≤ f) (hp : p.length = n)
    (hchips : ∀ c ∈ p, c = 1 ∨ c = -1) (hbit : v[k]? = some bit) :
    (despread realOps (linkSamples fc rate n f v p) p f n)[k]? = some (lvl realOps bit * carrierWeight fc rate n f k) := by
  have hv : v ≠ [] := by rintro rfl; cases hbit
  have hk : k < v.length := (List.getElem?_eq_some_iff.1 hbit).1
  have hsample : ∀ j ∈ Finset.range n, ∀ u ∈ Finset.range f,
      p.getD j 0 * (linkSamples fc rate n f v p).getD ((k * n + j) * f + u) 0 =
        lvl realOps bit * carrierAt realOps fc rate ((k * n + j) * f + u) ^ 2 := by
    intro j hj u hu
    have hj := Finset.mem_range.1 hj
    rw [linkSamples_getD fc rate hp hbit hj (Finset.mem_range.1 hu)]
    linear_combination lvl realOps bit * carrierAt realOps fc rate ((k * n + j) * f + u) ^ 2 *
      chip_mul_self (hp ▸ hj) hchips
  rw [despread_real_getElem? hn hf (linkSamples_length fc rate hv hp) hk,
    Finset.sum_congr rfl fun j hj => Finset.sum_congr rfl fun u hu => hsample j hj u hu]
  simp only [← Finset.mul_sum]
  rw [carrierWeight, mul_left_comm]

end

/-- Settles O48: each metric is its bit's level times a positive weight. That the rate is positive is not needed: in Num-real
a division by 0 is 0, and a carrier of rate 0 is constant. -/
theorem linkRecoversEveryBit : Obligations.LinkRecoversEveryBit := by
  intro v p n f fc chiprate rate hv hn hf hnf hp hchips _ _
  change sliceBits realOps (despread realOps (linkSamples fc rate n f v p) p f n) = v
  refine List.ext_getElem? fun k => ?_
  rw [sliceBits_getElem?]
  cases hbit : v[k]? with
  | some bit =>
    rw [despread_linkSamples_getElem? fc rate hn hf hp hchips hbit, Option.map_some]
    exact congrArg some (decide_level_of_pos bit (carrierWeight_pos fc rate k hn hf hnf))
  | none =>
    have hk : v.length ≤ k := List.getElem?_eq_none_iff.1 hbit
    rw [List.getElem?_eq_none, Option.map_none]
    rwa [despread_length, linkSamples_length fc rate hv hp, Nat.mul_div_cancel _ hf, Nat.mul_div_cancel _ hn]

end Sys2Proof.Machine
end

section
/-! SUPPORT. The noise commands (45_noise.md): the samples each adds, one by one, where each copies, adds or raises, and from
these the commands and their dispatch on `NMODE`. -/

namespace Sys2Proof.Machine

variable {α : Type} {P : Params α}

/-! ### The unit samples (R211, R212) -/

/-- The unit samples are the seeded generator's, or fresh draws. -/
theorem gauss_samples (n : Nat) (s : State.Of α) :
    (gauss P n s).1 = if s.nseeden then gaussGenOf P s.nseed n else drawsOf P s.draws n := by
  unfold gauss
  split <;> rfl

/-- What `SetW` of `n` noisy samples leaves: the samples, and the draws taken for them. -/
theorem setW_gauss (wd : WBuf) {n : Nat} {o : List α} (rate : α) (s : State.Of α) (ho : o.length ≤ P.wcap) :
    setW P wd o rate (gauss P n s).2 = .ok { s with
      w := s.w.set wd ⟨o, rate⟩, draws := if s.nseeden then s.draws else s.draws + n } := by
  rw [setW_of_le wd o rate _ ho, gauss_state, gauss_draws]

/-! ### White noise (R213) -/

theorem whiteNoise_getElem? (N : NumOps α) (pow : α) {v g : List α} {i : Nat} {y z : α} (hy : v[i]? = some y)
    (hz : g[i]? = some z) : (whiteNoise N pow v g)[i]? = some (N.add y (N.mul (N.sqrt pow) z)) :=
  List.getElem?_zipWith_eq_some.2 ⟨y, z, hy, hz, rfl⟩

theorem whiteNoise_gauss_length (N : NumOps α) (pow : α) (v : List α) (s : State.Of α) :
    (whiteNoise N pow v (gauss P v.length s).1).length = v.length := by
  rw [whiteNoise_length, gauss_length, Nat.min_self]

/-- Without power or samples `NOISEW` copies. -/
theorem ruleNoisew_of_quiet (wd : WBuf) {ws : WBuf} {s : State.Of α} (hfit : (readW ws s).data.length ≤ P.wcap)
    (h : P.num.gt0 s.npow = false ∨ (readW ws s).data = []) :
    ruleNoisew P wd ws s = .ok { s with w := s.w.set wd (readW ws s) } :=
  (if_neg (by rintro ⟨hpow, hdata⟩; simp [hpow, hdata] at h)).trans (setW_of_le _ _ _ _ hfit)

/-- With both it adds white noise. -/
theorem ruleNoisew_of_active (wd : WBuf) {ws : WBuf} {s : State.Of α} (hfit : (readW ws s).data.length ≤ P.wcap)
    (hpow : P.num.gt0 s.npow = true) (hdata : (readW ws s).data ≠ []) :
    ruleNoisew P wd ws s = .ok { s with
      w := s.w.set wd ⟨whiteNoise P.num s.npow (readW ws s).data (gauss P (readW ws s).data.length s).1, (readW ws s).rate⟩
      draws := if s.nseeden then s.draws else s.draws + (readW ws s).data.length } :=
  (if_pos ⟨hpow, hdata⟩).trans (setW_gauss wd _ s ((whiteNoise_gauss_length ..).trans_le hfit))

/-- Settles O49: `NOISEW` copies, or adds white noise sample by sample. -/
theorem whiteNoiseCommand : Obligations.WhiteNoiseCommand := by
  rintro wd ws s v g rfl hfit rfl
  refine ⟨fun hquiet => exec_of_rule_ok (i := .noisew wd ws) (ruleNoisew_of_quiet wd hfit hquiet), fun hpow hdata => ?_⟩
  refine ⟨_, exec_of_rule_ok (i := .noisew wd ws) (ruleNoisew_of_active wd hfit hpow hdata), whiteNoise_gauss_length ..,
    fun i y z hy hz => whiteNoise_getElem? num s.npow hy ?_⟩
  rwa [gauss_samples]

/-! ### Shaped noise (R214, R216, R218) -/

/-- The distance of two indices is the sum of their two truncated differences, one of which is 0. -/
theorem indexDistance_eq (t u : Nat) : indexDistance t u = t - u + (u - t) := by
  unfold indexDistance
  split <;> omega

/-- A sequence with its indices, as a map over the indices. -/
theorem zipIdx_eq_map_range (g : List α) (d : α) : g.zipIdx = (List.range g.length).map fun u => (g.getD u d, u) := by
  refine List.ext_getElem (by simp) fun u hu _ => ?_
  have hu : u < g.length := by simpa using hu
  simp [hu]

/-- The terms of the shaping sum, over indices. -/
theorem shapeTerms_eq (N : NumOps α) (g : List α) (keep : Nat → Bool) (t : Nat) :
    shapeTerms N g keep t = ((List.range g.length).filter keep).flatMap fun k =>
      (List.range g.length).map fun u => shapeTerm N g.length t k u (g.getD u N.zero) := by
  simp only [shapeTerms, zipIdx_eq_map_range g N.zero, List.map_map, Function.comp_def]

/-- The shaping sum adds bin after bin, and within a bin sample after sample (log 10). -/
theorem sumOf_shapeTerms (N : NumOps α) (g : List α) (keep : Nat → Bool) (t : Nat) :
    sumOf N (shapeTerms N g keep t) = ((List.range g.length).filter keep).foldl (fun acc k =>
      (List.range g.length).foldl (fun acc u => N.add acc (shapeTerm N g.length t k u (g.getD u N.zero))) acc) N.zero := by
  simp only [sumOf, shapeTerms_eq, List.foldl_flatMap, List.foldl_map]

/-- The deviation, its sum of squares over the samples themselves. -/
theorem stdOf_eq (N : NumOps α) (y : List α) {mu : α} (hmu : mu = N.div (y.foldl N.add N.zero) (N.ofNat y.length)) :
    stdOf N y = N.sqrt (N.div (y.foldl (fun acc a => N.add acc (N.mul (N.sub a mu) (N.sub a mu))) N.zero)
      (N.ofNat y.length)) := by
  subst hmu
  simp only [stdOf, sumOf, List.foldl_map]

/-- Sample `i` of the noise term is the shaped sample over the deviation, scaled, or zero where the deviation is (R216). -/
theorem bandNoise_getElem? (N : NumOps α) {fs pow bw : α} {g y : List α} (hy : y = shape N g (keepBin N g.length fs bw))
    {i : Nat} {z : α} (hz : y[i]? = some z) :
    (bandNoise N fs pow bw g)[i]? =
      some (if N.eq0 (stdOf N y) then N.zero else N.mul (N.div z (stdOf N y)) (N.sqrt pow)) := by
  subst hy
  have hi : i < g.length := by simpa using (List.getElem?_eq_some_iff.1 hz).1
  unfold bandNoise
  dsimp only
  split
  · rw [List.getElem?_replicate_of_lt hi]
  · rw [List.getElem?_map, hz, Option.map_some]

/-! ### Band-limited noise (R216) -/

/-- The samples `NOISEB` makes of a waveform, noise added. -/
def bandNoised (P : Params α) (s : State.Of α) (v : Wave.Of α) : List α :=
  List.zipWith P.num.add v.data (bandNoise P.num v.rate s.npow s.nbw (gauss P v.data.length s).1)

theorem bandNoised_length (s : State.Of α) (v : Wave.Of α) : (bandNoised P s v).length = v.data.length := by
  rw [bandNoised, List.length_zipWith, bandNoise_length, gauss_length, Nat.min_self]

/-- Without power, band or samples `NOISEB` copies; that there are no samples is seen after the rate. -/
theorem ruleNoiseb_of_quiet (wd : WBuf) {ws : WBuf} {s : State.Of α} (hfit : (readW ws s).data.length ≤ P.wcap)
    (h : P.num.gt0 s.npow = false ∨ P.num.gt0 s.nbw = false ∨
      (P.num.gt0 (readW ws s).rate = true ∧ (readW ws s).data = [])) :
    ruleNoiseb P wd ws s = .ok { s with w := s.w.set wd (readW ws s) } := by
  have hcopy : setW P wd (readW ws s).data (readW ws s).rate s = .ok { s with w := s.w.set wd (readW ws s) } :=
    setW_of_le _ _ _ _ hfit
  unfold ruleNoiseb
  by_cases hon : P.num.gt0 s.npow = true ∧ P.num.gt0 s.nbw = true
  · obtain ⟨hrate, hdata⟩ : P.num.gt0 (readW ws s).rate = true ∧ (readW ws s).data = [] := by
      simpa [hon] using h
    rw [if_pos hon, if_pos hrate, if_pos hdata, hcopy]
  · rw [if_neg hon, hcopy]

theorem ruleNoiseb_of_rate_not_pos (wd : WBuf) {ws : WBuf} {s : State.Of α} (hpow : P.num.gt0 s.npow = true)
    (hbw : P.num.gt0 s.nbw = true) (hrate : P.num.gt0 (readW ws s).rate = false) :
    ruleNoiseb P wd ws s = .error ⟨.operand, 0⟩ :=
  (if_pos ⟨hpow, hbw⟩).trans (if_neg (Bool.not_eq_true _ ▸ hrate))

/-- With all of them it adds band-limited noise. -/
theorem ruleNoiseb_of_active (wd : WBuf) {ws : WBuf} {s : State.Of α} (hfit : (readW ws s).data.length ≤ P.wcap)
    (hpow : P.num.gt0 s.npow = true) (hbw : P.num.gt0 s.nbw = true) (hrate : P.num.gt0 (readW ws s).rate = true)
    (hdata : (readW ws s).data ≠ []) :
    ruleNoiseb P wd ws s = .ok { s with
      w := s.w.set wd ⟨bandNoised P s (readW ws s), (readW ws s).rate⟩
      draws := if s.nseeden then s.draws else s.draws + (readW ws s).data.length } :=
  (if_pos ⟨hpow, hbw⟩).trans <| (if_pos hrate).trans <| (if_neg hdata).trans <|
    setW_gauss wd _ s ((bandNoised_length ..).trans_le hfit)

/-- Settles O50: `NOISEB` copies, raises, or adds the shaped noise sample by sample; the mask and the shaping sum written out
in the statement are `keepBin` and `shape`, its deviation `stdOf`. -/
theorem bandNoiseCommand : Obligations.BandNoiseCommand := by
  rintro wd ws s v N g y cut mu sd freq keep rfl rfl hfit hg rfl hfreq hkeep hy hmu hsd
  refine ⟨fun hquiet => exec_of_rule_ok (i := .noiseb wd ws) (ruleNoiseb_of_quiet wd hfit hquiet),
    fun hpow hbw hrate => exec_of_rule_error (i := .noiseb wd ws) (ruleNoiseb_of_rate_not_pos wd hpow hbw hrate),
    fun hpow hbw hrate hdata => ?_⟩
  have hgauss : g = (gauss machine s.w[ws].data.length s).1 := hg.trans (gauss_samples (P := machine) _ s).symm
  have hglen : g.length = s.w[ws].data.length := hgauss ▸ gauss_length ..
  have hmask : keep = keepBin num g.length s.w[ws].rate s.nbw := by
    funext k
    rw [hkeep, hfreq, hglen]
    rfl
  have hshape : y = shape num g (keepBin num g.length s.w[ws].rate s.nbw) := by
    rw [← hmask]
    simp only [hy, shape, sumOf_shapeTerms, shapeTerm, indexDistance_eq, hglen]
  have hylen : y.length = s.w[ws].data.length := by rw [hshape, shape_length, hglen]
  have hstd : stdOf num y = sd := by
    rw [hsd, ← hylen]
    exact stdOf_eq num y (hylen ▸ hmu)
  refine ⟨_, exec_of_rule_ok (i := .noiseb wd ws) (ruleNoiseb_of_active wd hfit hpow hbw hrate hdata),
    bandNoised_length .., fun i a z ha hz => ?_⟩
  refine List.getElem?_zipWith_eq_some.2 ⟨a, _, ha, ?_, rfl⟩
  rw [← hstd]
  exact hgauss ▸ bandNoise_getElem? num hshape hz

/-! ### The dispatch (R217) -/

theorem ruleAddnoise_of_white (wd ws : WBuf) {s : State.Of α} (h : s.nmode = 0) :
    ruleAddnoise P wd ws s = ruleNoisew P wd ws s := by
  simp [ruleAddnoise, h]

theorem ruleAddnoise_of_band (wd ws : WBuf) {s : State.Of α} (h : s.nmode = 1) :
    ruleAddnoise P wd ws s = ruleNoiseb P wd ws s := by
  simp [ruleAddnoise, h]

theorem ruleAddnoise_of_reserved (wd ws : WBuf) {s : State.Of α} (h : 1 < s.nmode.toNat) :
    ruleAddnoise P wd ws s = .error ⟨.operand, s.nmode.toNat⟩ := by
  unfold ruleAddnoise
  split
  · omega
  · omega
  · rfl

/-- A noise command takes no draw, or one for each sample. -/
theorem drawsAfter_bounds (s : State.Of α) (v : Wave.Of α) :
    s.draws ≤ drawsAfter P s v ∧ drawsAfter P s v ≤ s.draws + v.data.length := by
  unfold drawsAfter
  split <;> omega

/-- Settles O51: `ADDNOISE` is the command of its mode, and without noise power each noise command copies (R220). -/
theorem addNoiseDispatch : Obligations.AddNoiseDispatch := by
  rintro wd ws s v rfl
  have white (h : s.nmode = 0) : exec (.addnoise wd ws) s = exec (.noisew wd ws) s :=
    exec_congr_rule (i := .addnoise wd ws) (j := .noisew wd ws) (ruleAddnoise_of_white wd ws h)
  have band (h : s.nmode = 1) : exec (.addnoise wd ws) s = exec (.noiseb wd ws) s :=
    exec_congr_rule (i := .addnoise wd ws) (j := .noiseb wd ws) (ruleAddnoise_of_band wd ws h)
  refine ⟨white, band, fun h => exec_of_rule_error (i := .addnoise wd ws) (ruleAddnoise_of_reserved wd ws h),
    fun hfit hmode => ?completes, fun hfit hpow hmode => ?copies⟩
  case completes =>
    have hlegal : s.nmode.toNat ≤ 1 ∧ (s.nmode.toNat = 1 → num.gt0 s.w[ws].rate = true) := by
      obtain h | ⟨h, hrate⟩ := hmode
      · exact ⟨by simp [h], by simp [h]⟩
      · exact ⟨by simp [h], fun _ => hrate⟩
    obtain ⟨hle, hrate⟩ := hlegal
    exact ⟨_, _, exec_of_rule_ok (i := .addnoise wd ws) ((ruleAddnoise_eq_ok ..).2 ⟨hle, fun h _ _ => hrate h, hfit, rfl⟩),
      noisySamples_length .., drawsAfter_bounds ..⟩
  case copies =>
    have hoff : num.gt0 s.npow = false := by rw [hpow]; rfl
    have hw := exec_of_rule_ok (i := .noisew wd ws) (ruleNoisew_of_quiet wd hfit (.inl hoff))
    have hb := exec_of_rule_ok (i := .noiseb wd ws) (ruleNoiseb_of_quiet wd hfit (.inl hoff))
    have ha : exec (.addnoise wd ws) s = .next { s with w := s.w.set wd s.w[ws], pc := s.pc + 1 } := by
      obtain h | h : s.nmode.toNat = 0 ∨ s.nmode.toNat = 1 := by omega
      · exact (white (BitVec.eq_of_toNat_eq h)).trans hw
      · exact (band (BitVec.eq_of_toNat_eq h)).trans hb
    simpa using ⟨hw, hb, ha⟩

end Sys2Proof.Machine
end

section
/-! SUPPORT. Band-limited noise in Num-real (45_noise.md R219): the frequency of a bin and of its mirror, the transform of the
shaped samples, which has only the kept bins, and the variance of the scaled ones. -/

namespace Sys2Proof.Machine

/-! ### The bins (R215) -/

theorem binFreq_real (n : ℕ) (fs : ℝ) (k : ℕ) :
    binFreq realOps n fs k = if 2 * k < n then k * fs / n else -((n - k : ℕ) * fs / n) := by
  simp only [binFreq, realOps, neg_one_mul]

theorem keepBin_real (n : ℕ) (fs bw : ℝ) (k : ℕ) :
    keepBin realOps n fs bw k = true ↔ |binFreq realOps n fs k| ≤ min (bw / 2) (fs / 2) := by
  have hmin : cutOff realOps fs bw = min (bw / 2) (fs / 2) := by
    rw [min_comm, min_def_lt]
    simp [cutOff, realOps]
  rw [keepBin, hmin]
  simp [realOps]

/-- How far a bin is from 0 Hz: as many bins as its index is from 0 or from `n`. -/
theorem abs_binFreq_real {n k : ℕ} {fs : ℝ} (hfs : 0 < fs) : |binFreq realOps n fs k| = (min k (n - k) : ℕ) * (fs / n) := by
  have hstep : 0 ≤ fs / (n : ℝ) := by positivity
  rw [binFreq_real]
  split
  · rw [min_eq_left (by omega), mul_div_assoc, abs_of_nonneg (by positivity)]
  · rw [min_eq_right (by omega), abs_neg, mul_div_assoc, abs_of_nonneg (by positivity)]

/-- No bin is above half the sample rate. -/
theorem abs_binFreq_real_le {n k : ℕ} {fs : ℝ} (hfs : 0 < fs) (hk : k < n) : |binFreq realOps n fs k| ≤ fs / 2 := by
  have hn : (0 : ℝ) < n := by exact_mod_cast Nat.zero_lt_of_lt hk
  have hhalf : ((min k (n - k) : ℕ) : ℝ) * 2 ≤ n := by exact_mod_cast (by omega : min k (n - k) * 2 ≤ n)
  rw [abs_binFreq_real hfs, ← mul_div_assoc, div_le_div_iff₀ hn two_pos, mul_right_comm]
  calc _ ≤ (n : ℝ) * fs := mul_le_mul_of_nonneg_right hhalf hfs.le
    _ = fs * n := mul_comm ..

/-- With a bandwidth of the sample rate or more every bin is kept. -/
theorem keepBin_real_of_wide {n k : ℕ} {fs bw : ℝ} (hfs : 0 < fs) (hbw : fs ≤ bw) (hk : k < n) :
    keepBin realOps n fs bw k = true := by
  rw [keepBin_real, min_eq_right (by linarith)]
  exact abs_binFreq_real_le hfs hk

/-- A masked and a kept bin are neither the same nor mirrored. -/
theorem not_dvd_of_masked_of_kept {n k m : ℕ} {fs bw : ℝ} (hfs : 0 < fs) (hk : k < n) (hm : m < n)
    (hmasked : keepBin realOps n fs bw k = false) (hkept : keepBin realOps n fs bw m = true) :
    ¬ (n : ℤ) ∣ (k : ℤ) + m ∧ ¬ (n : ℤ) ∣ (k : ℤ) - m := by
  have hne : min k (n - k) ≠ min m (n - m) := by
    intro heq
    have hfreq : |binFreq realOps n fs k| = |binFreq realOps n fs m| := by
      rw [abs_binFreq_real hfs, abs_binFreq_real hfs, heq]
    rw [keepBin_real, ← hfreq, ← keepBin_real, hmasked] at hkept
    cases hkept
  constructor
  · intro hdvd
    obtain hsum | hsum : k + m = 0 ∨ k + m = n := by
      obtain ⟨c, hc⟩ : n ∣ k + m := by exact_mod_cast hdvd
      match c, hc with
      | 0, hc => exact .inl hc
      | 1, hc => exact .inr (by omega)
      | c + 2, hc => nlinarith
    all_goals omega
  · intro hdvd
    have := Int.eq_zero_of_abs_lt_dvd hdvd (by rw [abs_lt]; omega)
    omega

/-! ### Sums of cosines over a whole number of turns -/

/-- The powers of an `n`-th root of unity other than 1 add up to 0. -/
theorem sum_pow_root_eq_zero {n : ℕ} {root : ℂ} (hpow : root ^ n = 1) (hne : root ≠ 1) :
    ∑ t ∈ Finset.range n, root ^ t = 0 := by
  have hgeom := geom_sum_mul root n
  rw [hpow, sub_self] at hgeom
  exact (mul_eq_zero.1 hgeom).resolve_right (sub_ne_zero.2 hne)

/-- Angles at equal steps of `m` `n`-ths of a turn: their cosines add up to 0 unless `m / n` is whole. -/
theorem sum_cos_steps (n : ℕ) {m : ℤ} (phase : ℝ) (hm : ¬ (n : ℤ) ∣ m) :
    ∑ t ∈ Finset.range n, Real.cos (phase + 2 * Real.pi * m * t / n) = 0 := by
  obtain rfl | hpos := Nat.eq_zero_or_pos n
  · rw [Finset.sum_range_zero]
  have hroot := Complex.isPrimitiveRoot_exp n hpos.ne'
  have hpow : (Complex.exp (2 * Real.pi * Complex.I / n) ^ m) ^ n = 1 := by
    rw [← zpow_natCast, zpow_comm, zpow_natCast, hroot.pow_eq_one, one_zpow]
  have hsum := sum_pow_root_eq_zero hpow ((hroot.zpow_eq_one_iff_dvd m).not.2 hm)
  have hterm (t : ℕ) : Real.cos (phase + 2 * Real.pi * m * t / n) =
      (Complex.exp (phase * Complex.I) * (Complex.exp (2 * Real.pi * Complex.I / n) ^ m) ^ t).re := by
    rw [← Complex.exp_int_mul, ← Complex.exp_nat_mul, ← Complex.exp_add, ← Complex.exp_ofReal_mul_I_re]
    congr 2
    push_cast
    ring
  rw [Finset.sum_congr rfl fun t _ => hterm t, ← Complex.re_sum, ← Finset.mul_sum, hsum, mul_zero, Complex.zero_re]

/-- The cosines of two bins that are neither the same nor mirrored are orthogonal, whatever their phases. -/
theorem sum_cos_mul_cos {n k m : ℕ} (phase u : ℝ) (hadd : ¬ (n : ℤ) ∣ (k : ℤ) + m) (hsub : ¬ (n : ℤ) ∣ (k : ℤ) - m) :
    ∑ t ∈ Finset.range n, Real.cos (phase + 2 * Real.pi * k * t / n) * Real.cos (2 * Real.pi * m * (t - u) / n) = 0 := by
  have hproduct (t : ℕ) :
      Real.cos (phase + 2 * Real.pi * k * t / n) * Real.cos (2 * Real.pi * m * (t - u) / n) =
        (Real.cos (phase - 2 * Real.pi * m * u / n + 2 * Real.pi * ((k + m : ℤ) : ℝ) * t / n) +
          Real.cos (phase + 2 * Real.pi * m * u / n + 2 * Real.pi * ((k - m : ℤ) : ℝ) * t / n)) / 2 := by
    rw [eq_div_iff two_ne_zero, mul_comm, ← mul_assoc, Real.two_mul_cos_mul_cos, add_comm]
    congr 2 <;> (push_cast; ring)
  rw [Finset.sum_congr rfl fun t _ => hproduct t, ← Finset.sum_div, Finset.sum_add_distrib, sum_cos_steps n _ hadd,
    sum_cos_steps n _ hsub, add_zero, zero_div]

/-! ### The shaped samples (R214) -/

/-- Whole turns taken off the angle of the shaping sum do not change its cosine, nor does the sign of the distance. -/
theorem cos_indexDistance (n k t u : ℕ) :
    Real.cos (2 * Real.pi * ((k * indexDistance t u % n : ℕ) : ℝ) / n) = Real.cos (2 * Real.pi * k * (t - u) / n) := by
  obtain rfl | hpos := Nat.eq_zero_or_pos n
  · simp
  have hn : (n : ℝ) ≠ 0 := by exact_mod_cast hpos.ne'
  have hmod : ((k * indexDistance t u % n : ℕ) : ℝ) = k * indexDistance t u - n * ((k * indexDistance t u / n : ℕ) : ℝ) := by
    rw [eq_sub_iff_add_eq]
    exact_mod_cast Nat.mod_add_div (k * indexDistance t u) n
  have habs : (indexDistance t u : ℝ) = |(t : ℝ) - u| := by
    unfold indexDistance
    split
    · next h => rw [Nat.cast_sub h, abs_sub_comm, abs_of_nonneg (sub_nonneg.2 (by exact_mod_cast h))]
    · next h => rw [Nat.cast_sub (by omega), abs_of_nonneg (sub_nonneg.2 (by exact_mod_cast (by omega : u ≤ t)))]
  rw [hmod, show 2 * Real.pi * ((k : ℝ) * indexDistance t u - n * ((k * indexDistance t u / n : ℕ) : ℝ)) / n =
      2 * Real.pi * k * indexDistance t u / n - ((k * indexDistance t u / n : ℕ) : ℝ) * (2 * Real.pi) by field_simp,
    Real.cos_sub_nat_mul_two_pi, habs, ← Real.cos_abs (2 * Real.pi * k * (t - u) / n)]
  congr 1
  rw [abs_div, abs_mul, abs_of_nonneg (by positivity : 0 ≤ 2 * Real.pi * (k : ℝ)), Nat.abs_cast]

/-- A sum over the kept indices of a list as one over a filtered range. -/
theorem sum_filter_range (keep : ℕ → Bool) (f : ℕ → ℝ) (n : ℕ) :
    (((List.range n).filter keep).map f).sum = ∑ m ∈ Finset.range n with keep m = true, f m := by
  rw [← List.sum_toFinset f (List.nodup_range.filter keep), List.toFinset_filter, List.toFinset_range]

/-- Sample `t` of the shaped samples in Num-real, a sum over the kept bins. -/
theorem shape_real_getD (g : List ℝ) (keep : ℕ → Bool) {t : ℕ} (ht : t < g.length) :
    (shape realOps g keep).getD t 0 = 1 / (g.length : ℝ) * ∑ m ∈ Finset.range g.length with keep m = true,
      ∑ u ∈ Finset.range g.length, g.getD u 0 * Real.cos (2 * Real.pi * m * (t - u) / g.length) := by
  have hterm (m u : ℕ) : shapeTerm realOps g.length t m u (g.getD u realOps.zero) =
      g.getD u 0 * Real.cos (2 * Real.pi * m * (t - u) / g.length) := by
    rw [← cos_indexDistance]
    rfl
  have hsum : (shapeTerms realOps g keep t).sum = ∑ m ∈ Finset.range g.length with keep m = true,
      ∑ u ∈ Finset.range g.length, g.getD u 0 * Real.cos (2 * Real.pi * m * (t - u) / g.length) := by
    simp only [shapeTerms_eq, hterm, List.flatMap_def, List.sum_flatten, List.map_map, Function.comp_def, sum_range_real,
      sum_filter_range]
  rw [List.getD_eq_getElem _ _ (by simpa using ht)]
  simp only [shape, List.getElem_map, List.getElem_range, sumOf_real, hsum]
  rfl

/-- The shaped samples have no part in a masked bin, at any phase (R219 (b)). -/
theorem sum_cos_mul_shape_real (g : List ℝ) {fs bw : ℝ} {k : ℕ} (phase : ℝ) (hfs : 0 < fs) (hk : k < g.length)
    (hmasked : keepBin realOps g.length fs bw k = false) :
    ∑ t ∈ Finset.range g.length, Real.cos (phase + 2 * Real.pi * k * t / g.length) *
      (shape realOps g (keepBin realOps g.length fs bw)).getD t 0 = 0 := by
  have hbin : ∀ m ∈ Finset.range g.length, keepBin realOps g.length fs bw m = true → ∀ u : ℕ,
      ∑ t ∈ Finset.range g.length, Real.cos (phase + 2 * Real.pi * k * t / g.length) *
        Real.cos (2 * Real.pi * m * (t - u) / g.length) = 0 := by
    intro m hm hkept u
    obtain ⟨hadd, hsub⟩ := not_dvd_of_masked_of_kept hfs hk (Finset.mem_range.1 hm) hmasked hkept
    exact sum_cos_mul_cos phase u hadd hsub
  rw [Finset.sum_congr rfl fun t ht => by rw [shape_real_getD g _ (Finset.mem_range.1 ht), mul_left_comm, Finset.mul_sum],
    ← Finset.mul_sum, Finset.sum_comm, Finset.sum_eq_zero, mul_zero]
  intro m hm
  obtain ⟨hm, hkept⟩ := Finset.mem_filter.1 hm
  simp only [Finset.mul_sum]
  rw [Finset.sum_comm]
  refine Finset.sum_eq_zero fun u _ => ?_
  simp only [mul_left_comm (Real.cos _)]
  rw [← Finset.mul_sum, hbin m hm hkept u, mul_zero]

/-! ### The deviation and the noise term (R216, R218) -/

/-- The population variance of a sequence, mean removed. -/
noncomputable def populationVariance (v : List ℝ) : ℝ :=
  (v.map fun a => (a - v.sum / v.length) ^ (2 : ℕ)).sum / v.length

theorem populationVariance_nonneg (v : List ℝ) : 0 ≤ populationVariance v :=
  div_nonneg (List.sum_nonneg fun a ha => by
    obtain ⟨b, -, rfl⟩ := List.mem_map.1 ha
    exact sq_nonneg _) (Nat.cast_nonneg _)

/-- The deviation of R218 in Num-real is the root of the variance. -/
theorem stdOf_real (v : List ℝ) : stdOf realOps v = Real.sqrt (populationVariance v) := by
  simp only [stdOf, sumOf_real, populationVariance, pow_two]
  rfl

/-- Scaling the samples scales the variance by the square. -/
theorem populationVariance_map_mul (v : List ℝ) (c : ℝ) :
    populationVariance (v.map (· * c)) = populationVariance v * c ^ (2 : ℕ) := by
  have hsquare (a : ℝ) : (a * c - v.sum * c / v.length) ^ (2 : ℕ) = (a - v.sum / v.length) ^ (2 : ℕ) * c ^ (2 : ℕ) := by
    ring
  simp only [populationVariance, List.length_map, List.sum_map_mul_right, List.map_id', List.map_map, Function.comp_def,
    hsquare]
  ring

/-- A scaled sample; past the end both read 0. -/
theorem getD_map_mul (v : List ℝ) (c : ℝ) (t : ℕ) : (v.map (· * c)).getD t 0 = c * v.getD t 0 := by
  rw [List.getD_eq_getElem?_getD, List.getD_eq_getElem?_getD, List.getElem?_map]
  cases v[t]? <;> simp [mul_comm]

/-- The noise term in Num-real is the shaped samples times one gain, which is 0 where the deviation is: division by 0 is 0. -/
theorem bandNoise_real (fs pow bw : ℝ) {g y : List ℝ} (hy : y = shape realOps g (keepBin realOps g.length fs bw)) :
    bandNoise realOps fs pow bw g = y.map (· * (Real.sqrt pow / Real.sqrt (populationVariance y))) := by
  have hlen : y.length = g.length := by rw [hy, shape_length]
  unfold bandNoise
  rw [← hy, ← stdOf_real]
  dsimp only
  split
  · next h =>
    have hzero : stdOf realOps y = 0 := of_decide_eq_true h
    simp only [hzero, div_zero, mul_zero, List.map_const', hlen]
    rfl
  · refine List.map_congr_left fun a _ => ?_
    exact (div_mul_eq_mul_div ..).trans (mul_div_assoc ..)

/-- Where the variance of the shaped samples is not 0, that of the noise term is the noise power (R219 (a)). -/
theorem populationVariance_bandNoise {fs pow bw : ℝ} {g y : List ℝ} (hpow : 0 < pow)
    (hy : y = shape realOps g (keepBin realOps g.length fs bw)) (hvar : populationVariance y ≠ 0) :
    populationVariance (bandNoise realOps fs pow bw g) = pow := by
  rw [bandNoise_real fs pow bw hy, populationVariance_map_mul, div_pow, Real.sq_sqrt hpow.le,
    Real.sq_sqrt (populationVariance_nonneg y), mul_div_cancel₀ _ hvar]

/-- Nor does the noise term have a part in a masked bin (R219 (b)). -/
theorem sum_bandNoise_mul_cos {fs bw : ℝ} (pow : ℝ) {g : List ℝ} {k : ℕ} (phase : ℝ) (hfs : 0 < fs) (hk : k < g.length)
    (hmasked : keepBin realOps g.length fs bw k = false) :
    ∑ t ∈ Finset.range g.length,
      (bandNoise realOps fs pow bw g).getD t 0 * Real.cos (phase + 2 * Real.pi * k * t / g.length) = 0 := by
  have horth := sum_cos_mul_shape_real g phase hfs hk hmasked
  rw [Finset.sum_congr rfl fun t _ => by rw [bandNoise_real fs pow bw rfl, getD_map_mul, mul_assoc, mul_comm (List.getD ..)],
    ← Finset.mul_sum, horth, mul_zero]

/-- Settles O52: the gain makes the variance the power, a masked bin is orthogonal to every kept one, and where all are kept
shaping changes nothing. That the bandwidth is positive is not needed. -/
theorem bandNoiseHasItsPower : Obligations.BandNoiseHasItsPower := by
  rintro fs pow bw g y z N hfs hpow - - rfl hy rfl
  have hylen : y.length = g.length := by rw [hy, shape_length]
  refine ⟨fun hvar => ?power, fun k hk habove => ?masked, fun hwide => ⟨fun k hk => keepBin_real_of_wide hfs hwide hk, ?wide⟩⟩
  case power =>
    rw [← hylen] at hvar
    have hpower := populationVariance_bandNoise hpow hy hvar
    rwa [populationVariance, bandNoise_length] at hpower
  case masked =>
    have hmasked : keepBin realOps g.length fs bw k = false := by
      rw [← Bool.not_eq_true, keepBin_real, binFreq_real, not_le]
      exact habove
    have hphase (phase : ℝ) := sum_bandNoise_mul_cos pow phase hfs hk hmasked
    constructor
    · simpa using hphase 0
    · simpa [neg_add_eq_sub, Real.cos_sub_pi_div_two] using hphase (-(Real.pi / 2))
  case wide =>
    rintro sd rfl -
    have hkept : y = g := hy.trans (shape_real_keep_all g _ fun k hk => keepBin_real_of_wide hfs hwide hk)
    rw [bandNoise_real fs pow bw hy, hkept]
    exact List.map_congr_left fun a _ => (mul_div_assoc ..).symm.trans (div_mul_eq_mul_div ..).symm

end Sys2Proof.Machine
end

section
/-! SUPPORT. The scalar, control-register and bit-buffer support commands (46_scalar_buffer.md): what each leaves, or the fault
it raises, and from these the statements. -/

namespace Sys2Proof.Machine

variable {α : Type}

/-! ### Immediates (R231, R232) -/

theorem exec_li (xd : XReg) (imm : BitVec 16) (s : State) : exec (.li xd imm) s =
    .next { s with x := s.x.set xd (immSigned imm), pc := s.pc + 1 } :=
  exec_of_rule_ok (i := .li xd imm) rfl

theorem exec_lih (xd : XReg) (imm : BitVec 16) (s : State) : exec (.lih xd imm) s =
    .next { s with x := s.x.set xd (s.x[xd] <<< 16 + immUnsigned imm), pc := s.pc + 1 } :=
  exec_of_rule_ok (i := .lih xd imm) rfl

/-- The sign extension is above the immediate's own 16 bits. -/
theorem immSigned_toNat_mod (imm : BitVec 16) : (immSigned imm).toNat % 2 ^ 16 = imm.toNat := by
  rw [immSigned, BitVec.toNat_signExtend, BitVec.toNat_setWidth]
  split <;> omega

/-- The shifted register and the immediate share no bit, so their sum does not wrap (R232). -/
theorem shiftLeft_add_immUnsigned_toNat (v : Word) (imm : BitVec 16) :
    (v <<< 16 + immUnsigned imm).toNat = v.toNat * 2 ^ 16 % 2 ^ 64 + imm.toNat := by
  have himm := imm.isLt
  rw [BitVec.toNat_add, BitVec.toNat_shiftLeft, Nat.shiftLeft_eq, immUnsigned, BitVec.toNat_setWidth]
  omega

/-- A word put together from its four quarters, the highest first: what the sign extension adds is shifted out (R104). -/
theorem word_of_quarters (v : Word) :
    (((immSigned (v.extractLsb' 48 16) <<< 16 + immUnsigned (v.extractLsb' 32 16)) <<< 16
      + immUnsigned (v.extractLsb' 16 16)) <<< 16 + immUnsigned (v.extractLsb' 0 16)) = v := by
  have hv := v.isLt
  have htop := immSigned_toNat_mod (v.extractLsb' 48 16)
  apply BitVec.eq_of_toNat_eq
  simp only [shiftLeft_add_immUnsigned_toNat, BitVec.extractLsb'_toNat, Nat.shiftRight_eq_div_pow] at htop ⊢
  omega

/-- Settles O16: the values of `LI` and `LIH`, and for `LI64` the quarters of the value put together. -/
theorem loadImmediates : Obligations.LoadImmediates := by
  refine fun xd imm s => ⟨⟨_, exec_li xd imm s, BitVec.toInt_signExtend_of_le (by decide)⟩,
    ⟨_, exec_lih xd imm s, shiftLeft_add_immUnsigned_toNat ..⟩, fun v hx => ?_⟩
  simp only [execAll, exec_li, exec_lih, hx, if_true, Fin.getElem_fin, Vector.getElem_set_self, Vector.set_set, word_of_quarters,
    BitVec.add_assoc]
  rfl

/-! ### Control registers (R233, R234) -/

/-- A word is the number its fields are written as (30_encoding.md R91). -/
theorem packFields_toNat (op : BitVec 8) (a b c : BitVec 4) (k : BitVec 12) : (packFields op a b c k).toNat =
    op.toNat * 2 ^ 24 + a.toNat * 2 ^ 20 + b.toNat * 2 ^ 16 + c.toNat * 2 ^ 12 + k.toNat := by
  simp only [packFields, BitVec.toNat_append]
  rw [← Nat.shiftLeft_add_eq_or_of_lt a.isLt, ← Nat.shiftLeft_add_eq_or_of_lt b.isLt, ← Nat.shiftLeft_add_eq_or_of_lt c.isLt,
    ← Nat.shiftLeft_add_eq_or_of_lt k.isLt]
  simp only [Nat.shiftLeft_eq]
  omega

theorem operandField_toNat (r : Fin 8) : (operandField r).toNat = r.val := by revert r; decide

theorem encode_csrr_toNat (xd : XReg) (csr : BitVec 12) :
    (encode (.csrr xd csr)).toNat = 0x12000000 + xd.val * 2 ^ 20 + csr.toNat := by
  simp [encode, packFields_toNat, operandField_toNat]

theorem encode_csrw_toNat (xs : XReg) (csr : BitVec 12) :
    (encode (.csrw xs csr)).toNat = 0x13000000 + xs.val * 2 ^ 16 + csr.toNat := by
  simp [encode, packFields_toNat, operandField_toNat]

theorem IntCsr.number_mem_csrReadNumbers (r : IntCsr) : r.number.toNat ∈ csrReadNumbers := by cases r <;> decide

/-- The numbers that may be written are those of the writable registers. -/
theorem exists_writable_of_mem {csr : BitVec 12} (h : csr.toNat ∈ csrWriteNumbers) :
    ∃ r : IntCsr, r.writable = true ∧ r.number = csr := by
  have hnumbers : csrWriteNumbers = writableCsrs.map fun r => r.number.toNat := by decide
  rw [hnumbers] at h
  obtain ⟨r, hr, heq⟩ := List.mem_map.1 h
  exact ⟨r, writable_of_mem_writableCsrs r hr, BitVec.eq_of_toNat_eq heq⟩

theorem exec_csrr_number (xd : XReg) (r : IntCsr) (s : State) : exec (.csrr xd r.number) s =
    .next { s with x := s.x.set xd (readCsr r s), pc := s.pc + 1 } :=
  exec_of_rule_ok (i := .csrr xd r.number) (u := writeX xd (readCsr r s) s) (by simp [ruleIn, ruleCsrr])

theorem exec_csrr_of_notMem (xd : XReg) {csr : BitVec 12} (s : State) (h : csr.toNat ∉ csrReadNumbers) :
    exec (.csrr xd csr) s = .next (takeFault ⟨.illegalCommand, (encode (.csrr xd csr)).toNat⟩ s) := by
  refine exec_of_rule_error (i := .csrr xd csr) ?_
  cases hr : IntCsr.ofNumber csr with
  | none => simp [ruleIn, ruleCsrr, hr]
  | some r => exact absurd (IntCsr.eq_number_of_ofNumber hr ▸ r.number_mem_csrReadNumbers) h

theorem exec_csrw_number (xs : XReg) {r : IntCsr} (hw : r.writable = true) (s : State) : exec (.csrw xs r.number) s =
    .next { writeCsr r s.x[xs] s with pc := s.pc + 1 } :=
  exec_of_rule_ok (i := .csrw xs r.number) (u := writeCsr r s.x[xs] s) (by simp [ruleIn, ruleCsrw, hw, readX])

theorem exec_csrw_of_notMem (xs : XReg) {csr : BitVec 12} (s : State) (h : csr.toNat ∉ csrWriteNumbers) :
    exec (.csrw xs csr) s = .next (takeFault ⟨.illegalCommand, (encode (.csrw xs csr)).toNat⟩ s) := by
  refine exec_of_rule_error (i := .csrw xs csr) ?_
  cases hr : IntCsr.ofNumber csr with
  | none => simp [ruleIn, ruleCsrw, hr]
  | some r =>
    have hw : r.writable ≠ true := mt r.writable_iff_number_mem.1 (IntCsr.eq_number_of_ofNumber hr ▸ h)
    simp [ruleIn, ruleCsrw, hr, hw]

/-- The integer control registers in the order of their numbers (10_state.md R30): the read-only ones, then the writable. -/
def intCsrs : List IntCsr := [.status, .cause, .fpc, .finfo, .runid] ++ writableCsrs

/-- A stored bit as a word. -/
theorem ofNat_toNat_eq_ite (bit : Bool) : BitVec.ofNat 64 bit.toNat = if bit then (1 : Word) else 0 := by cases bit <;> rfl

/-- Settles O17: the statement's table is the registers' numbers, each with what a read gives. -/
theorem readControlRegister : Obligations.ReadControlRegister := by
  refine fun xd s => ⟨fun e he => ?table, fun csr h => ?other, fun hx => ?status⟩
  case table =>
    rw [← ofNat_toNat_eq_ite] at he
    change e ∈ intCsrs.map fun r => (r.number, readCsr r s) at he
    obtain ⟨r, -, rfl⟩ := List.mem_map.1 he
    exact exec_csrr_number xd r s
  case other => rw [exec_csrr_of_notMem xd s h, encode_csrr_toNat]
  case status =>
    obtain ⟨-, hfault, -, -, hexec, -⟩ := statusBits s
    exact ⟨hexec.2 hx, Bool.eq_false_iff.2 fun h => nomatch hx.symm.trans (hfault.1 h)⟩

/-- No control register depends on `pc`. -/
theorem readCsr_pc (r : IntCsr) (pc : BitVec 32) (s : State.Of α) : readCsr r { s with pc := pc } = readCsr r s := by
  cases r <;> rfl

/-- The bit that `NSEEDEN` stores, read as a word (10_state.md R33). -/
theorem ofNat_getLsbD_zero (v : Word) : BitVec.ofNat 64 (v.getLsbD 0).toNat = v &&& 1 := by
  rw [show v &&& 1 = _ from BitVec.and_one_eq_setWidth_ofBool_getLsbD]
  cases v.getLsbD 0 <;> rfl

/-- A writable register reads back what was written to it, `NSEEDEN` bit 0 of it (R33). -/
theorem readCsr_writeCsr_self {r : IntCsr} (hw : r.writable = true) (v : Word) (s : State.Of α) :
    readCsr r (writeCsr r v s) = if r.number = 0x019 then v &&& 1 else v := by
  rw [readCsr_writeCsr r r v s hw, if_pos rfl, ofNat_getLsbD_zero]
  simp only [r.number_eq_nseeden_iff]

/-- Settles O18: the statement's table is the writable registers' numbers, each with what a write leaves; the read after it is
R33's. -/
theorem writeControlRegister : Obligations.WriteControlRegister := by
  refine fun xs s => ⟨fun e he => ?table, fun csr h => ?other, fun xd csr hx hcsr => ?readsBack⟩
  case table =>
    change e ∈ writableCsrs.map fun r => (r.number, writeCsr r s.x[xs] s) at he
    obtain ⟨r, hr, rfl⟩ := List.mem_map.1 he
    rw [exec_csrw_number xs (writable_of_mem_writableCsrs r hr)]
  case other => rw [exec_csrw_of_notMem xs s h, encode_csrw_toNat]
  case readsBack =>
    obtain ⟨r, hw, rfl⟩ := exists_writable_of_mem hcsr
    refine ⟨_, execAll_pair (exec_csrw_number xs hw s) ((writeCsr_mode ..).trans hx) (exec_csrr_number xd r _),
      BitVec.add_assoc .., ?_⟩
    rw [readCsr_pc, readCsr_writeCsr_self hw, writeCsr_x]

/-! ### Clearing, lengths and comparison (R235, R236, R240, R241) -/

/-- Settles O20: the rules' own writes; the empty sequence fits. -/
theorem clearAndLengths : Obligations.ClearAndLengths := fun xd bs ws s =>
  ⟨exec_of_rule_ok (i := .bclr bs) (setB_of_le (P := machine) bs [] s (Nat.zero_le _)),
    exec_of_rule_ok (i := .blen xd bs) rfl, exec_of_rule_ok (i := .wlen xd ws) rfl⟩

theorem exec_bcmp (xd : XReg) (bs bt : BBuf) (s : State) : exec (.bcmp xd bs bt) s =
    .next { s with x := s.x.set xd (if s.b[bs] = s.b[bt] then 0 else 1), pc := s.pc + 1 } := by
  have hdiffer : BitVec.ofNat 64 (bitsDiffer s.b[bs] s.b[bt]).toNat = if s.b[bs] = s.b[bt] then 0 else 1 := by
    split
    · next h => simp [bitsDiffer, h]
    · next h => rw [(bitsDiffer_eq_true_iff ..).2 h]; rfl
  rw [← hdiffer]
  exact exec_of_rule_ok (i := .bcmp xd bs bt) rfl

/-- Sequences are equal where their lengths and all their elements are. -/
theorem eq_iff_length_getElem? {β : Type} (v v' : List β) :
    v = v' ↔ v.length = v'.length ∧ ∀ i < v.length, v[i]? = v'[i]? := by
  refine ⟨fun h => by simp [h], fun ⟨hlen, helem⟩ => List.ext_getElem hlen fun i hi hi' => ?_⟩
  have hget := helem i hi
  rwa [List.getElem?_eq_getElem hi, List.getElem?_eq_getElem hi', Option.some.injEq] at hget

/-- Settles O24: buffers with the same elements are equal. -/
theorem compareBuffers : Obligations.CompareBuffers := by
  intro xd bs bt s
  rw [← eq_iff_length_getElem?, exec_bcmp]
  exact ⟨fun h => by rw [if_pos h], fun h => by rw [if_neg h]⟩

/-! ### Bits read and pushed (R237, R238) -/

theorem memRead_of_le {β : Type} {z : List β} {k n : Nat} (h : k + n ≤ z.length) : memRead z k n = .ok ((z.drop k).take n) :=
  (memRead_eq_ok ..).2 ⟨h, rfl⟩

theorem memRead_of_lt {β : Type} {z : List β} {k n : Nat} (h : z.length < k + n) :
    memRead z k n = .error ⟨.indexRange, k + n⟩ :=
  (memRead_eq_error ..).2 ⟨h, rfl⟩

theorem bitCount_le (nm1 : BitVec 6) : bitCount nm1 ≤ 64 := nm1.isLt

/-- The elements that `BGET` reads. -/
def bitsAt (z : BitSeq) (k : Nat) (nm1 : BitVec 6) : BitSeq := (z.drop k).take (bitCount nm1)

theorem bitsAt_length {z : BitSeq} {k : Nat} {nm1 : BitVec 6} (h : k + bitCount nm1 ≤ z.length) :
    (bitsAt z k nm1).length = bitCount nm1 := by
  rw [bitsAt, List.length_take, List.length_drop]
  omega

theorem bitsAt_getElem? (z : BitSeq) (k : Nat) {nm1 : BitVec 6} {i : Nat} (hi : i < bitCount nm1) :
    (bitsAt z k nm1)[i]? = z[k + i]? := by
  rw [bitsAt, List.getElem?_take_of_lt hi, List.getElem?_drop]

/-- Just behind a sequence stands what was appended to it. -/
theorem bitsAt_append (z : BitSeq) {v : BitSeq} {nm1 : BitVec 6} (h : v.length = bitCount nm1) :
    bitsAt (z ++ v) z.length nm1 = v := by
  rw [bitsAt, List.drop_left, List.take_of_length_le h.le]

theorem exec_bget_of_le (xd : XReg) {bs : BBuf} {xi : XReg} {nm1 : BitVec 6} {s : State}
    (h : s.x[xi].toNat + bitCount nm1 ≤ s.b[bs].length) : exec (.bget xd bs xi nm1) s =
      .next { s with x := s.x.set xd (BitVec.ofNat 64 (pack (bitsAt s.b[bs] s.x[xi].toNat nm1))), pc := s.pc + 1 } := by
  have hread : memRead (readB bs s) (readX xi s).toNat (bitCount nm1) = .ok (bitsAt s.b[bs] s.x[xi].toNat nm1) := memRead_of_le h
  refine exec_of_rule_ok (i := .bget xd bs xi nm1) (u := writeXNat xd (pack (bitsAt s.b[bs] s.x[xi].toNat nm1)) s) ?_
  rw [ruleIn, ruleBget, hread, ok_bind]
  rfl

/-- `BGET` of what stands at the end of a buffer. -/
theorem exec_bget_of_append (xd : XReg) {bs : BBuf} {xi : XReg} {nm1 : BitVec 6} {s : State} {z v : BitSeq}
    (hb : s.b[bs] = z ++ v) (hindex : s.x[xi].toNat = z.length) (hv : v.length = bitCount nm1) :
    exec (.bget xd bs xi nm1) s = .next { s with x := s.x.set xd (BitVec.ofNat 64 (pack v)), pc := s.pc + 1 } := by
  rw [exec_bget_of_le xd (by rw [hb, hindex, List.length_append, hv]), hb, hindex, bitsAt_append z hv]

theorem exec_bget_of_lt (xd : XReg) {bs : BBuf} {xi : XReg} {nm1 : BitVec 6} {s : State}
    (h : s.b[bs].length < s.x[xi].toNat + bitCount nm1) :
    exec (.bget xd bs xi nm1) s = .next (takeFault ⟨.indexRange, s.x[xi].toNat + bitCount nm1⟩ s) := by
  have hread : memRead (readB bs s) (readX xi s).toNat (bitCount nm1) = .error ⟨.indexRange, s.x[xi].toNat + bitCount nm1⟩ :=
    memRead_of_lt h
  refine exec_of_rule_error (i := .bget xd bs xi nm1) ?_
  rw [ruleIn, ruleBget, hread, error_bind]

/-- A packed sequence of `n` bits has no bit at `n` or above. -/
theorem ofNat_pack_getLsbD_of_ge {v : BitSeq} (hv : v.length ≤ 64) {i : Nat} (hi : v.length ≤ i) :
    (BitVec.ofNat 64 (pack v)).getLsbD i = false := by
  rw [BitVec.getLsbD, toNat_ofNat_pack hv]
  exact Nat.testBit_lt_two_pow ((pack_lt v).trans_le (Nat.pow_le_pow_right (by decide) hi))

/-- Settles O21: unpacking the word read gives the elements read. -/
theorem getBits : Obligations.GetBits := by
  refine fun xd bs xi nm1 s => ⟨fun hle => ⟨_, exec_bget_of_le xd hle, fun i hi => ?read, fun i hi => ?above⟩, exec_bget_of_lt xd⟩
  case read =>
    have hunpack := unpack_pack _ _ (bitsAt_length hle) (bitCount_le nm1)
    have hcount : i < bitCount nm1 := Nat.lt_succ_of_le hi
    rw [← bitsAt_getElem? _ _ hcount, ← hunpack, unpack_getElem? _ _ i hcount, hunpack]
    rfl
  case above =>
    have hlen := bitsAt_length hle
    exact ofNat_pack_getLsbD_of_ge (hlen.trans_le (bitCount_le nm1)) (hlen.trans_le hi)

theorem exec_bpush_of_le {bd : BBuf} (xs : XReg) {nm1 : BitVec 6} {s : State} (h : s.b[bd].length + bitCount nm1 ≤ bcap) :
    exec (.bpush bd xs nm1) s =
      .next { s with b := s.b.set bd (s.b[bd] ++ unpack (bitCount nm1) s.x[xs]), pc := s.pc + 1 } :=
  exec_of_rule_ok (i := .bpush bd xs nm1) (setB_of_le bd _ s (by rwa [List.length_append, unpack_length]))

theorem exec_bpush_of_lt {bd : BBuf} (xs : XReg) {nm1 : BitVec 6} {s : State} (h : bcap < s.b[bd].length + bitCount nm1) :
    exec (.bpush bd xs nm1) s = .next (takeFault ⟨.capacity, s.b[bd].length + bitCount nm1⟩ s) := by
  have hlen : (readB bd s ++ unpack (bitCount nm1) (readX xs s)).length = s.b[bd].length + bitCount nm1 := by
    rw [List.length_append, unpack_length, readB]
  rw [← hlen] at h ⊢
  exact exec_of_rule_error (i := .bpush bd xs nm1) (setB_of_lt bd _ s h)

/-- Settles O22: the buffer with the unpacked bits appended, which are packed again where they are read back. -/
theorem pushBits : Obligations.PushBits := by
  refine fun bd xs nm1 s => ⟨fun hfit => ⟨_, exec_bpush_of_le xs hfit, ?length, fun i hi => ?kept, fun i hi => ?pushed⟩,
    exec_bpush_of_lt xs, fun xd xi hx hfit hindex => ?readBack⟩
  case length => rw [List.length_append, unpack_length, bitCount]
  case kept => exact List.getElem?_append_left hi
  case pushed =>
    rw [List.getElem?_append_right (Nat.le_add_right ..), Nat.add_sub_cancel_left]
    exact unpack_getElem? _ _ i (Nat.lt_succ_of_le hi)
  case readBack =>
    refine ⟨_, execAll_pair (exec_bpush_of_le xs hfit) hx
      (exec_bget_of_append xd (Vector.getElem_set_self ..) hindex (unpack_length ..)), ?_⟩
    rw [pack_unpack]
    rfl

/-! ### One bit inverted (R239) -/

/-- One element read and written back inverted. -/
theorem memWrite_not {z : BitSeq} {k : Nat} (h : k < z.length) :
    memWrite z k (((z.drop k).take 1).map fun bit => !bit) = .ok (z.modify k fun bit => !bit) := by
  refine (memWrite_eq_ok ..).2 ?_
  rw [List.take_one_drop_eq_of_lt_length h, List.modify_eq_take_cons_drop h]
  simpa using h

theorem exec_bflip_of_lt {bd : BBuf} {xi : XReg} {s : State} {z : BitSeq} (hb : s.b[bd] = z) (h : s.x[xi].toNat < z.length) :
    exec (.bflip bd xi) s = .next { s with b := s.b.set bd (z.modify s.x[xi].toNat fun bit => !bit), pc := s.pc + 1 } := by
  refine exec_of_rule_ok (i := .bflip bd xi) (u := { s with b := s.b.set bd (z.modify s.x[xi].toNat fun bit => !bit) }) ?_
  rw [ruleIn, ruleBflip, readX, readB, hb, memRead_of_le (Nat.succ_le_of_lt h), ok_bind, memWrite_not h, ok_bind]
  rfl

theorem exec_bflip_of_le {bd : BBuf} {xi : XReg} {s : State} (h : s.b[bd].length ≤ s.x[xi].toNat) :
    exec (.bflip bd xi) s = .next (takeFault ⟨.indexRange, s.x[xi].toNat + 1⟩ s) := by
  refine exec_of_rule_error (i := .bflip bd xi) ?_
  rw [ruleIn, ruleBflip, memRead_of_lt (Nat.lt_succ_of_le h), error_bind]
  rfl

/-- An element of a sequence with one element changed. -/
theorem modify_getElem? {β : Type} (f : β → β) (v : List β) (k i : Nat) :
    (v.modify k f)[i]? = if i = k then v[i]?.map f else v[i]? := by
  rw [List.getElem?_modify]
  by_cases hi : i = k
  · simp [hi]
  · simp [hi, Ne.symm hi]

/-- Settles O23: the rule modifies the one element, and a bit inverted twice is the bit. -/
theorem flipBit : Obligations.FlipBit := by
  refine fun bd xi s => ⟨fun hlt => ⟨⟨_, exec_bflip_of_lt rfl hlt, List.length_modify .., fun i => modify_getElem? ..⟩,
    fun hx => ?twice⟩, exec_bflip_of_le⟩
  case twice =>
    refine (execAll_pair (exec_bflip_of_lt rfl hlt) hx
      (exec_bflip_of_lt (Vector.getElem_set_self ..) (by rwa [List.length_modify]))).trans ?_
    simp [modify_not_modify_not, BitVec.add_assoc]

end Sys2Proof.Machine
end

section
/-! SUPPORT. The system commands and the faults of `RUN` (47_system_run.md R250, R251, R256): the state after each of its first
steps, as far as they complete, and what the step after it raises. -/

namespace Sys2Proof.Machine

variable {α : Type} {P : Params α}

/-- Settles O15: the rules' own writes. -/
theorem nopAndHalt : Obligations.NopAndHalt := fun _ =>
  ⟨exec_of_rule_ok (i := .nop) rfl, exec_of_rule_ok (i := .halt) rfl⟩

/-! ### The encoder (40_fec_bitcoding.md R128) -/

theorem ruleNrzenc_of_lt (bd bs : BBuf) {s : State.Of α} (h : bcapOf P < (readB bs s).length) :
    ruleNrzenc P bd bs s = .error ⟨.capacity, (readB bs s).length⟩ :=
  setB_bind_pure_of_lt (fun u => { u with payload := BitVec.ofNat 64 (readB bs s).length }) bd s h

/-- Whichever encoder `SCHEME` selects, it raises where its code does not fit. -/
theorem ruleFecenc_of_lt (bd bs : BBuf) {s : State.Of α} (hs : s.scheme.toNat ≤ 3)
    (h : bcapOf P < codeLength s.scheme.toNat (readB bs s).length) :
    ruleFecenc P bd bs s = .error ⟨.capacity, codeLength s.scheme.toNat (readB bs s).length⟩ := by
  unfold ruleFecenc
  split
  case h_1 hscheme => rw [hscheme] at h ⊢; exact ruleNrzenc_of_lt bd bs h
  case h_2 hscheme => rw [hscheme] at h ⊢; exact ruleManenc_of_lt bd bs h
  case h_3 hscheme => rw [hscheme] at h ⊢; exact ruleRepenc_of_lt bd bs h
  case h_4 hscheme => rw [hscheme] at h ⊢; exact ruleHamenc_of_lt bd bs h
  case h_5 => grind

/-! ### The state after each step (R252) -/

theorem runCode_ne_nil {s : State.Of α} (hb : readB 0 s ≠ []) : runCode s ≠ [] := by
  rw [← List.length_pos_iff_ne_nil, runCode_length]
  exact Nat.pos_of_ne_zero (codeLength_pos _ _ (mt List.length_eq_zero_iff.1 hb))

theorem spreadLength_runCode {s : State.Of α} (hb : readB 0 s ≠ []) :
    spreadLength s.cpb.toNat (runCode s) = codeLength s.scheme.toNat (readB 0 s).length * s.cpb.toNat := by
  rw [spreadLength_of_ne_nil _ (runCode_ne_nil hb), runCode_length]

/-- Steps 1 to 10 of `RUN`. -/
def runSteps (P : Params α) : List (State.Of α → Rule (State.Of α)) :=
  [ruleFecenc P 1 0, fun u => genChips P 0 u.seedtx u, fun u => genChips P 1 u.seedrx u, ruleSpread P 2 1 0,
    ruleOvsamp P 3 2, ruleModul P 4 3, ruleAddnoise P 5 4, ruleDemod P 6 5, ruleDesprd P 7 6 1, ruleSlice P 2 7,
    ruleFecdec P 3 2]

theorem runPipeline_eq_foldlM (s : State.Of α) : runPipeline P s = (runSteps P).foldlM (fun u step => step u) s := by
  simp [runSteps, runPipeline]

/-- The state after the first `k` entries of `runSteps`, 1 to 8 of them: the code, and the first `k - 1` sample buffers. -/
def runStage (P : Params α) (s : State.Of α) (k : Nat) : State.Of α :=
  { s with b := s.b.set 1 (runCode s),
           w := Vector.ofFn fun d : Fin 8 => if d.val + 1 < k then (runWaves P s)[d] else s.w[d],
           payload := BitVec.ofNat 64 (readB 0 s).length, padlen := runPadlen s, repeatFactor := runFactor s,
           draws := if k < 7 then s.draws else (runScratch P s).draws }

theorem readB_one_runStage (s : State.Of α) (k : Nat) : readB 1 (runStage P s k) = runCode s := Vector.getElem_set_self ..

theorem readW_runStage (s : State.Of α) {k : Nat} (d : WBuf) (h : d.val + 1 < k) :
    readW d (runStage P s k) = (runWaves P s)[d] := by
  simp [readW, runStage, h]

/-- The next sample buffer takes a stage to the one after it. -/
theorem runStage_succ (s : State.Of α) (d : WBuf) : runStage P s (d.val + 2) =
    { runStage P s (d.val + 1) with w := (runStage P s (d.val + 1)).w.set d (runWaves P s)[d],
                                    draws := (runStage P s (d.val + 2)).draws } := by
  have hw : (runStage P s (d.val + 2)).w = (runStage P s (d.val + 1)).w.set d (runWaves P s)[d] := by
    ext i hi
    simp only [runStage, Vector.getElem_ofFn, Vector.getElem_set]
    obtain hlt | rfl | hgt := lt_trichotomy i d.val
    · rw [if_pos (by omega), if_neg (by omega), if_pos (by omega)]
    · rw [if_pos (by omega), if_pos rfl]
    · rw [if_neg (by omega), if_neg (by omega), if_neg (by omega)]
  rw [← hw]
  rfl

/-- The first `k` entries of `runSteps` complete, and leave the stage `k`. -/
def RunReaches (P : Params α) (s : State.Of α) (k : Nat) : Prop :=
  ((runSteps P).take k).foldlM (fun u step => step u) s = .ok (runStage P s k)

section

variable {s : State.Of α} {k : Nat} {step : State.Of α → Rule (State.Of α)}

theorem RunReaches.succ (h : RunReaches P s k) (hk : (runSteps P)[k]? = some step)
    (hstep : step (runStage P s k) = .ok (runStage P s (k + 1))) : RunReaches P s (k + 1) := by
  unfold RunReaches at h ⊢
  rw [List.take_add_one, hk, List.foldlM_append, h, ok_bind]
  simpa using hstep

/-- What the step after a reached stage raises, the pipeline raises. -/
theorem RunReaches.raises {e : Raise} (h : RunReaches P s k) (hk : (runSteps P)[k]? = some step)
    (hstep : step (runStage P s k) = .error e) : runPipeline P s = .error e := by
  have hdrop : (runSteps P).drop k = step :: (runSteps P).drop (k + 1) := by
    obtain ⟨hlt, rfl⟩ := List.getElem?_eq_some_iff.1 hk
    exact List.drop_eq_getElem_cons hlt
  unfold RunReaches at h
  rw [runPipeline_eq_foldlM, ← List.take_append_drop k (runSteps P), List.foldlM_append, h, ok_bind, hdrop, List.foldlM_cons,
    hstep, error_bind]

/-! ### How far `RUN` comes -/

theorem runReaches_one (hs : s.scheme.toNat ≤ 3) (hcode : codeLength s.scheme.toNat (readB 0 s).length ≤ bcapOf P) :
    RunReaches P s 1 := by
  have hw : (runStage P s 1).w = s.w := by
    ext : 1
    simp [runStage]
  have hstage : runStage P s 1 = { runStage P s 1 with w := s.w } := by rw [← hw]
  have hfecenc : ruleFecenc P 1 0 s = .ok (runStage P s 1) := by
    rw [hstage]
    exact (ruleFecenc_eq_ok ..).2 ⟨hs, hcode, rfl⟩
  simp [RunReaches, runSteps, hfecenc]

theorem RunReaches.chips (h : RunReaches P s 1) (hn : s.cpb.toNat ≤ P.wcap) : RunReaches P s 3 :=
  (h.succ rfl ((genChips_eq_ok ..).2 ⟨hn, runStage_succ s 0⟩)).succ rfl ((genChips_eq_ok ..).2 ⟨hn, runStage_succ s 1⟩)

theorem RunReaches.spread (h : RunReaches P s 3) (hb : readB 0 s ≠ [])
    (hfit : codeLength s.scheme.toNat (readB 0 s).length * s.cpb.toNat ≤ P.wcap) : RunReaches P s 4 := by
  refine h.succ rfl ((ruleSpread_eq_ok ..).2 ?_)
  rw [readB_one_runStage, readW_runStage s 0 (by decide)]
  exact ⟨chipGenOf_length .., (spreadLength_runCode hb).trans_le hfit, runStage_succ s 2⟩

theorem RunReaches.ovsamp (h : RunReaches P s 4) (hfit : (runBase P s).length ≤ P.wcap) : RunReaches P s 5 := by
  refine h.succ rfl ((ruleOvsamp_eq_ok ..).2 ?_)
  rw [readW_runStage s 2 (by decide)]
  exact ⟨(hold_length ..).symm.trans_le hfit, runStage_succ s 3⟩

theorem RunReaches.modul (h : RunReaches P s 5) (hfit : (runBase P s).length ≤ P.wcap)
    (hrate : P.num.gt0 (runRate P s) = true) : RunReaches P s 6 := by
  refine h.succ rfl ((mixCarrier_eq_ok ..).2 ?_)
  rw [readW_runStage s 3 (by decide)]
  exact ⟨hrate, hfit, runStage_succ s 4⟩

theorem RunReaches.addnoise (h : RunReaches P s 6) (hfit : (runBase P s).length ≤ P.wcap)
    (hrate : P.num.gt0 (runRate P s) = true) (hmode : s.nmode.toNat ≤ 1) : RunReaches P s 7 := by
  refine h.succ rfl ((ruleAddnoise_eq_ok ..).2 ?_)
  rw [readW_runStage s 4 (by decide)]
  have hnoise : noisySamples P (runStage P s 6) (runWaves P s)[(4 : WBuf)] = runChannel P s :=
    noisySamples_update s (runStage P s 6).b (runStage P s 6).w (runStage P s 6).payload (runPadlen s) (runFactor s) _
  rw [hnoise]
  exact ⟨hmode, fun _ _ _ => hrate, (runModulated_length s).trans_le hfit, runStage_succ s 5⟩

theorem RunReaches.demod (h : RunReaches P s 7) (hfit : (runBase P s).length ≤ P.wcap)
    (hrate : P.num.gt0 (runRate P s) = true) : RunReaches P s 8 := by
  refine h.succ rfl ((mixCarrier_eq_ok ..).2 ?_)
  rw [readW_runStage s 5 (by decide)]
  exact ⟨hrate, (runChannel_length s).trans_le hfit, runStage_succ s 6⟩

/-! ### What the next step raises (R256) -/

theorem RunReaches.raises_chips (h : RunReaches P s 1) (hlt : P.wcap < s.cpb.toNat) :
    runPipeline P s = .error ⟨.capacity, s.cpb.toNat⟩ := h.raises rfl ((genChips_eq_error ..).2 ⟨hlt, rfl⟩)

theorem RunReaches.raises_spread (h : RunReaches P s 3) (hb : readB 0 s ≠ [])
    (hlt : P.wcap < codeLength s.scheme.toNat (readB 0 s).length * s.cpb.toNat) :
    runPipeline P s = .error ⟨.capacity, codeLength s.scheme.toNat (readB 0 s).length * s.cpb.toNat⟩ := by
  have hlen : spreadLength s.cpb.toNat (readB 1 (runStage P s 3)) = _ :=
    (congrArg _ (readB_one_runStage s 3)).trans (spreadLength_runCode hb)
  rw [← hlen] at hlt ⊢
  refine h.raises rfl (ruleSpread_of_lt 2 ?_ hlt)
  rw [readW_runStage s 0 (by decide)]
  exact chipGenOf_length ..

theorem RunReaches.raises_ovsamp (h : RunReaches P s 4) (hlt : P.wcap < (runBase P s).length) :
    runPipeline P s = .error ⟨.capacity, (runBase P s).length⟩ := by
  have hlen : (readW 2 (runStage P s 4)).data.length * s.ovs.toNat = (runBase P s).length := by
    rw [readW_runStage s 2 (by decide)]
    exact (hold_length ..).symm
  rw [← hlen] at hlt ⊢
  exact h.raises rfl (ruleOvsamp_of_lt 3 hlt)

theorem RunReaches.raises_modul (h : RunReaches P s 5) (hrate : P.num.gt0 (runRate P s) = false) :
    runPipeline P s = .error ⟨.operand, 0⟩ := by
  refine h.raises rfl (mixCarrier_of_rate_not_pos 4 ?_)
  rw [readW_runStage s 3 (by decide)]
  exact hrate

theorem RunReaches.raises_addnoise (h : RunReaches P s 6) (hmode : 1 < s.nmode.toNat) :
    runPipeline P s = .error ⟨.operand, s.nmode.toNat⟩ := h.raises rfl (ruleAddnoise_of_reserved 5 4 hmode)

theorem RunReaches.raises_desprd (h : RunReaches P s 8) (hovs : s.ovs.toNat ≠ 0) (hn : s.cpb.toNat = 0) :
    runPipeline P s = .error ⟨.invalidArgumentWindow, 0⟩ := by
  refine h.raises rfl (ruleDesprd_of_cpb_zero 7 6 hovs ?_ hn)
  rw [readW_runStage s 1 (by decide)]
  exact chipGenOf_length ..

/-! ### `RUN` raises what its pipeline raises (R253, R254) -/

theorem ruleRun_of_empty (hb : readB 0 s = []) : ruleRun P s = .error ⟨.operand, 0⟩ := by
  simp [ruleRun, hb, throw, throwThe, MonadExceptOf.throw]

theorem ruleRun_of_pipeline_error {e : Raise} (hb : readB 0 s ≠ []) (h : runPipeline P s = .error e) :
    ruleRun P s = .error e := by
  simp [ruleRun, hb, h]

end

/-- Settles O54: each row's premises are those of the steps before it and the one of the step that raises. -/
theorem runFaultTable : Obligations.RunFaultTable := by
  rintro s n f L rfl rfl rfl
  -- by the equation of `runRate`: compared by evaluation, the two rates run into the arithmetic of binary64
  have hrate : num.mul s.chiprate (num.ofNat s.ovs.toNat) = runRate machine s := by rw [runRate]
  rw [hrate]
  have raises {e : Raise} (hb : s.b[0] ≠ []) (h : runPipeline machine s = .error e) : exec .run s = .next (takeFault e s) :=
    exec_of_rule_error (i := .run) (ruleRun_of_pipeline_error hb h)
  refine ⟨fun hb => exec_of_rule_error (i := .run) (ruleRun_of_empty hb), fun hb hs => raises hb ?scheme,
    fun hb hs => ?supported⟩
  case scheme => rw [runPipeline, ruleFecenc_unsupported 1 0 hs, error_bind]
  case supported =>
    have hlen : (runBase machine s).length = codeLength s.scheme.toNat s.b[0].length * s.cpb.toNat * s.ovs.toNat :=
      runBase_length s hb
    rw [← hlen]
    have coded (hcode) := runReaches_one (P := machine) hs hcode
    have spread (hcode) (hn) (hfit) := ((coded hcode).chips hn).spread hb hfit
    refine ⟨fun hlt => raises hb ?code, fun hcode hlt => raises hb ((coded hcode).raises_chips hlt),
      fun hcode hn hlt => raises hb (((coded hcode).chips hn).raises_spread hb hlt),
      fun hcode hn hspread hlt => raises hb ((spread hcode hn hspread).raises_ovsamp hlt),
      fun hcode hn hspread hfit => ?sampled⟩
    case code =>
      rw [runPipeline, ruleFecenc_of_lt 1 0 hs hlt, error_bind]
      rfl
    case sampled =>
      have hbase := (spread hcode hn hspread).ovsamp hfit
      refine ⟨fun hrate => raises hb (hbase.raises_modul hrate),
        fun hrate hmode => raises hb ((hbase.modul hfit hrate).raises_addnoise hmode), fun hrate hmode hzero => ?window⟩
      case window =>
        have hdemod := ((hbase.modul hfit hrate).addnoise hfit hrate hmode).demod hfit hrate
        exact raises hb (hdemod.raises_desprd (ovs_ne_zero_of_rate s hrate) hzero)

end Sys2Proof.Machine
end

section
/-! SUPPORT. The program of `RUN` (47_system_run.md R266): its rules are the steps of `RUN` and none reads `pc`, so that the
commands executed one after another leave what the steps leave. -/

namespace Sys2Proof.Machine

variable {α : Type} {P : Params α}

/-! ### No command of the program reads `pc` -/

theorem noisySamples_pc (s : State.Of α) (pc : BitVec 32) (v : Wave.Of α) :
    noisySamples P { s with pc := pc } v = noisySamples P s v := by
  unfold noisySamples noiseActive
  simp only [gauss_fst]

theorem rulePrngen_pc (pc : BitVec 32) {wd : WBuf} {xs : XReg} {s t : State.Of α} (h : rulePrngen P wd xs s = .ok t) :
    rulePrngen P wd xs { s with pc := pc } = .ok { t with pc := pc } := by
  obtain ⟨hfit, rfl⟩ := (genChips_eq_ok ..).1 h
  exact (genChips_eq_ok ..).2 ⟨hfit, rfl⟩

theorem mixCarrier_pc (pc : BitVec 32) {wd ws : WBuf} {s t : State.Of α} (h : mixCarrier P wd ws s = .ok t) :
    mixCarrier P wd ws { s with pc := pc } = .ok { t with pc := pc } := by
  obtain ⟨hrate, hfit, rfl⟩ := (mixCarrier_eq_ok ..).1 h
  exact (mixCarrier_eq_ok ..).2 ⟨hrate, hfit, rfl⟩

/-- Wherever `pc` stands, the rules of the program write the same. -/
theorem ruleIn_runProgram_pc (pc : BitVec 32) {s t : State.Of α} : ∀ i ∈ runProgram, ruleIn P i s = .ok t →
    ruleIn P i { s with pc := pc } = .ok { t with pc := pc } := by
  simp only [runProgram, List.forall_mem_cons]
  refine ⟨fun h => ?fecenc, rulePrngen_pc pc, rulePrngen_pc pc, fun h => ?spread, fun h => ?ovsamp, mixCarrier_pc pc,
    fun h => ?addnoise, mixCarrier_pc pc, fun h => ?desprd, fun h => ?slice, fun h => ?fecdec, fun h => ?bcmp,
    List.forall_mem_nil _⟩
  case fecenc =>
    obtain ⟨hs, hfit, rfl⟩ := (ruleFecenc_eq_ok ..).1 h
    exact (ruleFecenc_eq_ok ..).2 ⟨hs, hfit, rfl⟩
  case spread =>
    obtain ⟨hp, hfit, rfl⟩ := (ruleSpread_eq_ok ..).1 h
    exact (ruleSpread_eq_ok ..).2 ⟨hp, hfit, rfl⟩
  case ovsamp =>
    obtain ⟨hfit, rfl⟩ := (ruleOvsamp_eq_ok ..).1 h
    exact (ruleOvsamp_eq_ok ..).2 ⟨hfit, rfl⟩
  case addnoise =>
    obtain ⟨hmode, hrate, hfit, rfl⟩ := (ruleAddnoise_eq_ok ..).1 h
    exact (ruleAddnoise_eq_ok ..).2 ⟨hmode, hrate, hfit, congrArg (fun o => { s with
      w := s.w.set 5 ⟨o, (readW 4 s).rate⟩, draws := drawsAfter P s (readW 4 s), pc := pc }) (noisySamples_pc ..).symm⟩
  case desprd =>
    obtain ⟨hf, hq, hn, hfit, rfl⟩ := (ruleDesprd_eq_ok ..).1 h
    exact (ruleDesprd_eq_ok ..).2 ⟨hf, hq, hn, hfit, rfl⟩
  case slice =>
    obtain ⟨hfit, rfl⟩ := (setB_eq_ok ..).1 h
    exact (setB_eq_ok ..).2 ⟨hfit, rfl⟩
  case fecdec =>
    obtain ⟨hs, hr, hfit, rfl⟩ := (ruleFecdec_eq_ok ..).1 h
    exact (ruleFecdec_eq_ok ..).2 ⟨hs, hr, hfit, rfl⟩
  case bcmp =>
    obtain rfl := Except.ok.inj h
    rfl

/-! ### The rules one after another -/

/-- The rules of a list of commands, one after another, lead from `s` to `t`, and none raises. -/
def RulesLead (P : Params α) : List Instr → State.Of α → State.Of α → Prop
  | [], s, t => s = t
  | i :: rest, s, t => ∃ u, ruleIn P i s = .ok u ∧ RulesLead P rest u t

/-- With the seeds in `x1` and `x2` the pipeline's steps are the program's rules; the program compares the bits at its end. -/
theorem rulesLead_of_runPipeline {s u : State.Of α} (htx : s.x[1] = s.seedtx) (hrx : s.x[2] = s.seedrx)
    (h : runPipeline P s = .ok u) :
    RulesLead P runProgram s (writeXNat 3 (bitsDiffer (readB 3 u) (readB 0 u)).toNat u) := by
  unfold runPipeline at h
  obtain ⟨s1, hfecenc, h⟩ := (bind_eq_ok ..).1 h
  obtain ⟨s2, hchips, h⟩ := (bind_eq_ok ..).1 h
  obtain ⟨s3, hchips', h⟩ := (bind_eq_ok ..).1 h
  obtain ⟨s4, hspread, h⟩ := (bind_eq_ok ..).1 h
  obtain ⟨s5, hovsamp, h⟩ := (bind_eq_ok ..).1 h
  obtain ⟨s6, hmodul, h⟩ := (bind_eq_ok ..).1 h
  obtain ⟨s7, haddnoise, h⟩ := (bind_eq_ok ..).1 h
  obtain ⟨s8, hdemod, h⟩ := (bind_eq_ok ..).1 h
  obtain ⟨s9, hdesprd, h⟩ := (bind_eq_ok ..).1 h
  obtain ⟨s10, hslice, hfecdec⟩ := (bind_eq_ok ..).1 h
  have hseedtx : readX 1 s1 = s1.seedtx := by
    obtain ⟨-, -, rfl⟩ := (ruleFecenc_eq_ok ..).1 hfecenc
    exact htx
  have hseedrx : readX 2 s2 = s2.seedrx := by
    obtain ⟨-, -, rfl⟩ := (ruleFecenc_eq_ok ..).1 hfecenc
    obtain ⟨-, rfl⟩ := (genChips_eq_ok ..).1 hchips
    exact hrx
  rw [← hseedtx] at hchips
  rw [← hseedrx] at hchips'
  exact ⟨s1, hfecenc, s2, hchips, s3, hchips', s4, hspread, s5, hovsamp, s6, hmodul, s7, haddnoise, s8, hdemod, s9, hdesprd,
    s10, hslice, u, hfecdec, _, rfl, rfl⟩

/-- Only `HALT` leaves `EXEC` by its rule (10_state.md R24). -/
theorem ruleIn_mode {i : Instr} {s t : State.Of α} (hi : i ≠ .halt) (h : ruleIn P i s = .ok t) : t.mode = s.mode :=
  ((ruleIn_effect h).mode_done.resolve_left fun hhalt => hi hhalt.1).1

/-- Commands of the program executed one after another write what their rules write, and stay in `EXEC`. -/
theorem execAll_of_rulesLead {is : List Instr} (his : ∀ i ∈ is, i ∈ runProgram) {s t : State} (hx : s.mode = .exec)
    (pc : BitVec 32) (h : RulesLead machine is s t) :
    ∃ pc', execAll is { s with pc := pc } = .next { t with pc := pc' } ∧ t.mode = .exec := by
  induction is generalizing s pc with
  | nil =>
    obtain rfl := h
    exact ⟨pc, rfl, hx⟩
  | cons i rest ih =>
    obtain ⟨u, hrule, hrest⟩ := h
    obtain ⟨hi, his⟩ := List.forall_mem_cons.1 his
    have hhalt : i ≠ .halt := fun h => absurd (h ▸ hi) (by decide)
    have hu : u.mode = .exec := (ruleIn_mode hhalt hrule).trans hx
    have hexec := exec_of_rule_ok (ruleIn_runProgram_pc pc i hi hrule)
    obtain ⟨pc', hlead, ht⟩ := ih his hu (pc + 1) hrest
    rw [execAll, hexec]
    exact ⟨pc', (if_pos hu).trans hlead, ht⟩

/-- Settles O55: both leave the state `u` of the pipeline, `RUN` with its flags and taps, the program with the comparison. -/
theorem runIsItsProgram : Obligations.RunIsItsProgram := by
  intro s t hx htx hrx hrun ht
  obtain ⟨v, hrule, rfl⟩ := exec_eq_next_of_mode_ne_fault hrun (by rw [ht]; decide)
  obtain ⟨-, u, hpipeline, -, rfl⟩ := (ruleRun_eq_ok ..).1 hrule
  obtain ⟨pc, hprogram, hmode⟩ :=
    execAll_of_rulesLead (fun _ => id) hx s.pc (rulesLead_of_runPipeline htx hrx hpipeline)
  obtain ⟨b, w, p, q, r, k, -, -, rfl⟩ := runPipeline_pipelineWrite hpipeline
  have hflag (differ : Bool) : BitVec.ofNat 64 differ.toNat = if differ then 1 else 0 := by cases differ <;> rfl
  exact ⟨_, hprogram, hmode, rfl, rfl, rfl, rfl, rfl, rfl, (Vector.getElem_set_self ..).trans (hflag _), rfl, rfl, rfl, rfl⟩

end Sys2Proof.Machine
end

section
/-! SUPPORT. `RUN` without noise in Num-real (47_system_run.md R260). The hard decisions are the code bits, each changed by one
function of a bit that the seeds decide: kept, set to 0, or inverted. A code so changed decodes to the payload so changed. -/

namespace Sys2Proof.Machine

variable {α : Type} {P : Params α}

/-! ### Codes with every bit changed by one function -/

theorem groups_map {β γ : Type} (g : Nat) (f : β → γ) (v : List β) : groups g (v.map f) = (groups g v).map (List.map f) := by
  simp [groups, Function.comp_def]

section

/-! The function may keep, clear or invert the bits, but not set them all: no pair `(1, 1)` is a Manchester code. -/
variable {g : Bool → Bool} (hg : (g true && g false) = false)
include hg

theorem manPair_map (bit : Bool) : manPair ([bit, !bit].map g) = g bit := by
  revert g bit; decide

/-- The clear and the inverted codeword are the codewords of the clear and the inverted block. -/
theorem dec7_map_encBlock {p : BitSeq} (h : p.length = 4) : dec7 ((encBlock p).map g) = p.map g := by
  match p, h with
  | [d1, d2, d3, d4], _ => revert g d1 d2 d3 d4; decide

theorem manDecode_map_manEncode (v : BitSeq) : manDecode ((manEncode v).map g) = v.map g := by
  have hgroups : groups 2 (manEncode v) = v.map fun bit => [bit, !bit] := by
    simpa [manEncode] using groups_pieces 2 (fun bit => [bit, !bit]) v [] (fun _ _ => rfl) (by simp)
  rw [manDecode, groups_map, hgroups, List.map_map, List.map_map]
  exact List.map_congr_left fun bit _ => manPair_map hg bit

theorem hamBlocks_map_hamEncode (v : BitSeq) : hamBlocks ((hamEncode v).map g) = (hamPadded v).map g := by
  have hlen : ∀ p ∈ groups 4 (hamPadded v), p.length = 4 := fun p => group_length 4 _ p
  have hwords := groups_pieces 7 encBlock _ [] (fun p hp => encBlock_length p (hlen p hp)) (by simp)
  have hwhole : (groups 4 (hamPadded v)).flatten = hamPadded v := by
    rw [groups_flatten, hamPadded_length, Nat.mul_div_cancel _ (by decide), ← hamPadded_length, List.take_length]
  rw [List.append_nil] at hwords
  rw [hamBlocks, groups_map, hamEncode_eq_flatMap, hwords, List.map_map, List.flatMap_def, List.map_map]
  calc ((groups 4 (hamPadded v)).map (dec7 ∘ List.map g ∘ encBlock)).flatten
      = ((groups 4 (hamPadded v)).map (List.map g)).flatten :=
        congrArg _ (List.map_congr_left fun p hp => dec7_map_encBlock hg (hlen p hp))
    _ = (hamPadded v).map g := by rw [← List.map_flatten, hwhole]

theorem hamDecode_map_hamEncode (v : BitSeq) :
    hamDecode ((hamEncode v).map g) (hamPad v.length) v.length = v.map g := by
  simp [hamDecode, hamBlocks_map_hamEncode hg, hamPadded, trunc]

/-- With the metadata of the encoder, a changed code decodes to the payload changed in the same way. -/
theorem decodeOf_map_codeOf {scheme padlen factor : Nat} (v : BitSeq) (hs : scheme ≤ 3)
    (hpad : scheme = 3 → padlen = hamPad v.length) (hfactor : scheme = 2 → factor = 3) :
    decodeOf scheme padlen factor v.length ((codeOf scheme v).map g) = v.map g := by
  have htrunc : trunc (v.map g) v.length = v.map g := List.take_of_length_le (List.length_map _).le
  match scheme with
  | 0 => exact htrunc
  | 1 => exact (congrArg (trunc · v.length) (manDecode_map_manEncode hg v)).trans htrunc
  | 2 =>
    rw [hfactor rfl]
    have hcode : (repEncode v).map g = repEncode (v.map g) := by simp [repEncode, hold, List.map_flatMap, List.flatMap_map]
    exact (congrArg (trunc · v.length) ((congrArg _ hcode).trans (repDecode_repEncode _))).trans htrunc
  | 3 =>
    rw [hpad rfl]
    exact hamDecode_map_hamEncode hg v

end

theorem runPadlen_toNat {s : State.Of α} (h : s.scheme.toNat = 3) : (runPadlen s).toNat = hamPad (readB 0 s).length := by
  rw [runPadlen, if_pos h, BitVec.toNat_ofNat]
  exact Nat.mod_eq_of_lt ((hamPad_lt _).trans (by decide))

theorem runFactor_toNat {s : State.Of α} (h : s.scheme.toNat = 2) : (runFactor s).toNat = 3 := by
  rw [runFactor, if_pos h]
  rfl

/-- Changed decisions decode to the payload changed in the same way, where `PAYLOAD` can hold its length. -/
theorem runDecoded_of_runHard {s : State.Of α} {g : Bool → Bool} (hg : (g true && g false) = false)
    (hs : s.scheme.toNat ≤ 3) (hlt : (readB 0 s).length < 2 ^ 64) (h : runHard P s = (runCode s).map g) :
    runDecoded P s = (readB 0 s).map g := by
  rw [runDecoded, h, runCode, BitVec.toNat_ofNat, Nat.mod_eq_of_lt hlt]
  exact decodeOf_map_codeOf hg _ hs runPadlen_toNat runFactor_toNat

/-! ### What a completed `RUN` shows of the change -/

/-- In `t`, reached from `s`, `B2` is the code `B1` and `B3` the payload of `s`, each bit changed by `g`, and `MISMATCH` says
whether that changed the payload (R258). -/
structure Received (g : Bool → Bool) (s t : State.Of α) : Prop where
  hard : t.b[2] = t.b[1].map g
  decoded : t.b[3] = s.b[0].map g
  mismatch : t.mismatch = true ↔ t.b[3] ≠ s.b[0]

theorem received_runResult {s : State.Of α} {g : Bool → Bool} (hg : (g true && g false) = false)
    (hs : s.scheme.toNat ≤ 3) (hlt : (readB 0 s).length < 2 ^ 64) (h : runHard P s = (runCode s).map g) (pc : BitVec 32) :
    Received g s { runResult P s with pc := pc } := by
  have hcode : (runResult P s).b[1] = runCode s := readB_one_runBuffers (P := P) s
  have hhard : (runResult P s).b[2] = runHard P s := readB_two_runBuffers s
  have hdecoded : (runResult P s).b[3] = runDecoded P s := readB_three_runBuffers s
  have hmismatch : (runResult P s).mismatch = bitsDiffer (runDecoded P s) (readB 0 s) :=
    congrArg₂ bitsDiffer (readB_three_runBuffers s) (readB_zero_runBuffers s)
  exact {
    hard := by rw [hhard, hcode, h]
    decoded := hdecoded.trans (runDecoded_of_runHard hg hs hlt h)
    mismatch := by
      rw [hmismatch, hdecoded]
      exact bitsDiffer_eq_true_iff .. }

theorem Received.unchanged {s t : State.Of α} (h : Received id s t) :
    t.b[2] = t.b[1] ∧ t.b[3] = s.b[0] ∧ t.mismatch = false := by
  have hdecoded : t.b[3] = s.b[0] := h.decoded.trans (List.map_id _)
  exact ⟨h.hard.trans (List.map_id _), hdecoded, Bool.eq_false_iff.2 fun hm => h.mismatch.1 hm hdecoded⟩

/-- A payload with a 1 is changed where no 1 is decided to be a 1. -/
theorem Received.mismatch_of_true_mem {g : Bool → Bool} {s t : State.Of α} (h : Received g s t) (hg : g true = false)
    (hmem : true ∈ s.b[0]) : t.mismatch = true ∧ t.b[3] ≠ s.b[0] := by
  have hne : t.b[3] ≠ s.b[0] := fun heq => by
    have hmap : s.b[0].map g = s.b[0].map id := (h.decoded.symm.trans heq).trans (List.map_id _).symm
    exact absurd (hg.symm.trans (List.map_inj_left.1 hmap true hmem)) (by decide)
  exact ⟨h.mismatch.2 hne, hne⟩

/-! ### A carrier whose squares are 1 -/

/-- A multiple of half a turn for each sample: the carrier is 1 or -1 (44_carrier.md R200). -/
theorem carrierAt_sq_of_half {fc rate : ℝ} {k : ℤ} (h : fc / rate = k / 2) (i : ℕ) : carrierAt realOps fc rate i ^ 2 = 1 := by
  have hstep : 2 * Real.pi * fc / rate = k * Real.pi := by rw [mul_div_assoc, h]; ring
  have hsin := sin_natCast_mul_eq_zero (Real.sin_int_mul_pi k) i
  rw [carrierAt_real, hstep, Real.cos_sq', hsin]
  norm_num

/-- Over such a carrier the despreader receives the samples sent. -/
theorem linkSamples_of_sq {fc rate : ℝ} (h : ∀ i, carrierAt realOps fc rate i ^ 2 = 1) (n f : ℕ) (v : BitSeq)
    (p : List ℝ) : linkSamples fc rate n f v p = hold f (spreadBits realOps n v p) := by
  refine List.ext_getElem? fun i => ?_
  have hweight (y : ℝ) : y * carrierAt realOps fc rate i * carrierAt realOps fc rate i = y := by
    rw [mul_assoc, ← sq, h, mul_one]
  simp only [linkSamples, carrierMul_getElem?, Option.map_map, Function.comp_def]
  exact (congrArg (Option.map · _) (funext hweight)).trans Option.map_id'

/-! ### The agreement of the chips (42_prn.md R169) -/

theorem chipsOf_real_getD (sign : Word → Nat → Nat → Bool) (seed : Word) {n j : ℕ} (hj : j < n) :
    (chipsOf realOps sign seed n).getD j 0 = if sign seed n j then 1 else -1 := by
  simp [chipsOf, hj, realOps]

theorem correlation_chipsOf (sign : Word → Nat → Nat → Bool) (seed seed' : Word) (n : ℕ) :
    ∑ j ∈ Finset.range n, (chipsOf realOps sign seed n).getD j 0 * (chipsOf realOps sign seed' n).getD j 0 =
      (chipAgreement sign seed seed' n : ℝ) := by
  have hcast : (chipAgreement sign seed seed' n : ℝ) =
      ∑ j ∈ Finset.range n, if sign seed n j = sign seed' n j then (1 : ℝ) else -1 := by
    rw [chipAgreement, ← sum_range_real]
    push_cast
    simp [Function.comp_def]
  rw [hcast]
  refine Finset.sum_congr rfl fun j hj => ?_
  rw [chipsOf_real_getD _ _ (Finset.mem_range.1 hj), chipsOf_real_getD _ _ (Finset.mem_range.1 hj)]
  cases sign seed n j <;> cases sign seed' n j <;> norm_num

/-- What is decided of a bit, by the agreement of the chips it was sent with and those it is received with. -/
def agreementDecision (rho : ℤ) (bit : Bool) : Bool := if rho = 0 then false else if 0 < rho then bit else !bit

theorem agreementDecision_of_pos {rho : ℤ} (h : 0 < rho) : agreementDecision rho = id :=
  funext fun _ => (if_neg h.ne').trans (if_pos h)

theorem agreementDecision_zero : agreementDecision 0 = fun _ => false := rfl

theorem agreementDecision_of_neg {rho : ℤ} (h : rho < 0) : agreementDecision rho = fun bit => !bit :=
  funext fun _ => (if_neg h.ne).trans (if_neg h.le.not_gt)

/-- Where chips agree no more than they differ, no 1 is decided to be a 1. -/
theorem agreementDecision_true_of_nonpos {rho : ℤ} (h : rho ≤ 0) : agreementDecision rho true = false := by
  obtain h | rfl := h.lt_or_eq
  · rw [agreementDecision_of_neg h]; rfl
  · rfl

/-- No agreement decides every bit to be a 1. -/
theorem agreementDecision_exclusive (rho : ℤ) : (agreementDecision rho true && agreementDecision rho false) = false := by
  obtain h | h := le_or_gt rho 0
  · rw [agreementDecision_true_of_nonpos h]; rfl
  · rw [agreementDecision_of_pos h]; rfl

/-- It is the decision on the bit's metric (43_spread_despread.md R188, R189). -/
theorem decide_level_eq_agreementDecision (bit : Bool) (rho : ℤ) {n : ℕ} (hn : 1 ≤ n) :
    decide (0 < lvl realOps bit * ((rho : ℝ) / n)) = agreementDecision rho bit := by
  have hn : (0 : ℝ) < n := Nat.cast_pos.2 hn
  obtain h | rfl | h := lt_trichotomy rho 0
  · rw [agreementDecision_of_neg h, decide_level_of_neg _ (div_neg_of_neg_of_pos (Int.cast_lt_zero.2 h) hn)]
  · simp [agreementDecision_zero]
  · rw [agreementDecision_of_pos h, decide_level_of_pos _ (div_pos (Int.cast_pos.2 h) hn), id]

/-! ### `RUN` without noise -/

theorem noisySamples_of_no_power {s : State.Of α} (h : P.num.gt0 s.npow = false) (v : Wave.Of α) :
    noisySamples P s v = v.data := if_neg (by simp [noiseActive, h])

section

variable {P : Params ℝ} {s : State.Of ℝ} (hP : P.num = realOps)
include hP

theorem runRate_real : runRate P s = s.chiprate * s.ovs.toNat := by
  rw [runRate, hP]
  rfl

/-- The premises of a `RUN` without a fault (R256); the last capacity check implies the two before it. -/
theorem runFits_real (hb : readB 0 s ≠ []) (hs : s.scheme.toNat ≤ 3) (hm : s.nmode.toNat ≤ 1) (hrate : 0 < s.chiprate)
    (hn : 1 ≤ s.cpb.toNat) (hf : 1 ≤ s.ovs.toNat) (hcode : codeLength s.scheme.toNat (readB 0 s).length ≤ bcapOf P)
    (hfit : codeLength s.scheme.toNat (readB 0 s).length * s.cpb.toNat * s.ovs.toNat ≤ P.wcap) : RunFits P s := by
  have hcodePos := Nat.pos_of_ne_zero (codeLength_pos s.scheme.toNat _ (mt List.length_eq_zero_iff.1 hb))
  have hspread := (Nat.le_mul_of_pos_right _ hf).trans hfit
  have hsample : 0 < runRate P s := by
    rw [runRate_real hP]
    exact mul_pos hrate (Nat.cast_pos.2 hf)
  exact {
    scheme := hs
    code := hcode
    chips := (Nat.le_mul_of_pos_left _ hcodePos).trans hspread
    spread := hspread
    oversampled := hfit
    ovs := Nat.ne_of_gt hf
    rate := by rw [hP]; exact decide_eq_true hsample
    nmode := hm
    cpb := Nat.ne_of_gt hn }

variable (hpow : s.npow = 0)
include hpow

theorem runDemodulated_real : runDemodulated P s = linkSamples s.fc (runRate P s) s.cpb.toNat s.ovs.toNat (runCode s)
    (chipsOf realOps P.chipSign s.seedtx s.cpb.toNat) := by
  have hquiet : P.num.gt0 s.npow = false := by rw [hP, hpow]; simp [realOps]
  rw [runDemodulated, runChannel, noisySamples_of_no_power hquiet, runModulated, runBase, runChips, chipGenOf, hP]
  rfl

variable (hb : readB 0 s ≠ []) (hn : 1 ≤ s.cpb.toNat) (hf : 1 ≤ s.ovs.toNat)
include hb hn hf

/-- With equal seeds every decision is the bit sent, over any carrier (R260 (a), 44_carrier.md R204). -/
theorem runHard_of_equal_seeds (hnf : 2 ≤ s.cpb.toNat * s.ovs.toNat) (hrate : 0 < s.chiprate)
    (hseeds : s.seedtx = s.seedrx) : runHard P s = (runCode s).map id := by
  rw [runHard, runMetrics, runDemodulated_real hP hpow, chipGenOf, hP, ← hseeds, List.map_id]
  exact linkRecoversEveryBit _ _ _ _ s.fc _ _ (runCode_ne_nil hb) hn hf hnf (chipsOf_length ..)
    (chipsOf_range realOps _ _ _) hrate (runRate_real hP)

/-- Over a carrier whose squares are 1 the agreement of the chips decides (R260 (b)). -/
theorem runHard_of_half_carrier {k : ℤ} (hhalf : s.fc / (s.chiprate * s.ovs.toNat) = k / 2) :
    runHard P s =
      (runCode s).map (agreementDecision (chipAgreement P.chipSign s.seedtx s.seedrx s.cpb.toNat)) := by
  rw [← runRate_real hP] at hhalf
  rw [runHard, runMetrics, runDemodulated_real hP hpow, chipGenOf, hP, linkSamples_of_sq (carrierAt_sq_of_half hhalf),
    despread_hold_spreadBits (runCode_ne_nil hb) hn hf (chipsOf_length ..), sliceBits_levels, correlation_chipsOf]
  exact List.map_congr_left fun bit _ => decide_level_eq_agreementDecision bit _ hn

end

/-- Settles O56: the decisions keep every bit with equal seeds, and else do to it what the sign of the agreement says. -/
theorem runLawsInNumReal : Obligations.RunLawsInNumReal := by
  rintro P s n f L rho hP rfl rfl rfl rfl hb hlt hs hm hrate hn hf hnf hcode hfit hpow
  have hrun := ruleRun_of_fits hb (runFits_real hP hb hs hm hrate hn hf hcode hfit)
  refine ⟨{ runResult P s with pc := s.pc + 1 }, congrArg (finish s) hrun, rfl, fun hseeds => ?equal, ?agreement⟩
  case equal =>
    have hhard := runHard_of_equal_seeds hP hpow hb hn hf hnf hrate hseeds
    exact (received_runResult rfl hs hlt hhard _).unchanged
  case agreement =>
    rintro ⟨k, hhalf⟩
    have hhard := runHard_of_half_carrier hP hpow hb hn hf hhalf
    have hreceived := received_runResult (agreementDecision_exclusive _) hs hlt hhard (s.pc + 1)
    refine ⟨fun hpos => ?pos, fun hzero => ?zero, fun hneg => ?neg, fun htx hrx hsize hproperty hmem => ?impostor⟩
    case pos => exact (agreementDecision_of_pos hpos ▸ hreceived).unchanged
    case zero =>
      rw [hzero, agreementDecision_zero] at hreceived
      exact ⟨hreceived.hard, hreceived.decoded⟩
    case neg =>
      rw [agreementDecision_of_neg hneg] at hreceived
      exact ⟨hreceived.hard, hreceived.decoded⟩
    case impostor =>
      rw [ImpostorProperty, ← htx, ← hrx, ← hsize] at hproperty
      exact hreceived.mismatch_of_true_mem (agreementDecision_true_of_nonpos hproperty) hmem

end Sys2Proof.Machine
end

section
/-! SUPPORT. Reset (70_reset_and_hazards.md), the faults a step takes (60_exceptions.md), and that a run ends. -/

namespace Sys2Proof.Machine

variable {α : Type} {P : Params α}

/-! ### Power-on and `HostReset` (R340, R342) -/

/-- The host resets to the power-on state but for the draws, which no register, buffer or tap shows (log 8). -/
theorem hostStep_reset (s : State) : hostStep .reset s = .answer .done { State.reset with draws := s.draws } := rfl

theorem readCsr_reset (k : Nat) (r : IntCsr) : readCsr r { State.reset with draws := k } = 0 := by
  cases r <;> rfl

theorem readReal_reset (k : Nat) (r : RealCsr) : readReal r { State.reset with draws := k } = num.zero := by
  cases r <;> rfl

/-- Settles O1: the power-on state is the one with no draws taken, and the draws are in no element of the table. -/
theorem resetPutsEveryElementToItsResetValue : Obligations.ResetPutsEveryElementToItsResetValue := by
  refine ⟨rfl, fun s => ⟨_, hostStep_reset s⟩, fun t ht => ?_⟩
  obtain ⟨k, rfl⟩ : ∃ k, t = { State.reset with draws := k } := by
    obtain rfl | ⟨s, hs⟩ := ht
    · exact ⟨0, rfl⟩
    · rw [hostStep_reset] at hs
      cases hs
      exact ⟨s.draws, rfl⟩
  refine ⟨fun r => ?scalar, rfl, rfl, readCsr_reset k, readReal_reset k, fun d => ?bits, fun d => ?samples, fun j => ?taps⟩
  case scalar => exact Vector.getElem_replicate ..
  case bits => exact Vector.getElem_replicate ..
  case samples =>
    have hempty : readW d { State.reset with draws := k } = Wave.empty num := Vector.getElem_replicate ..
    rw [hempty]
    exact ⟨rfl, rfl⟩
  case taps =>
    have hempty : State.reset.t[j] = Wave.empty num := Vector.getElem_replicate ..
    exact ⟨congrArg Wave.Of.data hempty, congrArg Wave.Of.rate hempty⟩

/-! ### Taking a fault (R301, R305, R310) -/

/-- A value that fits a word is recorded as it is. -/
theorem saturate_toNat {n : Nat} (v : BitVec n) (hn : n ≤ 64) : saturate v.toNat = v.setWidth 64 := by
  rw [saturate, if_pos (v.isLt.trans_le (Nat.pow_le_pow_right two_pos hn)), BitVec.ofNat_toNat]

/-- Saturation is the minimum with the greatest word. -/
theorem saturate_eq_ofNat_min (v : Nat) : saturate v = BitVec.ofNat 64 (min v (2 ^ 64 - 1)) := by
  unfold saturate
  split
  · rw [Nat.min_eq_left (by omega)]
  · rw [Nat.min_eq_right (by omega)]
    rfl

/-- The fault of an illegal word: cause 3, and the word itself in `FINFO`. -/
theorem takeFault_illegalCommand (w : CmdWord) (s : State.Of α) : takeFault ⟨.illegalCommand, w.toNat⟩ s =
    { s with cause := 3, fpc := s.pc.setWidth 64, finfo := w.setWidth 64, mode := .fault } := by
  rw [takeFault, saturate_toNat w (by decide)]
  rfl

/-- A step in `EXEC` at a word that is no encoding. -/
theorem step_of_decode_error {s : State} {w : CmdWord} {e : DecodeError} (hx : s.mode = .exec)
    (hw : s.stream[s.pc.toNat]? = some w) (he : decode w = .error e) :
    step s = .next (takeFault ⟨.illegalCommand, w.toNat⟩ s) := by
  have hfetch : fetch s = .ok w := (fetch_eq_ok s w).2 ⟨hx, hw⟩
  simp only [step, hfetch, he, illegalWord, finish_error]

/-- A command whose register number fails the check by value of R100 raises its own word. -/
theorem exec_of_not_wf {i : Instr} (hi : i.wf = false) (s : State) :
    exec i s = .next (takeFault ⟨.illegalCommand, (encode i).toNat⟩ s) := by
  cases i with
  | csrr xd csr => exact exec_csrr_of_notMem xd s (by simpa [Instr.wf] using hi)
  | csrw xs csr => exact exec_csrw_of_notMem xs s (by simpa [Instr.wf] using hi)
  | _ => cases hi

/-- Settles O7: the decoder refuses the word, or the command it decodes to refuses its register number, and that command's
one encoding is the word. -/
theorem illegalWordFaults : Obligations.IllegalWordFaults := by
  intro s w hx hw hillegal
  rw [← takeFault_illegalCommand]
  cases hd : decode w with
  | error e => exact step_of_decode_error hx hw hd
  | ok i =>
    rw [stepRunsDecodedCommand.1 s w i hx hw hd, exec_of_not_wf (hillegal i hd), encodeOfDecode w i hd]

/-- Settles O8: the end of a command is its rule's, and the effect of a rule that completes leaves the fault record alone. -/
theorem everyCommandAdvancesOrFaults : Obligations.EveryCommandAdvancesOrFaults := by
  refine ⟨fun i s => ?_, fun r s => ?_⟩
  · cases hrule : ruleIn machine i s with
    | ok u =>
      have heffect := ruleIn_effect hrule
      obtain ⟨hcause, hfpc, hfinfo⟩ := heffect.record
      have hmode : u.mode = s.mode ∨ i = .halt := heffect.mode_done.symm.imp And.left And.left
      exact ⟨_, exec_of_rule_ok hrule, .inl ⟨u, rfl, rfl, hcause, hfpc, hfinfo, hmode⟩⟩
    | error r => exact ⟨_, exec_of_rule_error hrule, .inr ⟨r, rfl, rfl, rfl, rfl⟩⟩
  · rw [takeFault, saturate_eq_ofNat_min]
    cases r.cause <;> rfl

/-! ### A run ends (70_reset_and_hazards.md R355) -/

/-- No step writes the stream. -/
theorem stepIn_stream {s t : State.Of α} (h : stepIn P s = .next t) : t.stream = s.stream := by
  obtain ⟨w, -, ⟨i, u, -, hu, rfl⟩ | ⟨-, e, rfl⟩⟩ := stepIn_next h
  · obtain ⟨-, -, -, -, hstream⟩ := (ruleIn_effect hu).real_stream
    exact hstream
  · rfl

theorem stepMany_succ_of_step {s t : State} (k : Nat) (h : step s = .next t) : stepMany (k + 1) s = stepMany k t := by
  rw [stepMany, h]

/-- Where a run ends (R355): after `HALT`, at a fault, or at the end of the stream. -/
def RunEnded (t : State) : Prop :=
  (t.mode = .idle ∧ t.done = true) ∨ t.mode = .fault ∨ (t.mode = .exec ∧ t.pc.toNat = t.stream.length)

/-- With `m` words left the run ends within `m` steps: each step ends it or leaves one word less. -/
theorem exists_runEnded_of_left (m : Nat) {s : State} (hx : s.mode = .exec) (hleft : s.pc.toNat + m = s.stream.length)
    (hshort : s.stream.length < 2 ^ 32) : ∃ k ≤ m, ∃ t, stepMany k s = .next t ∧ RunEnded t := by
  induction m generalizing s with
  | zero => exact ⟨0, le_rfl, s, rfl, .inr (.inr ⟨hx, hleft⟩)⟩
  | succ m ih =>
    obtain ⟨t, ht⟩ := (exists_stepIn_next_iff (P := machine) s).2 ((exists_fetch_iff s).2 ⟨hx, by omega⟩)
    have hstep : step s = .next t := (step_eq_stepIn s).trans ht
    obtain ⟨-, hdone, -, hadvance⟩ := stepIn_mode ht
    cases hmode : t.mode with
    | idle => exact ⟨1, by omega, t, stepMany_succ_of_step 0 hstep, .inl ⟨hmode, hdone hmode⟩⟩
    | fault => exact ⟨1, by omega, t, stepMany_succ_of_step 0 hstep, .inr (.inl hmode)⟩
    | exec =>
      have hpc : t.pc = s.pc + 1 := hadvance (by simp [hmode])
      have hstream := stepIn_stream ht
      have hnext : t.pc.toNat + m = t.stream.length := by
        rw [hstream, hpc]
        bv_omega
      obtain ⟨k, hk, u, hu, hended⟩ := ih hmode hnext (hstream ▸ hshort)
      exact ⟨k + 1, by omega, u, (stepMany_succ_of_step k hstep).trans hu, hended⟩

/-- Settles O14: at `pc = 0` the whole stream is left. -/
theorem runsTerminate : Obligations.RunsTerminate := fun s hx hpc hshort =>
  exists_runEnded_of_left s.stream.length hx (by simp [hpc]) hshort

end Sys2Proof.Machine
end

section
/-! SUPPORT. "Run simulation" (48_host_reference.md R274, R275): the host's moves up to the start of `RUN; HALT`, the two steps
after it, and how each end of `RUN` ends the simulation. -/

namespace Sys2Proof.Machine

variable {α : Type} {P : Params α}

/-! ### Texts and bits (R271, R272) -/

/-- A whole number of bytes is written back as it was read. -/
theorem textToBits_bitsToBytes {v : BitSeq} (h : v.length % 8 = 0) : textToBits (bitsToBytes v) = v := by
  have hbyte : ∀ p ∈ groups 8 v, byteBits (BitVec.ofNat 8 (pack p)) = p := by
    intro p hp
    have hlen := group_length 8 v p hp
    have hlt : pack p < 2 ^ 8 := hlen ▸ pack_lt p
    have hword : (BitVec.ofNat 8 (pack p)).setWidth 64 = BitVec.ofNat 64 (pack p) :=
      BitVec.eq_of_toNat_eq (by simp; omega)
    rw [byteBits_eq_unpack, hword, unpack_pack p 8 hlen (by decide)]
  rw [textToBits, bitsToBytes, List.flatMap_map, List.flatMap_def, List.map_congr_left hbyte, List.map_id', groups_flatten,
    Nat.div_mul_cancel (Nat.dvd_of_mod_eq_zero h), List.take_length]

/-- Neither truncated nor padded, where the bits are as many as the expected bytes have. -/
theorem bitsToTextBytes_of_length {v : BitSeq} {count : Nat} (h : v.length = 8 * count) :
    bitsToTextBytes v count = bitsToBytes v := by
  have hpad : (8 - v.length % 8) % 8 = 0 := by omega
  rw [bitsToTextBytes, ← h, List.take_length, hpad, List.replicate_zero, List.append_nil]

/-! ### The host's moves (R274) -/

/-- A move that is done leads on. -/
theorem hostMoves_of_done {op : HostOp.Of α} {s t : State.Of α} (rest : List (HostOp.Of α))
    (h : hostStepIn P op s = .answer .done t) : hostMoves P (op :: rest) s = hostMoves P rest t := by
  rw [hostMoves, h]

theorem hostMoves_writeInt (r : IntCsr) (hw : r.writable = true) (v : Word) (rest : List (HostOp.Of α)) {s : State.Of α}
    (hx : s.mode ≠ .exec) : hostMoves P (.writeCsr r.number (.int v) :: rest) s = hostMoves P rest (writeCsr r v s) := by
  obtain ⟨hdone, -⟩ := hostStepIn_writeCsr_number (P := P) hw v hx
  exact hostMoves_of_done rest hdone

theorem hostMoves_writeReal (r : RealCsr) (v : α) (rest : List (HostOp.Of α)) {s : State.Of α} (hx : s.mode ≠ .exec) :
    hostMoves P (.writeCsr r.number (.real v) :: rest) s = hostMoves P rest (writeReal r v s) := by
  obtain ⟨hdone, -⟩ := hostStepIn_writeCsr_realNumber (P := P) r v hx
  exact hostMoves_of_done rest hdone

theorem hostMoves_start {stream : List CmdWord} {s : State.Of α} (hidle : s.mode = .idle) (hshort : stream.length < 2 ^ 32) :
    hostMoves P [.start stream] s = .ok { s with stream := stream, pc := 0, done := false, mode := .exec } :=
  hostMoves_of_done [] (hostStart_of_idle hidle hshort)

/-- The state in which the host has written the homes of the inputs and started `RUN; HALT`. -/
def simulationStart (q : SimRequest α) (s : State.Of α) : State.Of α :=
  { s with b := s.b.set 0 (textToBits q.message),
           seedtx := deriveSeed q.txSecret, seedrx := deriveSeed q.rxSecret,
           cpb := BitVec.ofNat 64 (hostChipsPerBit q.txSecretLength), chiprate := q.chipRate, fc := q.carrierFreq,
           npow := q.noisePower, nbw := q.noiseBandwidth, ovs := q.oversampling, scheme := q.scheme,
           nmode := q.noiseMode, stream := [0x03000000, 0x02000000], pc := 0, done := false, mode := .exec }

/-- The moves, their registers by name (10_state.md R30, R32). -/
theorem simulationMoves_eq (q : SimRequest α) : simulationMoves q =
    [.writeB 0 (textToBits q.message),
     .writeCsr IntCsr.seedtx.number (.int (deriveSeed q.txSecret)),
     .writeCsr IntCsr.seedrx.number (.int (deriveSeed q.rxSecret)),
     .writeCsr IntCsr.cpb.number (.int (BitVec.ofNat 64 (hostChipsPerBit q.txSecretLength))),
     .writeCsr RealCsr.chiprate.number (.real q.chipRate), .writeCsr RealCsr.fc.number (.real q.carrierFreq),
     .writeCsr RealCsr.npow.number (.real q.noisePower), .writeCsr RealCsr.nbw.number (.real q.noiseBandwidth),
     .writeCsr IntCsr.ovs.number (.int q.oversampling), .writeCsr IntCsr.scheme.number (.int q.scheme),
     .writeCsr IntCsr.nmode.number (.int q.noiseMode), .start [0x03000000, 0x02000000]] := rfl

/-- From `IDLE`, with a message that fits, no move is refused. -/
theorem hostMoves_simulationMoves (q : SimRequest α) {s : State.Of α} (hidle : s.mode = .idle)
    (hfit : (textToBits q.message).length ≤ bcapOf P) :
    hostMoves P (simulationMoves q) s = .ok (simulationStart q s) := by
  have hx : s.mode ≠ .exec := by simp [hidle]
  obtain ⟨hbits, -⟩ := hostStepIn_writeB_of_le (P := P) 0 hx hfit
  rw [simulationMoves_eq, hostMoves_of_done _ hbits, hostMoves_writeInt .seedtx rfl, hostMoves_writeInt .seedrx rfl,
    hostMoves_writeInt .cpb rfl, hostMoves_writeReal .chiprate, hostMoves_writeReal .fc, hostMoves_writeReal .npow,
    hostMoves_writeReal .nbw, hostMoves_writeInt .ovs rfl, hostMoves_writeInt .scheme rfl, hostMoves_writeInt .nmode rfl,
    hostMoves_start]
  · simp only [writeCsr, writeReal, simulationStart]
    rfl
  all_goals simp [hidle]

/-- A message that does not fit is refused at the first move. -/
theorem hostMoves_simulationMoves_of_lt (q : SimRequest α) {s : State.Of α} (hidle : s.mode = .idle)
    (hlt : bcapOf P < (textToBits q.message).length) : hostMoves P (simulationMoves q) s = .error s := by
  have hrefused := hostStepIn_writeB_of_lt (P := P) 0 (s := s) (by simp [hidle]) hlt
  rw [simulationMoves, hostMoves, hrefused]

/-! ### The sequencer's two steps (30_encoding.md R93) -/

theorem stepIn_of_decode {i : Instr} {s : State.Of α} {w : CmdWord} (hx : s.mode = .exec)
    (hw : s.stream[s.pc.toNat]? = some w) (hi : decode w = .ok i) : stepIn P s = execIn P i s := by
  have hfetch : fetch s = .ok w := (fetch_eq_ok s w).2 ⟨hx, hw⟩
  simp only [stepIn, hfetch, hi]

theorem awaitStop_of_next {s t : State.Of α} (k : Nat) (h : stepIn P s = .next t) : awaitStop P (k + 1) s = awaitStop P k t := by
  rw [awaitStop, h]

/-- A sequencer that has stopped stays where it is (10_state.md R24). -/
theorem awaitStop_of_stopped (k : Nat) {s : State.Of α} (hx : s.mode ≠ .exec) : awaitStop P k s = s := by
  cases k with
  | zero => rfl
  | succ k =>
    unfold awaitStop
    split
    next t ht =>
      obtain ⟨hexec, -⟩ := (exists_fetch_iff s).1 ((exists_stepIn_next_iff s).1 ⟨t, ht⟩)
      exact absurd hexec hx
    next => rfl
    next => rfl

/-- `RUN` completes where its needs are met, and leaves `runResult` (47_system_run.md R252 to R258). -/
theorem ruleRun_eq_ok_iff_fits (s t : State.Of α) : ruleRun P s = .ok t ↔ readB 0 s ≠ [] ∧ RunFits P s ∧ t = runResult P s := by
  constructor
  · intro h
    obtain ⟨hb, u, hu, -, rfl⟩ := (ruleRun_eq_ok ..).1 h
    obtain ⟨hfit, rfl⟩ := (runPipeline_eq_ok _ _ hb).1 hu
    exact ⟨hb, hfit, rfl⟩
  · rintro ⟨hb, hfit, rfl⟩
    exact ruleRun_of_fits hb hfit

/-- After a completed `RUN` the second step is `HALT`. -/
theorem awaitStop_of_completed {q : SimRequest α} {s v : State.Of α} (h : ruleRun P (simulationStart q s) = .ok v) :
    awaitStop P 2 (simulationStart q s) = { v with done := true, mode := .idle, pc := 2 } := by
  have hrun : stepIn P (simulationStart q s) = .next { v with pc := 1 } :=
    (stepIn_of_decode (i := .run) rfl rfl (by decide)).trans (congrArg (finish _) h)
  obtain ⟨-, -, rfl⟩ := (ruleRun_eq_ok_iff_fits ..).1 h
  have hhalt : stepIn P { runResult P (simulationStart q s) with pc := 1 } =
      .next { runResult P (simulationStart q s) with done := true, mode := .idle, pc := 2 } :=
    stepIn_of_decode (i := .halt) rfl rfl (by decide)
  rw [awaitStop_of_next 1 hrun, awaitStop_of_next 0 hhalt, awaitStop]

/-- After a `RUN` that raises there is no second step. -/
theorem awaitStop_of_raised {q : SimRequest α} {s : State.Of α} {e : Raise} (h : ruleRun P (simulationStart q s) = .error e) :
    awaitStop P 2 (simulationStart q s) = takeFault e (simulationStart q s) := by
  have hrun : stepIn P (simulationStart q s) = .next (takeFault e (simulationStart q s)) :=
    (stepIn_of_decode (i := .run) rfl rfl (by decide)).trans (congrArg (finish _) h)
  rw [awaitStop_of_next 1 hrun, awaitStop_of_stopped 1 (by simp)]

/-! ### How the simulation ends (R275) -/

/-- The result the host reads from the state in which the sequencer has stopped. -/
def simulationResult (q : SimRequest α) (t : State.Of α) : SimResult α where
  id := t.runid
  decoded := bitsToTextBytes (readB 3 t) q.message.length
  mismatch := t.mismatch
  stages := t.t.toList

/-- A completed `RUN` gives a result. -/
theorem runSimulation_of_completed (q : SimRequest α) {s v : State.Of α} (hidle : s.mode = .idle)
    (hfit : (textToBits q.message).length ≤ bcapOf P) (h : ruleRun P (simulationStart q s) = .ok v) :
    runSimulation P q s = (.result (simulationResult q v), { v with done := true, mode := .idle, pc := 2 }) := by
  simp only [runSimulation, hostMoves_simulationMoves q hidle hfit, awaitStop_of_completed h]
  rfl

/-- A `RUN` that raises gives InvalidArgument, the fault cleared, or another fault, by its cause. -/
theorem runSimulation_of_raised (q : SimRequest α) {s t : State.Of α} {e : Raise} (hidle : s.mode = .idle)
    (hfit : (textToBits q.message).length ≤ bcapOf P) (h : ruleRun P (simulationStart q s) = .error e)
    (ht : t = takeFault e (simulationStart q s)) : runSimulation P q s =
      if t.cause = 1 ∨ t.cause = 2 then (.invalidArgument t.cause t.finfo, clearFault t) else (.otherFault t.cause t.finfo, t) := by
  have hdone : t.done = false := by rw [ht]; rfl
  simp only [runSimulation, hostMoves_simulationMoves q hidle hfit, awaitStop_of_raised h, ← ht, hdone]
  rfl

/-- What a completed `RUN` decoded is as many bytes as the message, equal to it where the bits are. -/
theorem simulationResult_runResult {q : SimRequest α} {u : State.Of α} (hu : readB 0 u = textToBits q.message)
    (hlt : 8 * q.message.length < 2 ^ 64) (hb : readB 0 u ≠ []) (hfit : RunFits P u) {r : SimResult α}
    (hr : r = simulationResult q (runResult P u)) :
    r.decoded.length = q.message.length ∧ readB 3 (runResult P u) = textToBits r.decoded ∧
      (r.mismatch = true ↔ r.decoded ≠ q.message) := by
  have hbits : readB 3 (runResult P u) = runDecoded P u := readB_three_runBuffers u
  have hsent : (readB 0 u).length = 8 * q.message.length := by rw [hu, textToBits_length, Nat.mul_comm]
  have hlen : (runDecoded P u).length = 8 * q.message.length :=
    (runDecoded_length hb hfit (hsent.trans_lt hlt)).trans hsent
  have hdecoded : r.decoded = bitsToBytes (runDecoded P u) := by
    rw [hr, simulationResult, hbits, bitsToTextBytes_of_length hlen]
  have hback : textToBits r.decoded = runDecoded P u := by rw [hdecoded, textToBits_bitsToBytes (by omega)]
  have hmismatch : r.mismatch = bitsDiffer (runDecoded P u) (readB 0 u) := by
    rw [hr, ← hbits, ← readB_zero_runScratch (P := P) u]
    rfl
  refine ⟨?length, hbits.trans hback.symm, ?differs⟩
  case length =>
    have hcount := textToBits_length r.decoded
    rw [hback] at hcount
    omega
  case differs =>
    have hinj : textToBits r.decoded = textToBits q.message ↔ r.decoded = q.message :=
      (Function.LeftInverse.injective bitsToBytes_textToBits).eq_iff
    rw [hmismatch, bitsDiffer_eq_true_iff, ← hback, hu, ne_eq, hinj]

/-- Settles O58: the end of `RUN`, completed or raised, is the end of the simulation. -/
theorem hostRunsSimulation : Obligations.HostRunsSimulation := by
  intro α P q s u hidle hcap hlt hu
  obtain rfl : u = simulationStart q s := hu
  have hfit : (textToBits q.message).length ≤ bcapOf P := by rwa [textToBits_length, Nat.mul_comm]
  cases hrun : ruleRun P (simulationStart q s) with
  | ok v =>
    obtain ⟨hb, hneeds, rfl⟩ := (ruleRun_eq_ok_iff_fits ..).1 hrun
    have hsent : readB 0 (simulationStart q s) = textToBits q.message := Vector.getElem_set_self ..
    obtain ⟨hlength, hdecoded, hmismatch⟩ := simulationResult_runResult hsent hlt hb hneeds rfl
    have hend := runSimulation_of_completed q hidle hfit hrun
    refine ⟨_, congrArg (finish _) hrun, fun _ => ⟨_, hend, rfl, rfl, rfl, hlength, hdecoded, hmismatch⟩, nofun, nofun⟩
  | error e =>
    have hend := runSimulation_of_raised q hidle hfit hrun rfl
    refine ⟨_, congrArg (finish _) hrun, nofun, fun _ hcause => ?invalid, fun _ hne1 hne2 => ?other⟩
    case invalid => exact hend.trans (if_pos hcause)
    case other => exact hend.trans (if_neg (not_or.2 ⟨hne1, hne2⟩))

end Sys2Proof.Machine
end

section
/-! SUPPORT. The StageCache in closed form, what decimation keeps, and "Query stage" from the taps and from a cache
(48_host_reference.md R280 to R288). -/

namespace Sys2Proof.Machine

variable {α : Type} {P : Params α}

/-! ### The StageCache (R280 to R282) -/

/-- The entries of a cache under other ids, in order. -/
def entriesBut (cache : StageCache α) (id : Word) : StageCache α := cache.filter fun e => e.1 != id

theorem ne_of_mem_entriesBut {cache : StageCache α} {id : Word} : ∀ e ∈ entriesBut cache id, e.1 ≠ id := by
  simp [entriesBut]

theorem entriesBut_eq_self {cache : StageCache α} {id : Word} (h : ∀ e ∈ cache, e.1 ≠ id) : entriesBut cache id = cache :=
  List.filter_eq_self.2 fun e he => bne_iff_ne.2 (h e he)

/-- A store evicts the oldest entry of another id, or none, and puts the new entry last (R281). -/
theorem cacheStore_eq {size : Nat} (hsize : 1 ≤ size) (cache : StageCache α) (id : Word) (stages : List (Wave.Of α)) :
    cacheStore size cache id stages =
      (entriesBut cache id).drop (if size ≤ (entriesBut cache id).length then 1 else 0) ++ [(id, stages)] := by
  have hdef : cacheStore size cache id stages = if size < (entriesBut cache id ++ [(id, stages)]).length
      then (entriesBut cache id ++ [(id, stages)]).drop 1 else entriesBut cache id ++ [(id, stages)] := rfl
  simp only [List.length_append, List.length_singleton, Nat.lt_succ_iff] at hdef
  rw [hdef]
  split
  next hfull => rw [List.drop_append_of_le_length (hsize.trans hfull)]
  next => rw [List.drop_zero]

/-- No entry under an id: NotFound (R282). -/
theorem cacheGet_of_ne {cache : StageCache α} {id : Word} (h : ∀ e ∈ cache, e.1 ≠ id) (stage : Nat) :
    cacheGet cache id stage = none := by
  have hnone : cache.find? (fun e => e.1 == id) = none := List.find?_eq_none.2 fun e he => by simpa using h e he
  rw [cacheGet, hnone, Option.bind_none]

/-- A cache that holds an entry or more answers what was stored in it last. -/
theorem cacheGet_cacheStore {size : Nat} (hsize : 1 ≤ size) (cache : StageCache α) (id : Word) (stages : List (Wave.Of α))
    (stage : Nat) : cacheGet (cacheStore size cache id stages) id stage = stages[stage]? := by
  have hothers (k : Nat) : ((entriesBut cache id).drop k).find? (fun e => e.1 == id) = none :=
    List.find?_eq_none.2 fun e he => by simpa using ne_of_mem_entriesBut e (List.mem_of_mem_drop he)
  simp [cacheGet, cacheStore_eq hsize, List.find?_append, hothers]

/-- Distinct ids stored in an empty cache: the last `size` of them are left, in order. -/
theorem foldl_cacheStore_eq {size : Nat} (hsize : 1 ≤ size) (stages : Word → List (Wave.Of α)) {ids : List Word}
    (hids : ids.Nodup) : ids.foldl (fun c id => cacheStore size c id (stages id)) [] =
      (ids.drop (ids.length - size)).map fun id => (id, stages id) := by
  induction ids using List.reverseRecOn with
  | nil => simp
  | append_singleton ids id ih =>
    obtain ⟨hids, -, hdisjoint⟩ := List.nodup_append.1 hids
    have hfresh : ∀ e ∈ (ids.drop (ids.length - size)).map fun id => (id, stages id), e.1 ≠ id := by
      intro e he
      obtain ⟨old, hold, rfl⟩ := List.mem_map.1 he
      exact hdisjoint old (List.mem_of_mem_drop hold) id (List.mem_singleton_self id)
    have hdrop : ids.length - size + (if size ≤ ids.length - (ids.length - size) then 1 else 0) =
        ids.length + 1 - size := by
      split <;> omega
    rw [List.foldl_append, ih hids, List.foldl_cons, List.foldl_nil, cacheStore_eq hsize, entriesBut_eq_self hfresh,
      List.length_map, List.length_drop, ← List.map_drop, List.drop_drop, hdrop, List.length_append, List.length_singleton,
      List.drop_append_of_le_length (by omega), List.map_append, List.map_singleton]

/-- Storing an id again moves it to the end; nothing is evicted where all had room. -/
theorem cacheStore_of_mem {size : Nat} {before after : StageCache α} {id : Word} (old new : List (Wave.Of α))
    (hothers : ∀ e ∈ before ++ after, e.1 ≠ id) (hroom : (before ++ (id, old) :: after).length ≤ size) :
    cacheStore size (before ++ (id, old) :: after) id new = before ++ after ++ [(id, new)] := by
  have hbut : entriesBut (before ++ (id, old) :: after) id = before ++ after := by
    rw [← entriesBut_eq_self hothers]
    simp [entriesBut]
  have hlen : (before ++ (id, old) :: after).length = (before ++ after).length + 1 := by simp; omega
  rw [cacheStore_eq (by omega), hbut, if_neg (by omega), List.drop_zero]

/-! ### Decimation (R285) -/

theorem decimate_of_le {l : List α} {maxPoints : Nat} (h : l.length ≤ maxPoints) : decimate l maxPoints = l := if_pos h

/-- A longer sequence: every `stride`-th element from the first. -/
theorem decimate_of_lt {l : List α} {maxPoints stride : Nat} (h : maxPoints < l.length)
    (hstride : stride = l.length ⌈/⌉ maxPoints) (hpos : 0 < stride) :
    (decimate l maxPoints).length = l.length ⌈/⌉ stride ∧
      ∀ k, k * stride < l.length → (decimate l maxPoints)[k]? = l[k * stride]? := by
  have hinside (k : Nat) : k < l.length ⌈/⌉ stride ↔ k * stride < l.length := by
    rw [← not_le, ceilDiv_le_iff_le_mul hpos, not_le, Nat.mul_comm]
  have hpieces : decimate l maxPoints = (List.range (l.length ⌈/⌉ stride)).flatMap fun k => (l.drop (k * stride)).take 1 := by
    rw [hstride]
    exact if_neg (not_le.2 h)
  have hone : ∀ k ∈ List.range (l.length ⌈/⌉ stride), ((l.drop (k * stride)).take 1).length = 1 := by
    intro k hk
    have hk := (hinside k).1 (List.mem_range.1 hk)
    rw [List.length_take, List.length_drop]
    omega
  constructor
  · rw [hpieces, length_pieces 1 _ _ hone, List.length_range, Nat.mul_one]
  · intro k hk
    have hkth := getElem?_pieces 1 _ _ hone k 0 Nat.one_pos
    rw [Nat.mul_one, Nat.add_zero, ← hpieces] at hkth
    simp [hkth, (hinside k).2 hk]

/-- No more than `maxPoints` elements are kept, with a stride of 1 or more. -/
theorem decimation_bounds {n maxPoints stride : Nat} (hmax : 0 < maxPoints) (hn : 0 < n) (hstride : stride = n ⌈/⌉ maxPoints) :
    0 < stride ∧ n ⌈/⌉ stride ≤ maxPoints := by
  have hcover : n ≤ maxPoints * stride := (ceilDiv_le_iff_le_mul hmax).1 hstride.ge
  have hpos : 0 < stride := Nat.pos_of_mul_pos_left (hn.trans_le hcover)
  exact ⟨hpos, (ceilDiv_le_iff_le_mul hpos).2 (hcover.trans_eq (Nat.mul_comm ..))⟩

/-! ### "Query stage" (R288) -/

/-- The stage names with their taps (47_system_run.md R257). -/
def stageTaps : List (Stage × Fin 6) :=
  [(.source, 0), (.spreader, 1), (.modulator, 2), (.channel, 3), (.correlator, 4), (.decoder, 5)]

theorem tap_of_mem_stageTaps : ∀ e ∈ stageTaps, e.1.tap = e.2.val := by decide

/-- A query reads the stage's tap under the id of the latest completed run. -/
theorem queryStage_eq {stage : Stage} {j : Fin 6} (htap : stage.tap = j.val) (maxPoints : Nat) (id : Word) {s : State.Of α}
    (hx : s.mode ≠ .exec) : queryStage P maxPoints id stage s =
      if s.tapv = true ∧ id = s.runid then some (viewStage P.num maxPoints s.t[j]) else none := by
  have hread : hostStepIn P (.readT id stage.tap) s = hostReadT id j.val s := by
    rw [htap]
    exact whenStopped_of_ne hx _
  rw [queryStage, hread, hostReadT_eq]
  by_cases hid : s.tapv = true ∧ id = s.runid
  · rw [dif_pos ⟨hid.1, hid.2, j.isLt⟩, if_pos hid]
    rfl
  · rw [dif_neg fun ⟨htapv, hrunid, _⟩ => hid ⟨htapv, hrunid⟩, if_neg hid]

/-- A simulation with a result leaves the sequencer idle, and the taps of the result's stages under its id. -/
theorem runSimulation_eq_result {q : SimRequest α} {s t : State.Of α} {r : SimResult α} (hidle : s.mode = .idle)
    (h : runSimulation P q s = (.result r, t)) :
    t.mode ≠ .exec ∧ t.tapv = true ∧ r.id = t.runid ∧ r.stages = t.t.toList := by
  obtain hlt | hfit := Nat.lt_or_ge (bcapOf P) (textToBits q.message).length
  · rw [runSimulation, hostMoves_simulationMoves_of_lt q hidle hlt] at h
    cases h
  · cases hrun : ruleRun P (simulationStart q s) with
    | ok v =>
      rw [runSimulation_of_completed q hidle hfit hrun] at h
      obtain ⟨-, -, rfl⟩ := (ruleRun_eq_ok_iff_fits ..).1 hrun
      cases h
      exact ⟨nofun, rfl, rfl, rfl⟩
    | error e =>
      rw [runSimulation_of_raised q hidle hfit hrun rfl] at h
      split at h <;> cases h

/-- The host with a cache runs the same simulation and stores its stages. -/
theorem runSimulationCached_eq_result {size : Nat} {q : SimRequest α} {cache cache' : StageCache α} {s t : State.Of α}
    {r : SimResult α} (h : runSimulationCached P size q cache s = (.result r, cache', t)) :
    runSimulation P q s = (.result r, t) ∧ cache' = cacheStore size cache r.id r.stages := by
  unfold runSimulationCached at h
  split at h
  next hrun =>
    cases h
    exact ⟨hrun, rfl⟩
  next hnone hrun =>
    cases h
    exact (hnone r rfl).elim

/-- Settles O59: the query is a read of the tap, which the cache holds a copy of. -/
theorem stageQueries : Obligations.StageQueries := by
  intro α P maxPoints stage j hmem
  have htap : stage.tap = j.val := tap_of_mem_stageTaps (stage, j) hmem
  refine ⟨fun id s hx => queryStage_eq htap maxPoints id hx, fun size q cache cache' s t r hsize hcached hidle => ?cached,
    fun l hmax => ⟨decimate_of_le, fun hlt => ?decimated⟩⟩
  case cached =>
    obtain ⟨hrun, rfl⟩ := runSimulationCached_eq_result hcached
    obtain ⟨hx, htapv, hid, hstages⟩ := runSimulation_eq_result hidle hrun
    have hquery : queryStage P maxPoints r.id stage t = some (viewStage P.num maxPoints t.t[j]) :=
      (queryStage_eq htap maxPoints r.id hx).trans (if_pos ⟨htapv, hid⟩)
    have hcopy : cacheGet (cacheStore size cache r.id r.stages) r.id stage.tap = some t.t[j] := by
      rw [cacheGet_cacheStore hsize, hstages, htap]
      simp
    rw [queryCache, hcopy, hquery]
    exact ⟨nofun, rfl⟩
  case decimated =>
    obtain ⟨hpos, hle⟩ := decimation_bounds hmax (Nat.zero_lt_of_lt hlt) rfl
    obtain ⟨hlength, hkept⟩ := decimate_of_lt hlt rfl hpos
    refine ⟨hlength.trans_le hle, ?_⟩
    rintro stride rfl
    exact ⟨hlength, hkept⟩

end Sys2Proof.Machine
end

section
/-! SUPPORT. The spectrum in Num-real (48_host_reference.md R286): the model's sum of cosines is the squared magnitude of the
discrete Fourier transform. -/

namespace Sys2Proof.Machine

variable {α : Type}

/-! ### The transform (45_noise.md R214) -/

/-- The squared magnitude of a sum of real multiples of points of the unit circle. -/
theorem norm_sum_exp_sq (n : ℕ) (a angle : ℕ → ℝ) :
    ‖∑ u ∈ Finset.range n, (a u : ℂ) * Complex.exp (angle u * Complex.I)‖ ^ 2 =
      ∑ u ∈ Finset.range n, ∑ v ∈ Finset.range n, a u * (a v * Real.cos (angle u - angle v)) := by
  have hre : (∑ u ∈ Finset.range n, (a u : ℂ) * Complex.exp (angle u * Complex.I)).re =
      ∑ u ∈ Finset.range n, a u * Real.cos (angle u) := by
    simp only [Complex.re_sum, Complex.re_ofReal_mul, Complex.exp_ofReal_mul_I_re]
  have him : (∑ u ∈ Finset.range n, (a u : ℂ) * Complex.exp (angle u * Complex.I)).im =
      ∑ u ∈ Finset.range n, a u * Real.sin (angle u) := by
    simp only [Complex.im_sum, Complex.im_ofReal_mul, Complex.exp_ofReal_mul_I_im]
  rw [Complex.sq_norm, Complex.normSq_apply, hre, him, Finset.sum_mul_sum, Finset.sum_mul_sum, ← Finset.sum_add_distrib]
  refine Finset.sum_congr rfl fun u _ => ?_
  rw [← Finset.sum_add_distrib]
  refine Finset.sum_congr rfl fun v _ => ?_
  rw [Real.cos_sub]
  ring

/-- The `k`-th value of the discrete Fourier transform of the samples (45_noise.md R214). -/
noncomputable def fourier (x : List ℝ) (k : ℕ) : ℂ :=
  ∑ u ∈ Finset.range x.length, (x.getD u 0 : ℂ) * Complex.exp (-2 * Real.pi * Complex.I * k * u / x.length)

/-- The model's sum of cosines is the squared magnitude of the transform. -/
theorem binPower_real (x : List ℝ) (k : ℕ) : binPower realOps x k = ‖fourier x k‖ ^ 2 := by
  have hangle (u : ℕ) : -2 * Real.pi * Complex.I * k * u / x.length =
      ((-(2 * Real.pi * k * u / x.length) : ℝ) : ℂ) * Complex.I := by
    push_cast
    ring
  have hterm (u v : ℕ) (a b : ℝ) : realOps.mul a (shapeTerm realOps x.length u k v b) =
      a * (b * Real.cos (-(2 * Real.pi * k * u / x.length) - -(2 * Real.pi * k * v / x.length))) := by
    rw [← Real.cos_neg, show -(-(2 * Real.pi * k * u / x.length) - -(2 * Real.pi * k * v / x.length)) =
      2 * Real.pi * k * (u - v) / x.length by ring, ← cos_indexDistance]
    rfl
  simp only [fourier, hangle, norm_sum_exp_sq x.length (fun u => x.getD u 0)]
  simp only [binPower, sumOf_real, zipIdx_eq_map_range x 0, List.map_map, Function.comp_def, hterm,
    List.flatMap_def, List.sum_flatten, sum_range_real]

theorem binMagnitude_real (x : List ℝ) (k : ℕ) : binMagnitude realOps x k = ‖fourier x k‖ := by
  unfold binMagnitude
  rw [binPower_real]
  dsimp only
  split
  next h =>
    have hle : ‖fourier x k‖ ^ 2 ≤ 0 := of_decide_eq_true h
    exact (pow_eq_zero_iff two_ne_zero).1 (hle.antisymm (sq_nonneg _)) |>.symm
  next => exact Real.sqrt_sq (norm_nonneg _)

/-! ### The spectrum and the statement -/

theorem spectrum_nil {N : NumOps α} (fs : α) : spectrum N [] fs = [(N.zero, N.zero)] := if_pos rfl

/-- The spectrum of samples: a point for each bin up to half of them. -/
theorem spectrum_real {x : List ℝ} (fs : ℝ) (hx : x ≠ []) : spectrum realOps x fs =
    (List.range (x.length / 2 + 1)).map fun k : ℕ => (k * fs / x.length, ‖fourier x k‖ / x.length) := by
  simp only [spectrum, if_neg hx, binMagnitude_real]
  rfl

/-- Settles O60: the cache in closed form, and the spectrum with the transform's magnitudes. -/
theorem cacheEvictionAndSpectrum : Obligations.CacheEvictionAndSpectrum := by
  refine ⟨fun α size ids stages hsize hids => ?distinct, fun α size before after id old new => cacheStore_of_mem old new, ?_⟩
  case distinct =>
    have hcache := foldl_cacheStore_eq hsize stages hids
    refine ⟨hcache, fun id hid stage => ?_⟩
    rw [hcache]
    refine cacheGet_of_ne (fun e he => ?_) stage
    obtain ⟨last, hlast, rfl⟩ := List.mem_map.1 he
    rintro rfl
    exact List.disjoint_take_drop hids le_rfl hid hlast
  rintro x fs N rfl
  refine ⟨?empty, fun hx => ⟨?bins, fun k hk => ?bin⟩⟩
  case empty =>
    rintro rfl
    exact spectrum_nil fs
  case bins => rw [spectrum_real fs hx, List.length_map, List.length_range]
  case bin =>
    rw [spectrum_real fs hx, List.getElem?_map, List.getElem?_range (Nat.lt_succ_of_le hk)]
    rfl

end Sys2Proof.Machine
end
